-- ==== Sys2Proof/Word.lean ====
section
/-! DEFINITION. The word types of the block and the eight-lane value of the channels (R7, R8). -/

namespace Sys2Proof

/-- An 8-bit unsigned register, table element or wire byte (R7). -/
abbrev Byte := BitVec 8

/-- A 16-bit unsigned register (R7). -/
abbrev Word := BitVec 16

/-- `N_CH`, the number of switched channels (R5). -/
abbrev nCh : Nat := 8

/-- One value per switched channel, `N_CH` of them (R5); channel `c` is lane `c`. -/
structure Lanes (α : Type) where
  c0 : α
  c1 : α
  c2 : α
  c3 : α
  c4 : α
  c5 : α
  c6 : α
  c7 : α
deriving DecidableEq, Repr

/-- The value of channel `c`. -/
def Lanes.get {α : Type} (l : Lanes α) (c : Fin nCh) : α :=
  match c with
  | 0 => l.c0
  | 1 => l.c1
  | 2 => l.c2
  | 3 => l.c3
  | 4 => l.c4
  | 5 => l.c5
  | 6 => l.c6
  | 7 => l.c7

/-- The eight values `f 0` to `f 7`. -/
def Lanes.ofFn {α : Type} (f : Fin nCh → α) : Lanes α :=
  ⟨f 0, f 1, f 2, f 3, f 4, f 5, f 6, f 7⟩

/-- The same value in every lane. -/
def Lanes.all {α : Type} (a : α) : Lanes α := ⟨a, a, a, a, a, a, a, a⟩

end Sys2Proof
end

