-- ==== Sys2Proof/Syntax.lean ====
section
/-! DEFINITION. The instructions of the block: one constructor per row of the opcode table, the records
`R Z C Q S` of R102 to R106 and the operations 0 to 15 of R120; and the raw requests that spell them. -/

namespace Sys2Proof

/-- The role of a unit (R12, R33). The spec gives no bit encoding. -/
inductive Role where
  | master
  | slave
deriving DecidableEq, Repr

/-- The route by which a line reaches `PROCESS_LINE` (R240): the sync wire or the local loader. -/
inductive Via where
  | wire
  | loader
deriving DecidableEq, Repr

/-- One DimStep, 17 bytes (R53, R72): the duration in ticks and eight (start, stop) brightness pairs.
A duration of 0 is outside the data model (R5, `DUR_MIN`); `Instr.wellFormed` refuses it. -/
structure DimStep where
  dur   : Byte
  start : Lanes Byte
  stop  : Lanes Byte
deriving DecidableEq, Repr

/-- A classified line (R107). The payload of `c`, `q` and `s` is `none` when the line is malformed,
that is, when its remainder does not satisfy the record's "Accepted" clause (R112). -/
inductive Record where
  /-- `R` record, sync event Restart (R102). -/
  | r
  /-- `Z` record, sync event Step (R103). -/
  | z
  /-- `C` record, sync event SetSpeed(value) (R104). -/
  | c (value : Option Word)
  /-- `Q` record, sequence id and step count of a dimmer sequence (R105). -/
  | q (header : Option (Word × Word))
  /-- `S` record, one dimmer step (R106). -/
  | s (step : Option DimStep)
deriving DecidableEq, Repr

/-- The instruction set: the five wire records, each with the route it came by, and the operations of
R120. The level ports an operation samples are not operands: they are read from the state (R61). -/
inductive Instr where
  /-- `R` record (R102, R245). -/
  | recR (via : Via)
  /-- `Z` record (R103, R246). -/
  | recZ (via : Via)
  /-- `C` record (R104, R247); `none`: malformed. -/
  | recC (via : Via) (value : Option Word)
  /-- `Q` record (R105, R252); `none`: malformed. -/
  | recQ (via : Via) (header : Option (Word × Word))
  /-- `S` record (R106, R255); `none`: malformed. -/
  | recS (via : Via) (step : Option DimStep)
  /-- Code 0 (R270). -/
  | reset
  /-- Code 1 (R271). -/
  | bootSample
  /-- Code 2 (R215). -/
  | loadLine (line : List Byte)
  /-- Code 3 (R274). -/
  | loadEnd
  /-- Code 4 (R275). -/
  | srcAbsent
  /-- Code 5 (R276). -/
  | start
  /-- Code 6 (R140). -/
  | zcEdge
  /-- Code 7 (R180). -/
  | sliceTick
  /-- Code 8 (R230). -/
  | rxByte (b : Byte)
  /-- Code 9 (R211). -/
  | txService
  /-- Code 10 (R279). -/
  | read
  /-- Code 11, reserved (R120). -/
  | reserved11
  /-- Code 12, reserved (R120). -/
  | reserved12
  /-- Code 13, reserved (R120). -/
  | reserved13
  /-- Code 14, reserved (R120). -/
  | reserved14
  /-- Code 15, reserved (R120). -/
  | reserved15
deriving DecidableEq, Repr

/-- A raw request, before decoding. `op` is a request on an event port: the 4-bit operation code of R120
and the bytes of its operand. `line` is one complete line payload presented at a line route (R101). The
spec has no request of the second form: on the block lines arrive by `RX_BYTE` and `LOAD_LINE`; it stands
here so that each record of the opcode table can be run by itself (assumption 3). -/
inductive Request where
  | op (code : BitVec 4) (operand : List Byte)
  | line (via : Via) (payload : List Byte)
deriving DecidableEq, Repr

end Sys2Proof
end

