-- ==== Sys2Proof/Config.lean ====
section
/-! DEFINITION. The constants of R5 and the parameters of R6. A `Config` is plain data carried beside the
registers, so that every rule takes the parameters as arguments and bakes in no default. -/

namespace Sys2Proof

/-! ### Constants (R5); `N_CH` stands in Word.lean -/

/-- `FASTEST`, the smallest chase tick threshold in half-cycles per step. -/
abbrev fastest : Nat := 10

/-- `SLOWEST`, the largest chase tick threshold in half-cycles per step. -/
abbrev slowest : Nat := 300

/-- `DIM_ID_MIN`: selection ordinals from here on select Dimmer mode. -/
abbrev dimIdMin : Nat := 240

/-- `BRIGHT_MAX`, the largest brightness. -/
abbrev brightMax : Nat := 255

/-- `DUR_MIN`, the smallest duration of a DimStep in ticks. -/
abbrev durMin : Nat := 1

/-- `DUR_MAX`, the largest duration of a DimStep in ticks. -/
abbrev durMax : Nat := 255

/-- `DELAY_MAX`, the largest delay count. -/
abbrev delayMax : Nat := 255

/-- `S_FIELDS`, the number of integers on an `S` line: one duration and eight (start, stop) pairs. -/
abbrev sFields : Nat := 17

/-- A duration inside the data model (R5). -/
def durOk (d : Byte) : Bool := durMin ≤ d.toNat && d.toNat ≤ durMax

/-! ### Parameters (R6) -/

/-- The interpolation policy `INTERP` (R6, R153). -/
inductive InterpPolicy where
  | linear
  | steppedSnapshot
deriving DecidableEq, Repr

/-- The brightness-to-delay direction `DELAY_MAP` (R6, R154). -/
inductive DelayMap where
  | inverse
  | direct
deriving DecidableEq, Repr

/-- The parameters of one block (R6), constant during a run (R37, R331). `dimScaleTable` lists the
arguments at which `DIM_SCALE` differs from the default `DIM_SCALE(d, s) = d`, as (d, s, value): every
function on the finite domain of R6 can be given so (assumption 11). -/
structure Config where
  /-- `SLICE_BUDGET` -/
  sliceBudget : Nat
  /-- `KEEPOUT`: `none`, or `some (lo, hi)` -/
  keepout : Option (Nat × Nat)
  /-- `INTERP` -/
  interp : InterpPolicy
  /-- `DELAY_MAP` -/
  delayMap : DelayMap
  /-- `DIM_SCALE`, as its difference from the default -/
  dimScaleTable : List (Byte × Word × Word)
  /-- `DIM_BUILTIN_LIMIT` -/
  dimBuiltinLimit : Nat
  /-- `DIM_CAP` -/
  dimCap : Nat
  /-- `CHASE_ROM`, a partial function from ids to pattern lists -/
  chaseRom : List (Byte × List Byte)
  /-- `DIM_ROM`, a partial function from ids to DimSequences -/
  dimRom : List (Byte × List DimStep)
  /-- `LINE_MAX` -/
  lineMax : Nat
  /-- `TERM` -/
  term : Byte
  /-- `EVQ_DEPTH` -/
  evqDepth : Nat
deriving DecidableEq, Repr

/-- The defaults of R6. `CHASE_ROM` has no default ("launch parameter, no default"): here it defines no
id (assumption 1, DESIGN CHOICE, unsafe). -/
def Config.default : Config where
  sliceBudget := 120
  keepout := none
  interp := .linear
  delayMap := .inverse
  dimScaleTable := []
  dimBuiltinLimit := 240
  dimCap := 64
  chaseRom := []
  dimRom := []
  lineMax := 128
  term := 0x0A#8
  evqDepth := 2

/-- The constraints R6 and R272 put on the parameters. The bound 65535 on the length of a `DIM_ROM`
list is DEDUCED from the 16 bits of `dim_len` (assumption 13). -/
def Config.wf (c : Config) : Bool :=
  (1 ≤ c.sliceBudget && c.sliceBudget ≤ 65534)
  && (match c.keepout with
      | none => true
      | some (lo, hi) => 1 ≤ lo && lo ≤ hi && hi < c.sliceBudget)
  && c.dimScaleTable.all (fun e => e.1 != 0 && e.2.2 != 0)
  && (dimIdMin ≤ c.dimBuiltinLimit && c.dimBuiltinLimit ≤ 256)
  && 1 ≤ c.dimCap
  && c.chaseRom.all (fun e => e.2.length ≤ 65535)
  && c.dimRom.all (fun e => e.2.length ≤ 65535 && e.2.all (fun st => durOk st.dur))
  && 69 ≤ c.lineMax
  && (c.evqDepth == 1 || c.evqDepth == 2)

/-- The terminator is none of the bytes the records are spelled with (R100). R6 does not ask for it; the
statements that a line is read back as it was written do. -/
def Config.termPlain (c : Config) : Bool :=
  !([0x52#8, 0x5A#8, 0x43#8, 0x51#8, 0x53#8, 0x20#8, 0x30#8, 0x31#8, 0x32#8, 0x33#8, 0x34#8, 0x35#8,
     0x36#8, 0x37#8, 0x38#8, 0x39#8].contains c.term)

/-- `DIM_SCALE(0, s)`, an argument outside the domain of R6: a free value (assumption 11). Only a state
that no run reaches has a DimStep of duration 0 in its slot. -/
opaque Config.dimScaleAtZero : Word → Word

end Sys2Proof
end

