-- ==== Sys2Proof/WellFormed.lean ====
section
/-! DEFINITION. When an instruction is well formed: its operands are values the spec allows. -/

namespace Sys2Proof

/-- The two constraints on operands that their types do not already carry: the line of `LOAD_LINE`
contains no `TERM` (R215), and the duration of an `S` record is `DUR_MIN` to `DUR_MAX` (R106). -/
def Instr.wellFormed (cfg : Config) (i : Instr) : Bool :=
  match i with
  | .recR _ => true
  | .recZ _ => true
  | .recC _ _ => true
  | .recQ _ _ => true
  | .recS _ none => true
  | .recS _ (some st) => durOk st.dur
  | .reset => true
  | .bootSample => true
  | .loadLine line => !line.contains cfg.term
  | .loadEnd => true
  | .srcAbsent => true
  | .start => true
  | .zcEdge => true
  | .sliceTick => true
  | .rxByte _ => true
  | .txService => true
  | .read => true
  | .reserved11 => true
  | .reserved12 => true
  | .reserved13 => true
  | .reserved14 => true
  | .reserved15 => true

end Sys2Proof
end

