-- ==== Sys2Proof/Decode.lean ====
section
/-! DEFINITION. Decoding of records (R100 to R112) and of operation codes (R120), total on any request and
rejecting by name; and after it the encoder, from the same rules. -/

namespace Sys2Proof

/-! Byte values (R100; ASCII, assumption 20). -/

def byteR : Byte := 0x52#8
def byteZ : Byte := 0x5A#8
def byteC : Byte := 0x43#8
def byteQ : Byte := 0x51#8
def byteS : Byte := 0x53#8
/-- `SP`, the only separator (R108). -/
def byteSP : Byte := 0x20#8

/-- Why a request is no instruction. -/
inductive DecodeError where
  /-- The payload is empty or its first byte is none of `R Z C Q S` (R107, R113). -/
  | unknownLine
  /-- The payload is longer than `LINE_MAX` bytes (R112). -/
  | overlongLine
  /-- A line contains `TERM`: it is no payload (R101) and no operand of `LOAD_LINE` (R215). -/
  | terminatorInside
  /-- The operand bytes are not those the operation of this code takes (R120). -/
  | badOperand
deriving DecidableEq, Repr

/-! ### Tokens and integers -/

/-- Cut at every `SP`, dropping empty tokens (R108); `cur` is the token being read. -/
def tokensFrom : List Byte → List Byte → List (List Byte)
  | [], cur => if cur.isEmpty then [] else [cur]
  | b :: bs, cur =>
    if b = byteSP then
      (if cur.isEmpty then tokensFrom bs [] else cur :: tokensFrom bs [])
    else tokensFrom bs (cur ++ [b])

/-- The tokens of a remainder (R108). -/
def tokens (bs : List Byte) : List (List Byte) := tokensFrom bs []

/-- A digit byte, 0x30 to 0x39 (R110). -/
def isDigit (b : Byte) : Bool := 0x30 ≤ b.toNat && b.toNat ≤ 0x39

/-- The number a digit string spells, most significant digit first, without overflow (R110). -/
def digitsValue (bs : List Byte) : Nat :=
  bs.foldl (fun acc b => acc * 10 + (b.toNat - 0x30)) 0

/-- The value of a token that is an `int` (R110). -/
def parseInt (t : List Byte) : Option Nat :=
  if t.isEmpty then none else if t.all isDigit then some (digitsValue t) else none

/-- An `int` with value 0 to 65535 (R104, R105). -/
def parseWord (t : List Byte) : Option Word :=
  match parseInt t with
  | some v => if v ≤ 65535 then some (BitVec.ofNat 16 v) else none
  | none => none

/-- An `int` with value 0 to `BRIGHT_MAX`, which is also `DUR_MAX` (R106). -/
def parseByte (t : List Byte) : Option Byte :=
  match parseInt t with
  | some v => if v ≤ brightMax then some (BitVec.ofNat 8 v) else none
  | none => none

/-- Every token an `int` with value 0 to `BRIGHT_MAX`. -/
def parseBytes : List (List Byte) → Option (List Byte)
  | [] => some []
  | t :: ts =>
    match parseByte t, parseBytes ts with
    | some v, some vs => some (v :: vs)
    | _, _ => none

/-! ### Records -/

/-- The operand of a `C` record (R104): exactly one token, 0 to 65535. -/
def decodeC (rest : List Byte) : Option Word :=
  match tokens rest with
  | [t] => parseWord t
  | _ => none

/-- The operands of a `Q` record (R105): exactly two tokens, each 0 to 65535. -/
def decodeQ (rest : List Byte) : Option (Word × Word) :=
  match tokens rest with
  | [a, n] =>
    match parseWord a, parseWord n with
    | some va, some vn => some (va, vn)
    | _, _ => none
  | _ => none

/-- A DimStep from the `S_FIELDS` values of an `S` record: value 0 is the duration, value `1 + 2c` the start and
value `2 + 2c` the stop of channel `c` (R106, R255). -/
def stepOfFields (vs : List Byte) : Option DimStep :=
  let v := fun k => vs.getD k 0#8
  if vs.length = sFields ∧ durOk (v 0) = true then
    some ⟨v 0, .ofFn fun c => v (1 + 2 * c.val), .ofFn fun c => v (2 + 2 * c.val)⟩
  else none

/-- The operand of an `S` record (R106): exactly `S_FIELDS` tokens, the first `DUR_MIN` to `DUR_MAX`, the others 0
to `BRIGHT_MAX`. -/
def decodeS (rest : List Byte) : Option DimStep :=
  match parseBytes (tokens rest) with
  | some vs => stepOfFields vs
  | none => none

/-- Classification of a payload by its first byte alone (R107), then its operands (R108 to R112). -/
def decodeLine : List Byte → Except DecodeError Record
  | [] => .error .unknownLine
  | k :: rest =>
    if k = byteR then .ok .r
    else if k = byteZ then .ok .z
    else if k = byteC then .ok (.c (decodeC rest))
    else if k = byteQ then .ok (.q (decodeQ rest))
    else if k = byteS then .ok (.s (decodeS rest))
    else .error .unknownLine

/-- The instruction a record is when it comes by the given route. -/
def Record.toInstr (via : Via) : Record → Instr
  | .r => .recR via
  | .z => .recZ via
  | .c v => .recC via v
  | .q h => .recQ via h
  | .s st => .recS via st

/-! ### Operations -/

/-- An operation that takes no operand. -/
def noOperand (i : Instr) : List Byte → Except DecodeError Instr
  | [] => .ok i
  | _ :: _ => .error .badOperand

/-- The operation of a 4-bit code (R120). `RX_BYTE` takes one byte, `LOAD_LINE` a byte string, the other
operations nothing. A reserved code names no operation, so a request with one is that instruction
whatever bytes come with it. -/
def decodeOp (term : Byte) (code : BitVec 4) (operand : List Byte) : Except DecodeError Instr :=
  match code.toNat with
  | 0 => noOperand .reset operand
  | 1 => noOperand .bootSample operand
  | 2 => if operand.contains term then .error .terminatorInside else .ok (.loadLine operand)
  | 3 => noOperand .loadEnd operand
  | 4 => noOperand .srcAbsent operand
  | 5 => noOperand .start operand
  | 6 => noOperand .zcEdge operand
  | 7 => noOperand .sliceTick operand
  | 8 =>
    match operand with
    | [b] => .ok (.rxByte b)
    | _ => .error .badOperand
  | 9 => noOperand .txService operand
  | 10 => noOperand .read operand
  | 11 => .ok .reserved11
  | 12 => .ok .reserved12
  | 13 => .ok .reserved13
  | 14 => .ok .reserved14
  | _ => .ok .reserved15

/-- The decoder. -/
def decode (cfg : Config) : Request → Except DecodeError Instr
  | .op code operand => decodeOp cfg.term code operand
  | .line via payload =>
    if payload.contains cfg.term then .error .terminatorInside
    else if cfg.lineMax < payload.length then .error .overlongLine
    else
      match decodeLine payload with
      | .ok rec => .ok (rec.toInstr via)
      | .error e => .error e

/-! ### The encoder -/

/-- The byte of a decimal digit. -/
def digitByte (d : Nat) : Byte := BitVec.ofNat 8 (0x30 + d)

/-- Decimal digits of `n` put before `acc`, at most `fuel` of them. -/
def decFrom : Nat → Nat → List Byte → List Byte
  | 0, _, acc => acc
  | fuel + 1, n, acc =>
    if n < 10 then digitByte n :: acc
    else decFrom fuel (n / 10) (digitByte (n % 10) :: acc)

/-- `dec(v)`, the shortest decimal spelling of a value of at most 16 bits (R111). -/
def dec (n : Nat) : List Byte := decFrom 5 n []

/-- The 17 integers of an `S` record in their order (R106). -/
def DimStep.fields (st : DimStep) : List Byte :=
  [st.dur, st.start.c0, st.stop.c0, st.start.c1, st.stop.c1, st.start.c2, st.stop.c2,
   st.start.c3, st.stop.c3, st.start.c4, st.stop.c4, st.start.c5, st.stop.c5,
   st.start.c6, st.stop.c6, st.start.c7, st.stop.c7]

/-- `SP ++ dec(v)` for each value. -/
def spelledFields (vs : List Byte) : List Byte :=
  vs.flatMap (fun v => byteSP :: dec v.toNat)

/-- The canonical payload of a record (R102 to R106), without its `TERM`. For a malformed record, which
has no canonical spelling, the letter alone: it holds no token. -/
def Record.payload : Record → List Byte
  | .r => [byteR]
  | .z => [byteZ]
  | .c (some v) => byteC :: byteSP :: dec v.toNat
  | .c none => [byteC]
  | .q (some (a, n)) => byteQ :: byteSP :: dec a.toNat ++ byteSP :: dec n.toNat
  | .q none => [byteQ]
  | .s (some st) => byteS :: spelledFields st.fields
  | .s none => [byteS]

/-- The request that spells an instruction. -/
def encode : Instr → Request
  | .recR via => .line via Record.r.payload
  | .recZ via => .line via Record.z.payload
  | .recC via v => .line via (Record.c v).payload
  | .recQ via h => .line via (Record.q h).payload
  | .recS via st => .line via (Record.s st).payload
  | .reset => .op 0#4 []
  | .bootSample => .op 1#4 []
  | .loadLine line => .op 2#4 line
  | .loadEnd => .op 3#4 []
  | .srcAbsent => .op 4#4 []
  | .start => .op 5#4 []
  | .zcEdge => .op 6#4 []
  | .sliceTick => .op 7#4 []
  | .rxByte b => .op 8#4 [b]
  | .txService => .op 9#4 []
  | .read => .op 10#4 []
  | .reserved11 => .op 11#4 []
  | .reserved12 => .op 12#4 []
  | .reserved13 => .op 13#4 []
  | .reserved14 => .op 14#4 []
  | .reserved15 => .op 15#4 []

/-! ### Words of the opcode table -/

/-- The bytes of a number, the least significant first. -/
def wordBytes : Nat → Nat → List Byte
  | 0, _ => []
  | n + 1, w => BitVec.ofNat 8 w :: wordBytes n (w / 256)

/-- The request whose bits are `w` (assumption 4): a first byte below 16 is an operation code and the bytes
after it the operand, any other first byte opens a line on the wire. `RX_BYTE` has one operand byte, which
the table gives no bits: it is 0 when `nbits` leaves it out. -/
def tableRequest (nbits w : Nat) : Request :=
  match wordBytes (max 1 ((nbits + 7) / 8)) w with
  | [] => .op 0#4 []
  | b :: rest =>
    if b.toNat < 16 then
      .op (BitVec.ofNat 4 b.toNat) (if b = 8#8 ∧ rest.isEmpty then [0#8] else rest)
    else .line .wire (b :: rest)

/-- What the decoder reads from a word of the opcode table, at the default parameters. -/
def decodeTableWord (nbits w : Nat) : Option Instr :=
  match decode Config.default (tableRequest nbits w) with
  | .ok i => some i
  | .error _ => none

end Sys2Proof
end

