-- ==== Sys2Proof/Machine/State.lean ====
section
/-! DEFINITION. The state of one block (R20): the registers of R69, the parameters of R6, the level ports of
R61, the output ports of R62 and the schedule of R86; its value after reset; the reasons a step can stop. -/

namespace Sys2Proof.Machine

/-- `mode` (R32). -/
inductive Mode where
  | chase
  | dimmer
deriving DecidableEq, Repr

/-- `phase` (R35). -/
inductive Phase where
  | boot
  | load
  | run
  | fatal
deriving DecidableEq, Repr

/-- The error kinds of R290. `malformedLine` is never raised and never stored (R36, R293). -/
inductive ErrKind where
  | none
  | configurationAbsent
  | allocationFailure
  | malformedLine
  | unknownSequenceId
  | zeroLengthSequence
deriving DecidableEq, Repr

/-- An entry of the event queue (R45). `SetSpeed` is no entry of its own: it rides on `step (some v)`. -/
inductive SyncEvent where
  | restart
  | step (speed : Option Word)
deriving DecidableEq, Repr

/-- The staging table `stage[0 .. DIM_CAP-1]` (R48, R74), as the entries (index, DimStep) that differ from
`blankStep`, indices strictly rising; every other entry holds `blankStep`. -/
abbrev Stage := List (Nat × DimStep)

/-- Every register of R69. -/
structure Regs where
  /-- R35 -/
  phase : Phase
  /-- R31 -/
  sel : Byte
  /-- R32 -/
  mode : Mode
  /-- R33 -/
  role : Role
  /-- R34 -/
  localData : Bool
  /-- R36 -/
  err : ErrKind
  /-- R22, the step pointer -/
  currentStep : Word
  /-- R21 -/
  tickCount : Word
  /-- R24 -/
  speedParam : Word
  /-- R27 -/
  speedDirty : Bool
  /-- R38 -/
  delay : Lanes Byte
  /-- R39 -/
  snap : Lanes Byte
  /-- R40 -/
  out : Byte
  /-- R41 -/
  sliceCount : Word
  /-- R25 -/
  zcArmed : Bool
  /-- R26 -/
  sliceAttached : Bool
  /-- R45, head first -/
  evq : List SyncEvent
  /-- R28 -/
  syncOverrun : Bool
  /-- R47 -/
  rxBuf : List Byte
  /-- R29 -/
  rxOvf : Bool
  /-- R48 -/
  ldMatch : Bool
  /-- R48 -/
  ldExpect : Word
  /-- R48 -/
  ldFill : Word
  /-- R48, R74 -/
  stage : Stage
  /-- R52 -/
  chaseValid : Bool
  /-- R52 -/
  chaseLen : Word
  /-- R52: element `i` is `chase_tab[i]` -/
  chaseTab : List Byte
  /-- R53 -/
  dimValid : Bool
  /-- R53 -/
  dimLen : Word
  /-- R53: element `i` is `dim_tab[i]` -/
  dimTab : List DimStep
deriving DecidableEq, Repr

/-- The reset values of R69. Of the tables, whose contents R69 leaves unspecified, every
entry of `stage` holds `blankStep`, and `chase_tab` and `dim_tab`, whose lengths are 0, have no element
(assumption 9). -/
def Regs.atReset : Regs where
  phase := .boot
  sel := 0#8
  mode := .chase
  role := .slave
  localData := false
  err := .none
  currentStep := 0#16
  tickCount := 0#16
  speedParam := BitVec.ofNat 16 fastest
  speedDirty := false
  delay := .all 0#8
  snap := .all 0#8
  out := 0x00#8
  sliceCount := 0#16
  zcArmed := false
  sliceAttached := false
  evq := []
  syncOverrun := false
  rxBuf := []
  rxOvf := false
  ldMatch := false
  ldExpect := 0#16
  ldFill := 0#16
  stage := []
  chaseValid := false
  chaseLen := 0#16
  chaseTab := []
  dimValid := false
  dimLen := 0#16
  dimTab := []

/-- The values on the level input ports (R61). -/
structure Ports where
  speedIn : Word
  selIn : Byte
  roleIn : Role
  localIn : Bool
deriving DecidableEq, Repr

/-- What the environment presents before one step (R86): the level ports and the new requests. -/
structure Instant where
  ports : Ports
  requests : List Request
deriving DecidableEq, Repr

/-- The block and its ports. `regs` is the block's own state (R20); `cfg` are its parameters, which no step
changes; `tx` and `readData` are what has left it; `ports`, `pending` and `arrivals` are the environment's
(R20: "the sampled inputs" and "the schedule"), assumption 2. -/
structure State where
  /-- Parameters of the instance (R6). -/
  cfg : Config
  /-- The registers of R69. -/
  regs : Regs
  /-- Level ports as they stand now (R61). -/
  ports : Ports
  /-- Bytes emitted on `TX` so far, the oldest first (R62). -/
  tx : List Byte
  /-- The copy of the registers the last `READ` returned (R279). -/
  readData : Option Regs
  /-- Requests presented and not yet performed, in the schedule's order (R86). -/
  pending : List Request
  /-- What the environment presents before each of the next steps. -/
  arrivals : List Instant
deriving DecidableEq, Repr

/-- The machine right after reset: every register at its value of R69, default parameters, nothing emitted,
nothing requested. The values on the level ports are the model's (assumption 6, DESIGN CHOICE, unsafe). -/
def State.reset : State where
  cfg := .default
  regs := .atReset
  ports := ⟨BitVec.ofNat 16 fastest, 0#8, .slave, false⟩
  tx := []
  readData := none
  pending := []
  arrivals := []

/-- Why a step stops with a fault. The spec has none: each stands for an access to a table index that does
not exist (R73 says that none is ever presented). Assumption 10. -/
inductive Fault where
  /-- The mux reads `CHASE` at an index not below `chase_len` (R71). Raised by an accepted edge, `START` and
  the `R` and `Z` records in Chase mode, only from a state no run reaches. Safe. -/
  | chaseIndex (i : Nat)
  /-- The sequencer or the arming reads `DIM` at an index not below `dim_len` (R72). Raised by an accepted
  edge in Dimmer mode, only from a state no run reaches. Safe. -/
  | dimIndex (i : Nat)
  /-- A DimStep is written to `STAGE` at an index not below `DIM_CAP` (R74). Raised by the `S` record, only
  from a state no run reaches. Safe. -/
  | stageIndex (i : Nat)
deriving DecidableEq, Repr

/-- Why a step is refused. No instruction's meaning refuses. -/
inductive Refusal where
  /-- An instruction without a meaning; none is left. Safe. -/
  | notModelled (mnemonic : String)
  /-- The step was given a request that no port of the block can carry: an operand that its operation does not
  take, or a line with a `TERM` inside (R101, R120). Raised by the step before any instruction runs. Safe. -/
  | notARequest (reason : DecodeError)
deriving DecidableEq, Repr

/-- The outcome type of this machine. -/
abbrev Result := Host.Outcome State Fault Refusal

end Sys2Proof.Machine
end

