-- ==== Sys2Proof/Machine/Flags.lean ====
section
/-! DEFINITION. The single-bit control state (R25 to R29): every way an operation sets or clears a flag. The
block has no arithmetic condition codes. -/

namespace Sys2Proof.Machine

/-- First action of an accepted edge: detection is disabled (R141). -/
def Regs.acceptEdge (r : Regs) : Regs := { r with zcArmed := false }

/-- Last action of an accepted edge: the slice counter starts and the slice handler is attached (R142). -/
def Regs.beginHoldOff (r : Regs) : Regs := { r with sliceCount := 0#16, sliceAttached := true }

/-- Budget exhaustion, the return from the half-cycle (R183, R304): the slice counter is reset, the handler
detaches itself and zero-cross detection is re-armed. Also the state in which `START` leaves the two (R276). -/
def Regs.rearm (r : Regs) : Regs :=
  { r with sliceCount := 0#16, sliceAttached := false, zcArmed := true }

/-- A speed sampled at a step boundary (R148): a change is stored and marked. -/
def Regs.takeSpeed (v : Word) (r : Regs) : Regs :=
  if v = r.speedParam then r else { r with speedParam := v, speedDirty := true }

/-- The mark of a speed change is cleared when it is handed to a `Step` event (R149). -/
def Regs.clearDirty (r : Regs) : Regs := { r with speedDirty := false }

/-- An event was lost (R28, R210). -/
def Regs.noteOverrun (r : Regs) : Regs := { r with syncOverrun := true }

/-- A byte beyond `LINE_MAX` was dropped (R29, R231). -/
def Regs.noteOverlong (r : Regs) : Regs := { r with rxOvf := true }

/-- The line buffer is emptied and its flag cleared at a `TERM` (R231). -/
def Regs.clearRx (r : Regs) : Regs := { r with rxBuf := [], rxOvf := false }

/-- No block is open (R252, R256, R274, R276). -/
def Regs.closeBlock (r : Regs) : Regs :=
  { r with ldMatch := false, ldFill := 0#16, ldExpect := 0#16 }

/-- Eight channel bits in one byte, channel `c` in bit `c` (R8, R79). -/
def packBits (l : Lanes Bool) : Byte :=
  BitVec.ofNat 8 (l.c0.toNat + 2 * l.c1.toNat + 4 * l.c2.toNat + 8 * l.c3.toNat
    + 16 * l.c4.toNat + 32 * l.c5.toNat + 64 * l.c6.toNat + 128 * l.c7.toNat)

/-- The bit of channel `c` in a pattern or in `out` (R8, R40, R79). -/
def chanBit (b : Byte) (c : Fin nCh) : Bool := b.getLsbD c.val

/-- The channels whose counter is not 0 (R156, R184, R186). -/
def nonzeroBits (l : Lanes Byte) : Byte := packBits (.ofFn fun c => l.get c != 0#8)

/-- Output port `ZC_IRQ_EN` (R62). -/
def State.zcIrqEn (s : State) : Bool := s.regs.zcArmed

/-- Output port `SLICE_RUN` (R62). -/
def State.sliceRun (s : State) : Bool := s.regs.sliceAttached

/-- Output port `FATAL` (R36, R62). -/
def State.fatalPort (s : State) : Bool := s.regs.phase == .fatal

/-- Output port `OUT[7:0]` (R62). -/
def State.outPort (s : State) : Byte := s.regs.out

end Sys2Proof.Machine
end

