-- ==== Sys2Proof/Machine/Operands.lean ====
section
/-! DEFINITION. The values an operation works on: the tables' elements (R71, R72, R74), the names that are no
registers (R23, R116), the tick threshold (R143) and the brightness arithmetic (R152 to R155). -/

namespace Sys2Proof.Machine

/-- First entry of a table with the given id: the partial functions `CHASE_ROM` and `DIM_ROM` (R6;
assumption 22 on repeated ids). -/
def lookupId {α : Type} : List (Byte × α) → Byte → Option α
  | [], _ => none
  | (k, v) :: rest, id => if k = id then some v else lookupId rest id

/-! ### Tables -/

/-- `seq_len` (R23). -/
def Regs.seqLen (r : Regs) : Nat :=
  match r.mode with
  | .chase => r.chaseLen.toNat
  | .dimmer => r.dimLen.toNat

/-- `MemRead(CHASE, i, 1)` (R71). -/
def memReadChase (r : Regs) (i : Nat) : Except Fault Byte :=
  if i < r.chaseLen.toNat then
    match r.chaseTab[i]? with
    | some p => .ok p
    | none => .error (.chaseIndex i)
  else .error (.chaseIndex i)

/-- `MemRead(DIM, i, 17)` (R72). -/
def memReadDim (r : Regs) (i : Nat) : Except Fault DimStep :=
  if i < r.dimLen.toNat then
    match r.dimTab[i]? with
    | some st => .ok st
    | none => .error (.dimIndex i)
  else .error (.dimIndex i)

/-- What an entry of the staging table holds before anything is written to it. R48, R69 and U11 leave it unspecified
("any value"); the model names all zero (assumption 9, DESIGN CHOICE). No `S` line can write it: its duration is
outside the data model. -/
def blankStep : DimStep := ⟨0#8, .all 0#8, .all 0#8⟩

/-- `stage[i]` (R48, R74). -/
def Stage.read : Stage → Nat → DimStep
  | [], _ => blankStep
  | (k, v) :: rest, i => if k = i then v else Stage.read rest i

/-- The staging table with `v` listed at index `i`, indices kept rising. -/
def Stage.insert : Stage → Nat → DimStep → Stage
  | [], i, v => [(i, v)]
  | (k, w) :: rest, i, v =>
    if i < k then (i, v) :: (k, w) :: rest
    else if i = k then (i, v) :: rest
    else (k, w) :: Stage.insert rest i v

/-- `stage[i] <- v`. Writing what an unlisted entry holds takes the entry off the list. -/
def Stage.write (st : Stage) (i : Nat) (v : DimStep) : Stage :=
  if v = blankStep then st.filter (fun e => e.1 != i) else st.insert i v

/-- Indices strictly rising. -/
def Stage.rising : Stage → Bool
  | [] => true
  | (k, _) :: rest => rest.all (fun e => k < e.1) && Stage.rising rest

/-- The canonical form of the staging table: indices strictly rising, and no entry that an unlisted index would
read as. -/
def Stage.wf (st : Stage) : Bool := st.rising && st.all (fun e => e.2 != blankStep)

/-- `MemWrite(STAGE, i, 17, v)` (R74). -/
def memWriteStage (cfg : Config) (r : Regs) (i : Nat) (v : DimStep) : Except Fault Regs :=
  if i < cfg.dimCap then .ok { r with stage := r.stage.write i v } else .error (.stageIndex i)

/-- `stage[0]` to `stage[n - 1]`, as `COMMIT` reads them (R256). -/
def readStage (st : Stage) (n : Nat) : List DimStep := (List.range n).map st.read

/-! ### Line source -/

/-- The values of `dim_source` (R116). -/
inductive DimSource where
  | none
  | rom
  | loader
  | wire
  | absent
deriving DecidableEq, Repr

/-- `dim_source`, a function of the latched configuration (R116). -/
def Regs.dimSource (cfg : Config) (r : Regs) : DimSource :=
  match r.mode with
  | .chase => .none
  | .dimmer =>
    if r.sel.toNat < cfg.dimBuiltinLimit then .rom
    else if r.localData then .loader
    else
      match r.role with
      | .slave => .wire
      | .master => .absent

/-- The line source a route stands for (R240). -/
def viaSource : Via → DimSource
  | .wire => .wire
  | .loader => .loader

/-! ### Timing values -/

/-- First entry of the `DIM_SCALE` table for the arguments (assumption 11). -/
def lookupScale : List (Byte × Word × Word) → Byte → Word → Option Word
  | [], _, _ => none
  | (d', s', v) :: rest, d, s => if d' = d ∧ s' = s then some v else lookupScale rest d s

/-- `DIM_SCALE(d, s)` (R6). Outside its domain, at `d = 0`, a free value. -/
def dimScale (cfg : Config) (d : Byte) (s : Word) : Nat :=
  if d = 0#8 then (Config.dimScaleAtZero s).toNat
  else
    match lookupScale cfg.dimScaleTable d s with
    | some v => v.toNat
    | none => d.toNat

/-- `threshold()`, the tick threshold of the current step (R143). -/
def threshold (cfg : Config) (r : Regs) : Except Fault Nat :=
  match r.mode with
  | .chase => .ok r.speedParam.toNat
  | .dimmer =>
    match memReadDim r r.currentStep.toNat with
    | .ok st => .ok (dimScale cfg st.dur r.speedParam)
    | .error f => .error f

/-! ### Brightness -/

/-- `a div b` of R11: division of mathematical integers truncating toward zero. -/
def truncDiv (a : Int) (b : Nat) : Int := a.tdiv (b : Int)

/-- `interp(start, stop, t, D)` (R152), multiply before divide; `start` when `D = 0`. -/
def interp (start stop : Byte) (t D : Nat) : Int :=
  if D = 0 then (start.toNat : Int)
  else (start.toNat : Int) + truncDiv (((stop.toNat : Int) - (start.toNat : Int)) * (t : Int)) D

/-- The brightness of one channel at an arming, under the policy `INTERP` (R153). -/
def brightness (p : InterpPolicy) (start stop : Byte) (t D : Nat) : Byte :=
  match p with
  | .linear => BitVec.ofInt 8 (interp start stop t D)
  | .steppedSnapshot => start

/-- `dmap(b)`, brightness to delay count (R154). -/
def dmap (m : DelayMap) (b : Byte) : Byte :=
  match m with
  | .inverse => BitVec.ofNat 8 (delayMax - b.toNat)
  | .direct => b

/-- The delay counts of an arming of the step `st` at tick offset `t` and effective duration `D` (R156). -/
def armedDelays (cfg : Config) (st : DimStep) (t D : Nat) : Lanes Byte :=
  .ofFn fun c => dmap cfg.delayMap (brightness cfg.interp (st.start.get c) (st.stop.get c) t D)

end Sys2Proof.Machine
end

