-- ==== Sys2Proof/Machine/Ops.lean ====
section
/-! DEFINITION. The shared operations: raising an error (the block's exception entry, R296 and R297) and reset,
the mux, the step pointer, the event queue and its frames, the loader's procedures, the application of
events. -/

namespace Sys2Proof.Machine

/-! ### Errors -/

/-- The numeric code of an error kind (R290). -/
def ErrKind.code : ErrKind → Nat
  | .none => 0
  | .configurationAbsent => 1
  | .allocationFailure => 2
  | .malformedLine => 3
  | .unknownSequenceId => 4
  | .zeroLengthSequence => 5

/-- Whether an error of this kind is fatal, given `dim_valid` (R290). -/
def ErrKind.isFatal (k : ErrKind) (dimValid : Bool) : Bool :=
  match k with
  | .none => false
  | .configurationAbsent => true
  | .allocationFailure => !dimValid
  | .malformedLine => false
  | .unknownSequenceId => false
  | .zeroLengthSequence => true

/-- `raise E`: the one error action. Fatal (R296): the kind is stored, the block enters Fatal, the outputs
go off, both handlers are disabled. Not fatal (R297): the kind is stored and nothing else. -/
def raise (k : ErrKind) (r : Regs) : Regs :=
  if k.isFatal r.dimValid then
    { r with err := k, phase := .fatal, out := 0x00#8, zcArmed := false, sliceAttached := false }
  else { r with err := k }

/-- The effect of `RESET` on the registers (R270, R331): the way out of Fatal, and of every other phase. -/
def Regs.reset (_ : Regs) : Regs := .atReset

/-! ### Outcomes -/

/-- The next state with the registers an operation computed, or the fault it met. -/
def State.finish (s : State) : Except Fault Regs → Result
  | .ok r => .next { s with regs := r }
  | .error f => .fault f

/-- `emit(bytes)` (R9, R62). -/
def State.emit (bytes : List Byte) (s : State) : State := { s with tx := s.tx ++ bytes }

/-! ### Mux -/

/-- `MUX(i)`: the complement of the pattern of step `i` (R200). -/
def mux (r : Regs) (i : Nat) : Except Fault Byte :=
  match memReadChase r i with
  | .ok p => .ok (~~~p)
  | .error f => .error f

/-- `out <- MUX(current_step)` (R158, R245, R246). -/
def driveMux (r : Regs) : Except Fault Regs :=
  match mux r r.currentStep.toNat with
  | .ok o => .ok { r with out := o }
  | .error f => .error f

/-- The drive of `out` by an event applied on a slave: at once in Chase mode, not at all in Dimmer mode
(R245, R246, R248). -/
def showStep (r : Regs) : Except Fault Regs :=
  match r.mode with
  | .chase => driveMux r
  | .dimmer => .ok r

/-! ### Step pointer -/

/-- `current_step <- target` with the tick count zeroed, the block's control transfer (R146, R245, R246). -/
def Regs.goTo (target : Word) (r : Regs) : Regs := { r with currentStep := target, tickCount := 0#16 }

/-- Classification of a step advance (R147). -/
inductive StepKind where
  | restart
  | step
deriving DecidableEq, Repr

/-- `(current_step + 1) mod seq_len` (R146). -/
def nextStep (r : Regs) : Word := BitVec.ofNat 16 ((r.currentStep.toNat + 1) % r.seqLen)

/-- The kind of an advance that led to the given step (R147). -/
def kindOf (target : Word) : StepKind := if target = 0#16 then .restart else .step

/-! ### Event queue and frames -/

/-- `post(ev)` (R210). -/
def post (cfg : Config) (ev : SyncEvent) (r : Regs) : Regs :=
  if r.evq.length < cfg.evqDepth then { r with evq := r.evq ++ [ev] } else r.noteOverrun

/-- `frame(ev)`, the bytes of one event (R212). -/
def frame (cfg : Config) : SyncEvent → List Byte
  | .restart => [byteR, cfg.term]
  | .step none => [byteZ, cfg.term]
  | .step (some v) => [byteZ, cfg.term, byteC, byteSP] ++ dec v.toNat ++ [cfg.term]

/-- The lines of `ser(id, seq)` without their terminators (R217). -/
def serLines (id : Byte) (seq : List DimStep) : List (List Byte) :=
  (Record.q (some (BitVec.ofNat 16 id.toNat, BitVec.ofNat 16 seq.length))).payload
    :: seq.map (fun st => (Record.s (some st)).payload)

/-- `ser(id, seq)`, the canonical text of a DimSequence (R217). -/
def ser (cfg : Config) (id : Byte) (seq : List DimStep) : List Byte :=
  (serLines id seq).flatMap (fun line => line ++ [cfg.term])

/-! ### Loader -/

/-- `SELECT_CHASE()` (R272). -/
def selectChase (cfg : Config) (r : Regs) : Regs :=
  match lookupId cfg.chaseRom r.sel with
  | none => raise .unknownSequenceId r
  | some ps =>
    if ps.length = 0 then raise .zeroLengthSequence r
    else { r with chaseTab := ps, chaseLen := BitVec.ofNat 16 ps.length, chaseValid := true }

/-- `SELECT_DIM_ROM()` (R273). -/
def selectDimRom (cfg : Config) (r : Regs) : Regs :=
  match lookupId cfg.dimRom r.sel with
  | none => raise .unknownSequenceId r
  | some sts =>
    if sts.length = 0 then raise .zeroLengthSequence r
    else if cfg.dimCap < sts.length then raise .allocationFailure r
    else { r with dimTab := sts, dimLen := BitVec.ofNat 16 sts.length, dimValid := true }

/-- `Q_LINE(id, n)` (R252). -/
def qLine (cfg : Config) (id n : Word) (r : Regs) : Regs :=
  let r0 := r.closeBlock
  if id.toNat ≠ r.sel.toNat then r0
  else if n = 0#16 then raise .zeroLengthSequence r0
  else if cfg.dimCap < n.toNat then raise .allocationFailure r0
  else { r0 with ldMatch := true, ldExpect := n }

/-- `COMMIT()` (R256): the staged steps become the DimSequence in one step (R75). It follows a write to the last of
these entries, so none lies outside the table. -/
def commit (r : Regs) : Regs :=
  { r.closeBlock with
      dimTab := readStage r.stage r.ldExpect.toNat, dimLen := r.ldExpect, dimValid := true }

/-- `S_LINE(step)` (R255). -/
def sLine (cfg : Config) (st : DimStep) (r : Regs) : Except Fault Regs :=
  if r.ldMatch then
    match memWriteStage cfg r r.ldFill.toNat st with
    | .error f => .error f
    | .ok r1 =>
      let n := r.ldFill.toNat + 1
      let r2 := { r1 with ldFill := BitVec.ofNat 16 n }
      if n = r.ldExpect.toNat then .ok (commit r2) else .ok r2
  else .ok r

/-! ### Events applied on a slave -/

/-- `APPLY_RESTART()` (R245). -/
def applyRestart (r : Regs) : Except Fault Regs := showStep (r.goTo 0#16)

/-- `APPLY_STEP()` (R246): the successor, or 0 where that is not below `seq_len`. -/
def applyStep (r : Regs) : Except Fault Regs :=
  let n := r.currentStep.toNat + 1
  showStep (r.goTo (if r.seqLen ≤ n then 0#16 else BitVec.ofNat 16 n))

/-- `APPLY_SETSPEED(v)` (R247). -/
def applySetSpeed (v : Word) (r : Regs) : Regs := { r with speedParam := v }

end Sys2Proof.Machine
end

