-- ==== Sys2Proof/Machine/Dimmer.lean ====
section
/-! DEFINITION. `SLICE_TICK` (41_dimmer_engine.md): the slice counter, the countdown of the channels, the end of
the half-cycle and the keep-out window. -/

namespace Sys2Proof.Machine

/-- One decrement of a counter; a zero counter is not decremented (R184). -/
def countDown (d : Byte) : Byte := if d = 0#8 then 0#8 else d - 1#8

/-- The countdown of one slice (R184): every counter that is not 0 is decremented, and every channel whose
counter is then 0 is deasserted. -/
def countdown (r : Regs) : Regs :=
  let d := Lanes.ofFn fun c => countDown (r.delay.get c)
  { r with delay := d, out := r.out &&& nonzeroBits d }

/-- The restore at the last tick of the keep-out window (R186). -/
def restoreSnapshot (r : Regs) : Regs :=
  { r with delay := r.snap, out := nonzeroBits r.snap }

/-- Whether slice tick number `n` lies in the keep-out window (R186). -/
def inKeepout (k : Option (Nat × Nat)) (n : Nat) : Bool :=
  match k with
  | none => false
  | some (lo, hi) => lo ≤ n && n ≤ hi

/-- Whether slice tick number `n` is the last of the keep-out window (R186). -/
def endsKeepout (k : Option (Nat × Nat)) (n : Nat) : Bool :=
  match k with
  | none => false
  | some (_, hi) => n == hi

/-- The work of slice tick number `n` on the channels, within the budget (R184, R185, R186). -/
def sliceWork (cfg : Config) (n : Nat) (r : Regs) : Regs :=
  match r.mode with
  | .chase => r
  | .dimmer =>
    if inKeepout cfg.keepout n then
      (if endsKeepout cfg.keepout n then restoreSnapshot r else r)
    else countdown r

/-- Budget exhaustion (R183): in Dimmer mode all outputs go off; in Chase mode `out` is left alone (R185). -/
def endHalfCycle (r : Regs) : Regs :=
  match r.mode with
  | .chase => r.rearm
  | .dimmer => { r.rearm with out := 0x00#8 }

/-- Effect of `SLICE_TICK` on the registers (R180, R181, R182). -/
def sliceTickRegs (cfg : Config) (r : Regs) : Regs :=
  if r.phase == .run && r.sliceAttached then
    let n := r.sliceCount.toNat + 1
    if cfg.sliceBudget < n then endHalfCycle r
    else sliceWork cfg n { r with sliceCount := BitVec.ofNat 16 n }
  else r

/-- `SLICE_TICK` (R180). -/
def execSliceTick (s : State) : Result := .next { s with regs := sliceTickRegs s.cfg s.regs }

end Sys2Proof.Machine
end

