-- ==== Sys2Proof/Machine/HostOps.lean ====
section
/-! DEFINITION. The host operations of 45_host_ops.md: `RESET`, `BOOT_SAMPLE`, `LOAD_END`, `SRC_ABSENT`, `START`,
`READ`. -/

namespace Sys2Proof.Machine

/-- `RESET` (R270): every register at its reset value, in every phase; `TX` keeps what was emitted. -/
def execReset (s : State) : Result := .next { s with regs := s.regs.reset }

/-- The latching of the configuration (R271): the registers after the sampling, in Load. -/
def latchBoot (p : Ports) (r : Regs) : Regs :=
  { r with sel := p.selIn, role := p.roleIn, localData := p.localIn,
           mode := if dimIdMin ≤ p.selIn.toNat then .dimmer else .chase, phase := .load }

/-- The selection that follows the latching (R271). -/
def selectSequence (cfg : Config) (r : Regs) : Regs :=
  match r.mode with
  | .chase => selectChase cfg r
  | .dimmer =>
    match r.dimSource cfg with
    | .none => r
    | .rom => selectDimRom cfg r
    | .absent => raise .configurationAbsent r
    | .loader => r
    | .wire => r

/-- Effect of `BOOT_SAMPLE` on the registers (R271). -/
def bootSampleRegs (cfg : Config) (p : Ports) (r : Regs) : Regs :=
  if r.phase = .boot then selectSequence cfg (latchBoot p r) else r

/-- `BOOT_SAMPLE` (R271). -/
def execBootSample (s : State) : Result :=
  .next { s with regs := bootSampleRegs s.cfg s.ports s.regs }

/-- Where the loader's reports have an effect: Load with the loader as line source (R274, R275). -/
def hearsLoader (cfg : Config) (r : Regs) : Bool :=
  r.phase == .load && r.dimSource cfg == .loader

/-- Effect of `LOAD_END` on the registers (R274). -/
def loadEndRegs (cfg : Config) (r : Regs) : Regs :=
  if hearsLoader cfg r then
    (if r.dimValid then r.closeBlock else raise .unknownSequenceId r.closeBlock)
  else r

/-- `LOAD_END` (R274). -/
def execLoadEnd (s : State) : Result := .next { s with regs := loadEndRegs s.cfg s.regs }

/-- Effect of `SRC_ABSENT` on the registers (R275). -/
def srcAbsentRegs (cfg : Config) (r : Regs) : Regs :=
  if hearsLoader cfg r then raise .configurationAbsent r else r

/-- `SRC_ABSENT` (R275). -/
def execSrcAbsent (s : State) : Result := .next { s with regs := srcAbsentRegs s.cfg s.regs }

/-- Whether `START` is accepted: in Load, with a valid sequence for the mode (R276). -/
def Regs.startable (r : Regs) : Bool :=
  r.phase == .load &&
    match r.mode with
    | .chase => r.chaseValid
    | .dimmer => r.dimValid

/-- The RunState that `START` creates, before `out` and `phase` are written (R276). -/
def freshRun (speed : Word) (r : Regs) : Regs :=
  { (r.goTo 0#16).rearm.closeBlock with
      speedParam := speed, speedDirty := false, evq := [], delay := .all 0#8, snap := .all 0#8 }

/-- Effect of `START` on the registers (R276). A refused `START` changes nothing. -/
def startRegs (speed : Word) (r : Regs) : Except Fault Regs :=
  if r.startable then
    match r.mode with
    | .chase =>
      match mux r 0 with
      | .ok o => .ok { freshRun speed r with out := o, phase := .run }
      | .error f => .error f
    | .dimmer => .ok { freshRun speed r with out := 0x00#8, phase := .run }
  else .ok r

/-- `START` (R276). -/
def execStart (s : State) : Result := s.finish (startRegs s.ports.speedIn s.regs)

/-- `READ` (R279): a copy of every register goes to the host; no register changes. -/
def execRead (s : State) : Result := .next { s with readData := some s.regs }

end Sys2Proof.Machine
end

