-- ==== Sys2Proof/Machine/Records.lean ====
section
/-! DEFINITION. The meanings of the wire records `R Z C Q S` (44_sync_deserializer.md), with the phase, role
and route filter of R114 and R240, and `PROCESS_LINE`, which dispatches to them. -/

namespace Sys2Proof.Machine

/-- Where `R`, `Z` and `C` records have an effect: a slave in Run, from the wire (R114, R240). -/
def hearsEvents (via : Via) (r : Regs) : Bool :=
  r.phase == .run && r.role == .slave && via == .wire

/-- Where `Q` and `S` records have an effect: Load, Dimmer mode, from the line source (R114, R116, R240). -/
def hearsSequence (cfg : Config) (via : Via) (r : Regs) : Bool :=
  r.phase == .load && r.mode == .dimmer && r.dimSource cfg == viaSource via

/-- Effect of an `R` record on the registers. -/
def recordR (via : Via) (r : Regs) : Except Fault Regs :=
  if hearsEvents via r then applyRestart r else .ok r

/-- Effect of a `Z` record on the registers. -/
def recordZ (via : Via) (r : Regs) : Except Fault Regs :=
  if hearsEvents via r then applyStep r else .ok r

/-- Effect of a `C` record on the registers; a malformed one is discarded (R112). -/
def recordC (via : Via) (value : Option Word) (r : Regs) : Except Fault Regs :=
  match value with
  | none => .ok r
  | some v => if hearsEvents via r then .ok (applySetSpeed v r) else .ok r

/-- Effect of a `Q` record on the registers; a malformed one is discarded and closes no block (R257). -/
def recordQ (cfg : Config) (via : Via) (header : Option (Word × Word)) (r : Regs) : Except Fault Regs :=
  match header with
  | none => .ok r
  | some (id, n) => if hearsSequence cfg via r then .ok (qLine cfg id n r) else .ok r

/-- Effect of an `S` record on the registers; a malformed one is discarded (R112, R255). -/
def recordS (cfg : Config) (via : Via) (step : Option DimStep) (r : Regs) : Except Fault Regs :=
  match step with
  | none => .ok r
  | some st => if hearsSequence cfg via r then sLine cfg st r else .ok r

/-- Effect of a classified line. -/
def applyRecord (cfg : Config) (via : Via) (rec : Record) (r : Regs) : Except Fault Regs :=
  match rec with
  | .r => recordR via r
  | .z => recordZ via r
  | .c v => recordC via v r
  | .q h => recordQ cfg via h r
  | .s st => recordS cfg via st r

/-- `PROCESS_LINE(line, via)` (R240): a line that is no record is discarded (R113, R241). -/
def processLine (cfg : Config) (via : Via) (line : List Byte) (r : Regs) : Except Fault Regs :=
  match decodeLine line with
  | .ok rec => applyRecord cfg via rec r
  | .error _ => .ok r

/-- `R` (R102, R245). -/
def execR (via : Via) (s : State) : Result := s.finish (recordR via s.regs)

/-- `Z` (R103, R246). -/
def execZ (via : Via) (s : State) : Result := s.finish (recordZ via s.regs)

/-- `C` (R104, R247). -/
def execC (via : Via) (value : Option Word) (s : State) : Result := s.finish (recordC via value s.regs)

/-- `Q` (R105, R252). -/
def execQ (via : Via) (header : Option (Word × Word)) (s : State) : Result :=
  s.finish (recordQ s.cfg via header s.regs)

/-- `S` (R106, R255). -/
def execS (via : Via) (step : Option DimStep) (s : State) : Result :=
  s.finish (recordS s.cfg via step s.regs)

end Sys2Proof.Machine
end

