-- ==== Sys2Proof/Machine/Sync.lean ====
section
/-! DEFINITION. The sync endpoint's operations: `LOAD_LINE` (R215), `RX_BYTE` (R230), `TX_SERVICE` (R211), and the
reserved codes (R120). -/

namespace Sys2Proof.Machine

/-- What a master relays of a loader line: the line and one `TERM` (R216). -/
def relayed (cfg : Config) (role : Role) (line : List Byte) : List Byte :=
  match role with
  | .master => line ++ [cfg.term]
  | .slave => []

/-- The local consumption of a loader line (R215): a line over `LINE_MAX` is not processed. -/
def consumeLine (cfg : Config) (line : List Byte) (r : Regs) : Except Fault Regs :=
  if line.length ≤ cfg.lineMax then processLine cfg .loader line r else .ok r

/-- `LOAD_LINE(line)` (R215): relayed before and independently of its local interpretation. -/
def execLoadLine (line : List Byte) (s : State) : Result :=
  if hearsLoader s.cfg s.regs then
    (s.emit (relayed s.cfg s.regs.role line)).finish (consumeLine s.cfg line s.regs)
  else .next s

/-- Who listens: a slave in Load or Run (R232). -/
def Regs.listens (r : Regs) : Bool :=
  r.role == .slave && (r.phase == .load || r.phase == .run)

/-- Effect of `RX_BYTE(b)` on the registers (R230, R231). -/
def rxByteRegs (cfg : Config) (b : Byte) (r : Regs) : Except Fault Regs :=
  if r.listens then
    if b = cfg.term then
      (if r.rxOvf then .ok r.clearRx else processLine cfg .wire r.rxBuf r.clearRx)
    else if r.rxBuf.length < cfg.lineMax then .ok { r with rxBuf := r.rxBuf ++ [b] }
    else .ok r.noteOverlong
  else .ok r

/-- `RX_BYTE(b)` (R230). -/
def execRxByte (b : Byte) (s : State) : Result := s.finish (rxByteRegs s.cfg b s.regs)

/-- Who emits: a master in Run (R211). -/
def Regs.emits (r : Regs) : Bool := r.phase == .run && r.role == .master

/-- `TX_SERVICE` (R211): the head of the queue is removed and its frame emitted whole. -/
def execTxService (s : State) : Result :=
  if s.regs.emits then
    match s.regs.evq with
    | [] => .next s
    | ev :: rest => .next (State.emit (frame s.cfg ev) { s with regs := { s.regs with evq := rest } })
  else .next s

/-- A request with a reserved code changes nothing, whatever comes with it (R120). -/
def noOperation (s : State) : Result := .next s

/-- Code 11 (R120). -/
def execReserved11 (s : State) : Result := noOperation s

/-- Code 12 (R120). -/
def execReserved12 (s : State) : Result := noOperation s

/-- Code 13 (R120). -/
def execReserved13 (s : State) : Result := noOperation s

/-- Code 14 (R120). -/
def execReserved14 (s : State) : Result := noOperation s

/-- Code 15 (R120). -/
def execReserved15 (s : State) : Result := noOperation s

end Sys2Proof.Machine
end

