-- ==== Sys2Proof/Machine/ZeroCross.lean ====
section
/-! DEFINITION. `ZC_EDGE` (40_zero_cross.md): the edge detector, the step/tick sequencer of both roles and the
arming of the dimming engine. -/

namespace Sys2Proof.Machine

/-- Second half of `BOUNDARY(kind)`: the event of the transition is posted (R149). -/
def announce (cfg : Config) (kind : StepKind) (r : Regs) : Regs :=
  match kind with
  | .restart => post cfg .restart r
  | .step =>
    if r.speedDirty then (post cfg (.step (some r.speedParam)) r).clearDirty
    else post cfg (.step none) r

/-- `BOUNDARY(kind)`: the speed is sampled, then the event is posted (R148, R149). -/
def boundary (cfg : Config) (speedIn : Word) (kind : StepKind) (r : Regs) : Regs :=
  announce cfg kind (r.takeSpeed speedIn)

/-- `SEQ_MASTER` (R144, R145, R146). -/
def seqMaster (cfg : Config) (speedIn : Word) (r : Regs) : Except Fault Regs :=
  if r.seqLen ≤ r.currentStep.toNat then .ok (boundary cfg speedIn .restart (r.goTo 0#16))
  else
    match threshold cfg r with
    | .error f => .error f
    | .ok thr =>
      let n := r.tickCount.toNat + 1
      if thr ≤ n then
        .ok (boundary cfg speedIn (kindOf (nextStep r)) (r.goTo (nextStep r)))
      else .ok { r with tickCount := BitVec.ofNat 16 n }

/-- `SEQ_SLAVE` (R144, R150). -/
def seqSlave (r : Regs) : Regs :=
  if r.seqLen ≤ r.currentStep.toNat then r.goTo 0#16
  else { r with tickCount := BitVec.ofNat 16 (min (r.tickCount.toNat + 1) 65535) }

/-- The sequencer of the unit's role (R140). -/
def sequencer (cfg : Config) (speedIn : Word) (r : Regs) : Except Fault Regs :=
  match r.role with
  | .master => seqMaster cfg speedIn r
  | .slave => .ok (seqSlave r)

/-- The delay counts are loaded, kept as the snapshot, and the channels they do not name 0 are asserted
(R156, R186). -/
def Regs.loadDelays (d : Lanes Byte) (r : Regs) : Regs :=
  { r with delay := d, snap := d, out := nonzeroBits d }

/-- `ARM()` (R155, R156). -/
def arm (cfg : Config) (r : Regs) : Except Fault Regs :=
  match memReadDim r r.currentStep.toNat with
  | .error f => .error f
  | .ok st =>
    let D := dimScale cfg st.dur r.speedParam
    .ok (r.loadDelays (armedDelays cfg st (min r.tickCount.toNat D) D))

/-- The outputs of an accepted edge (R140): the mux in Chase mode (R158), the arming in Dimmer mode. -/
def driveEdge (cfg : Config) (r : Regs) : Except Fault Regs :=
  match r.mode with
  | .chase => driveMux r
  | .dimmer => arm cfg r

/-- Whether an edge is accepted (R141). -/
def Regs.acceptsEdge (r : Regs) : Bool := r.phase == .run && r.zcArmed

/-- Effect of `ZC_EDGE` on the registers (R140). A discarded edge leaves no trace (R141, R46). -/
def zcEdgeRegs (cfg : Config) (speedIn : Word) (r : Regs) : Except Fault Regs :=
  if r.acceptsEdge then
    match sequencer cfg speedIn r.acceptEdge with
    | .error f => .error f
    | .ok r1 =>
      match driveEdge cfg r1 with
      | .error f => .error f
      | .ok r2 => .ok r2.beginHoldOff
  else .ok r

/-- `ZC_EDGE` (R140). -/
def execZcEdge (s : State) : Result := s.finish (zcEdgeRegs s.cfg s.ports.speedIn s.regs)

end Sys2Proof.Machine
end

