-- ==== Sys2Proof/Machine/Dispatch.lean ====
section
/-! DEFINITION. One arm per instruction. -/

namespace Sys2Proof.Machine

def exec (i : Instr) (s : State) : Host.Outcome State Fault Refusal :=
  match i with
  | .recR via => Sys2Proof.Machine.execR via s
  | .recZ via => Sys2Proof.Machine.execZ via s
  | .recC via value => Sys2Proof.Machine.execC via value s
  | .recQ via header => Sys2Proof.Machine.execQ via header s
  | .recS via step => Sys2Proof.Machine.execS via step s
  | .reset => Sys2Proof.Machine.execReset s
  | .bootSample => Sys2Proof.Machine.execBootSample s
  | .loadLine line => Sys2Proof.Machine.execLoadLine line s
  | .loadEnd => Sys2Proof.Machine.execLoadEnd s
  | .srcAbsent => Sys2Proof.Machine.execSrcAbsent s
  | .start => Sys2Proof.Machine.execStart s
  | .zcEdge => Sys2Proof.Machine.execZcEdge s
  | .sliceTick => Sys2Proof.Machine.execSliceTick s
  | .rxByte b => Sys2Proof.Machine.execRxByte b s
  | .txService => Sys2Proof.Machine.execTxService s
  | .read => Sys2Proof.Machine.execRead s
  | .reserved11 => Sys2Proof.Machine.execReserved11 s
  | .reserved12 => Sys2Proof.Machine.execReserved12 s
  | .reserved13 => Sys2Proof.Machine.execReserved13 s
  | .reserved14 => Sys2Proof.Machine.execReserved14 s
  | .reserved15 => Sys2Proof.Machine.execReserved15 s

end Sys2Proof.Machine
end

