-- ==== Sys2Proof/Machine/Schedule.lean ====
section
/-! DEFINITION. The schedule (R86, R300): which pending request a step performs, and what becomes of a request
that is no instruction. -/

namespace Sys2Proof.Machine

/-- The priority class of a request, 0 the highest (R300). The reserved codes, which R300 does not list, and
lines presented whole are in the main-loop class (assumptions 3, 15). -/
def Request.priority : Request → Nat
  | .op code _ => if code = 0#4 then 0 else if code = 6#4 then 1 else if code = 7#4 then 2 else 3
  | .line _ _ => 3

/-- The first request of class `k`, and the others in their order. -/
def takeClass (k : Nat) : List Request → Option (Request × List Request)
  | [] => none
  | q :: rest =>
    if Request.priority q = k then some (q, rest)
    else
      match takeClass k rest with
      | some (q', rest') => some (q', q :: rest')
      | none => none

/-- The request a step performs: the first of the highest class present, and the others in their order. -/
def pick (l : List Request) : Option (Request × List Request) :=
  match takeClass 0 l with
  | some p => some p
  | none =>
    match takeClass 1 l with
    | some p => some p
    | none =>
      match takeClass 2 l with
      | some p => some p
      | none => takeClass 3 l

/-- The environment presents its next instant: new values on the level ports, new requests after those that
still wait (R86). With no instant left the ports keep their values. -/
def State.arrive (s : State) : State :=
  match s.arrivals with
  | [] => s
  | i :: rest => { s with ports := i.ports, pending := s.pending ++ i.requests, arrivals := rest }

/-- A request that decodes to no instruction: an unknown or over-long line is discarded (R112, R113); any
other is no request of this block (assumption 5). -/
def disposeOf (e : DecodeError) (s : State) : Result :=
  match e with
  | .unknownLine => .next s
  | .overlongLine => .next s
  | .terminatorInside => .refused (.notARequest .terminatorInside)
  | .badOperand => .refused (.notARequest .badOperand)

end Sys2Proof.Machine
end

