-- ==== Sys2Proof/Machine/Step.lean ====
section
/-! DEFINITION. One step of the machine (R2, R86): the environment presents what comes next, then the pending
request of the highest priority is decoded and performed. -/

namespace Sys2Proof.Machine

/-- Perform one request. -/
def perform (q : Request) (s : State) : Host.Outcome State Fault Refusal :=
  match decode s.cfg q with
  | .ok i => exec i s
  | .error e => disposeOf e s

/-- One step. With nothing pending the block holds its state (R324). -/
def step (s : State) : Host.Outcome State Fault Refusal :=
  match pick s.arrive.pending with
  | none => .next s.arrive
  | some (q, rest) => perform q { s.arrive with pending := rest }

/-- The one request whose bits are `w`, presented so that the very next step performs it: it is the only
request pending and nothing arrives before it (assumption 16). -/
def State.withFetchWord (s : State) (nbits w : Nat) : State :=
  { s with pending := [tableRequest nbits w], arrivals := [] }

end Sys2Proof.Machine
end

