-- ==== Sys2Proof/Safety.lean ====
section
/-! DEFINITION. What a safe run is, the invariant of the machine, and the sequences of operations that the
statements speak of. -/

namespace Sys2Proof.Machine

/-! ### Safe runs -/

/-- No fault is recorded in the state: no event was lost (R28, U7) and no fatal error was raised (R296, U19). -/
def State.safe (s : State) : Prop := s.regs.syncOverrun = false ∧ s.regs.phase ≠ .fatal

/-- What the host has to present on `SPEED_IN` in Chase mode (R10): `FASTEST` to `SLOWEST`. -/
def Ports.speedInRange (p : Ports) : Prop := fastest ≤ p.speedIn.toNat ∧ p.speedIn.toNat ≤ slowest

/-- The range the document gives `speed_param` (R24), which the block does not enforce. -/
def Regs.speedInRange (r : Regs) : Prop := fastest ≤ r.speedParam.toNat ∧ r.speedParam.toNat ≤ slowest

/-! ### The invariant -/

/-- What every register keeps between steps; each field names the rule that says so. -/
structure RegsInv (cfg : Config) (r : Regs) : Prop where
  /-- `chase_tab` holds the elements `0 .. chase_len - 1` (R52). -/
  chase_length : r.chaseTab.length = r.chaseLen.toNat
  /-- `dim_tab` holds the elements `0 .. dim_len - 1` (R53). -/
  dim_length : r.dimTab.length = r.dimLen.toNat
  /-- A valid chase sequence is not empty (R272). -/
  chase_pos : r.chaseValid = true → 1 ≤ r.chaseLen.toNat
  /-- `1 ≤ dim_len ≤ DIM_CAP` when `dim_valid = 1` (R53). -/
  dim_pos : r.dimValid = true → 1 ≤ r.dimLen.toNat ∧ r.dimLen.toNat ≤ cfg.dimCap
  /-- Durations in the slot are 1 to 255 (R53). -/
  dim_dur : ∀ st ∈ r.dimTab, st.dur ≠ 0#8
  /-- The staging table is in canonical form. -/
  stage_wf : r.stage.wf = true
  /-- Durations in the staging table are 1 to 255 (R53). -/
  stage_dur : ∀ e ∈ r.stage, e.2.dur ≠ 0#8
  /-- No sequence is selected before `BOOT_SAMPLE` (R69). -/
  boot_empty : r.phase = .boot → r.chaseValid = false ∧ r.dimValid = false
  /-- Dimmer mode is the mode of the ids from `DIM_ID_MIN` (R32). -/
  mode_sel : r.mode = .dimmer ↔ dimIdMin ≤ r.sel.toNat
  /-- No chase sequence is selected in Dimmer mode (R202). -/
  dimmer_no_chase : r.mode = .dimmer → r.chaseValid = false
  /-- In Run the sequence of the mode is valid (R23). -/
  run_chase : r.phase = .run → r.mode = .chase → r.chaseValid = true
  /-- In Run the sequence of the mode is valid (R23). -/
  run_dimmer : r.phase = .run → r.mode = .dimmer → r.dimValid = true
  /-- `current_step < seq_len` (R22). -/
  run_step : r.phase = .run → r.currentStep.toNat < r.seqLen
  /-- In Run exactly one of `zc_armed`, `slice_attached` is 1 (R26). -/
  run_flags : r.phase = .run → r.sliceAttached = !r.zcArmed
  /-- Outside Run neither is 1 (R25, R26). -/
  idle_flags : r.phase ≠ .run → r.zcArmed = false ∧ r.sliceAttached = false
  /-- Outside Run the outputs are off (R40, R296). -/
  idle_out : r.phase ≠ .run → r.out = 0x00#8
  /-- `slice_count ≤ SLICE_BUDGET` (R41). -/
  slice_le : r.sliceCount.toNat ≤ cfg.sliceBudget
  /-- The queue holds at most `EVQ_DEPTH` events (R45). -/
  evq_le : r.evq.length ≤ cfg.evqDepth
  /-- The queue is empty on a slave, and outside Run (R45). -/
  evq_idle : r.phase ≠ .run ∨ r.role = .slave → r.evq = []
  /-- `speed_dirty` is of a master in Run only (R27). -/
  dirty_idle : r.phase ≠ .run ∨ r.role = .slave → r.speedDirty = false
  /-- The line buffer holds at most `LINE_MAX` bytes (R47). -/
  rx_le : r.rxBuf.length ≤ cfg.lineMax
  /-- None of them is `TERM` (R47). -/
  rx_term : cfg.term ∉ r.rxBuf
  /-- An open block is not full, fits the table, and its first `ld_fill` entries have been written: what
stands in them before is no step an `S` line can write (R48, R74). -/
  block_open : r.ldMatch = true → r.ldFill.toNat < r.ldExpect.toNat ∧ r.ldExpect.toNat ≤ cfg.dimCap
    ∧ ∀ i, i < r.ldFill.toNat → (r.stage.read i).dur ≠ 0#8
  /-- With no open block both counts are 0 (R252, R256). -/
  block_closed : r.ldMatch = false → r.ldFill = 0#16 ∧ r.ldExpect = 0#16
  /-- `MalformedLine` is never stored (R36). -/
  err_stored : r.err ≠ .malformedLine
  /-- In Chase mode in Run `out` is `MUX(current_step)` (R201). -/
  out_chase : r.phase = .run → r.mode = .chase → mux r r.currentStep.toNat = .ok r.out
  /-- In Dimmer mode no channel is asserted whose counter is 0 (R187). -/
  out_dimmer : r.mode = .dimmer → ∀ c : Fin nCh, chanBit r.out c = true → r.delay.get c ≠ 0#8
  /-- On a master in Run `tick_count < threshold` whenever `threshold ≥ 1` (R21). -/
  tick_lt : r.phase = .run → r.role = .master →
    ∀ thr, threshold cfg r = .ok thr → 1 ≤ thr → r.tickCount.toNat < thr

/-- The invariant of the machine: the parameters meet R6 and the registers `RegsInv`. -/
structure State.Inv (s : State) : Prop where
  cfg_wf : s.cfg.wf = true
  regs : RegsInv s.cfg s.regs

/-! ### Sequences of operations -/

/-- The instructions of a list performed in order, stopping at the first fault or refusal. -/
def runInstrs : List Instr → State → Result
  | [], s => .next s
  | i :: is, s =>
    match exec i s with
    | .next t => runInstrs is t
    | .fault f => .fault f
    | .refused e => .refused e

/-- `n` step advances of the master's sequencer (R146). -/
def advances : Nat → Regs → Regs
  | 0, r => r
  | n + 1, r => advances n (r.goTo (nextStep r))

/-- What a slave in Run does with an event of the master (R245, R246, R247). -/
def followEvent (ev : SyncEvent) (r : Regs) : Except Fault Regs :=
  match ev with
  | .restart => applyRestart r
  | .step none => applyStep r
  | .step (some v) =>
    match applyStep r with
    | .ok r' => .ok (applySetSpeed v r')
    | .error f => .error f

/-- Element `i` of the active sequence exists and can be read (R71, R72). -/
def Regs.readable (r : Regs) (i : Nat) : Prop :=
  match r.mode with
  | .chase => ∃ p, memReadChase r i = .ok p
  | .dimmer => ∃ st, memReadDim r i = .ok st

/-- The event a master posts at a boundary that leads to step `target` (R147, R149): a `Step` carries the
speed when it changed at this boundary or at a `Restart` boundary before it. -/
def boundaryEvent (target : Nat) (changed : Bool) (speed : Word) : SyncEvent :=
  if target = 0 then .restart else if changed then .step (some speed) else .step none

end Sys2Proof.Machine
end

