-- ==== Sys2Proof/Certificates/Slice0/Obligations.lean ====
section
/-! DEFINITION. The statements for the provers. -/

open Sys2Proof Sys2Proof.Machine

/-! ### Encodings -/

/-- A few words written out from the opcode table and the record formats decode to their instruction (R102 to
R106, R120). -/
def Obligations.TableWordsDecode : Prop :=
  decodeTableWord 8 0x52 = some (.recR .wire)
  ∧ decodeTableWord 8 0x5A = some (.recZ .wire)
  ∧ decodeTableWord 8 0x0 = some .reset
  ∧ decodeTableWord 8 0x6 = some .zcEdge
  ∧ decodeTableWord 16 0x5A08 = some (.rxByte 0x5A#8)
  ∧ decode Config.default (.line .wire [0x43#8, 0x20#8, 0x32#8, 0x35#8]) = .ok (.recC .wire (some 25#16))
  ∧ decode Config.default (.line .loader [0x51#8, 0x20#8, 0x32#8, 0x34#8, 0x30#8, 0x20#8, 0x32#8])
      = .ok (.recQ .loader (some (240#16, 2#16)))
  ∧ decode Config.default (.op 0xB#4 [0x01#8]) = .ok .reserved11

/-- Decoding what the encoder writes gives the instruction back, for every instruction and every value of its
operands. The terminator must be none of the bytes records are spelled with: R6 leaves it free. -/
def Obligations.DecodeEncodeAgree : Prop :=
  ∀ (cfg : Config) (i : Instr), cfg.wf = true → cfg.termPlain = true → i.wellFormed cfg = true →
    decode cfg (encode i) = .ok i

/-- Whatever the decoder answers is well formed; a line is classified by its first byte alone, any byte but the five
letters and the empty line being unknown (R107, R113); a payload without `TERM` decodes so, unless it is longer than
`LINE_MAX` (R112); and a `C`, `Q` or `S` line has a value exactly under the "Accepted" clause of its record (R104 to
R106): the number of tokens, each an `int`, each in its range. -/
def Obligations.DecodedIsWellFormed : Prop :=
  (∀ (cfg : Config) (q : Request) (i : Instr), decode cfg q = .ok i → i.wellFormed cfg = true)
  ∧ decodeLine [] = .error .unknownLine
  ∧ (∀ (k : Byte) (rest : List Byte),
      (k = 0x52#8 → decodeLine (k :: rest) = .ok .r)
      ∧ (k = 0x5A#8 → decodeLine (k :: rest) = .ok .z)
      ∧ (k = 0x43#8 → decodeLine (k :: rest) = .ok (.c (decodeC rest)))
      ∧ (k = 0x51#8 → decodeLine (k :: rest) = .ok (.q (decodeQ rest)))
      ∧ (k = 0x53#8 → decodeLine (k :: rest) = .ok (.s (decodeS rest)))
      ∧ (k ∉ [0x52#8, 0x5A#8, 0x43#8, 0x51#8, 0x53#8] → decodeLine (k :: rest) = .error .unknownLine))
  ∧ (∀ (cfg : Config) (via : Via) (payload : List Byte), cfg.term ∉ payload →
      (cfg.lineMax < payload.length → decode cfg (.line via payload) = .error .overlongLine)
      ∧ (payload.length ≤ cfg.lineMax →
          (∀ e, decodeLine payload = .error e → decode cfg (.line via payload) = .error e)
          ∧ ∀ rec, decodeLine payload = .ok rec →
              decode cfg (.line via payload) = .ok (match rec with
                | .r => .recR via
                | .z => .recZ via
                | .c v => .recC via v
                | .q h => .recQ via h
                | .s st => .recS via st)))
  ∧ (∀ (rest : List Byte) (v : Word),
      decodeC rest = some v ↔ ∃ a, tokens rest = [a] ∧ parseInt a = some v.toNat)
  ∧ (∀ (rest : List Byte) (id n : Word),
      decodeQ rest = some (id, n) ↔
        ∃ a b, tokens rest = [a, b] ∧ parseInt a = some id.toNat ∧ parseInt b = some n.toNat)
  ∧ ∀ (rest : List Byte) (st : DimStep),
      decodeS rest = some st ↔
        (tokens rest).length = 17 ∧ ((tokens rest)[0]?).bind parseInt = some st.dur.toNat ∧ 1 ≤ st.dur.toNat
        ∧ ∀ c : Fin 8, ((tokens rest)[1 + 2 * c.val]?).bind parseInt = some (st.start.get c).toNat
          ∧ ((tokens rest)[2 + 2 * c.val]?).bind parseInt = some (st.stop.get c).toNat

/-- An operation is requested in one way only: its 4-bit code and its operand (R120). A request with a reserved code
names no operation: it is the instruction of its code whatever comes with it. -/
def Obligations.OperationRequestUnique : Prop :=
  ∀ (cfg : Config) (code : BitVec 4) (operand : List Byte) (i : Instr),
    decode cfg (.op code operand) = .ok i →
    (code.toNat < 11 → encode i = .op code operand) ∧ (11 ≤ code.toNat → encode i = .op code [])

/-- A token is an int exactly when it is one or more digit bytes, and its value is the sum of its digits, each times
the power of ten of its place, without overflow (R110). `dec(v)` has no leading zero, at most five digits, and the int
syntax reads it back (R111). -/
def Obligations.DecimalReadsBack : Prop :=
  (∀ (a : List Byte) (n : Nat), parseInt a = some n ↔
    a ≠ [] ∧ (∀ b ∈ a, 0x30 ≤ b.toNat ∧ b.toNat ≤ 0x39)
    ∧ n = (Finset.range a.length).sum fun k => ((a.getD k 0#8).toNat - 0x30) * 10 ^ (a.length - 1 - k))
  ∧ ∀ v : Word, parseWord (dec v.toNat) = some v ∧ parseInt (dec v.toNat) = some v.toNat
    ∧ (dec v.toNat).length ≤ 5
    ∧ ((dec v.toNat).head? = some 0x30#8 → v = 0#16 ∧ dec v.toNat = [0x30#8])

/-- Tokens are cut at every `SP` and at no other byte, and none is empty (R108). -/
def Obligations.TokensCutAtSpaces : Prop :=
  tokens [] = []
  ∧ (∀ a b : List Byte, tokens (a ++ 0x20#8 :: b) = tokens a ++ tokens b)
  ∧ (∀ a : List Byte, a ≠ [] → 0x20#8 ∉ a → tokens a = [a])
  ∧ (∀ (a : List Byte) (t : List Byte), t ∈ tokens a → t ≠ [] ∧ 0x20#8 ∉ t)

/-- The canonical records: the letter, and before each integer one `SP` (R102 to R106, R111), the 17 of an `S` record
being the duration and then start and stop of each channel in turn. None is longer than 69 payload bytes, and an `S`
record reaches it (R231). -/
def Obligations.CanonicalRecordFits : Prop :=
  Record.r.payload = [0x52#8] ∧ Record.z.payload = [0x5A#8]
  ∧ (∀ v : Word, (Record.c (some v)).payload = [0x43#8, 0x20#8] ++ dec v.toNat)
  ∧ (∀ id n : Word,
      (Record.q (some (id, n))).payload = [0x51#8, 0x20#8] ++ dec id.toNat ++ [0x20#8] ++ dec n.toNat)
  ∧ (∀ st : DimStep, (Record.s (some st)).payload = [0x53#8]
      ++ (st.dur :: (List.finRange 8).flatMap fun c => [st.start.get c, st.stop.get c]).flatMap
          fun v => [0x20#8] ++ dec v.toNat)
  ∧ (∀ rec : Record, rec.payload.length ≤ 69)
  ∧ ∃ st : DimStep, (Record.s (some st)).payload.length = 69

/-! ### The step -/

/-- The step performs the decoded request: the environment presents its next instant, whose values stand on the level
ports and whose requests follow those that wait, in their order, the picked request leaves the list of pending ones,
and the instruction runs (R2, R86). -/
def Obligations.StepRunsDecodedRequest : Prop :=
  ∀ s : State,
    (s.arrivals = [] → s.arrive = s)
    ∧ (∀ (n : Instant) (later : List Instant), s.arrivals = n :: later →
        s.arrive = { s with ports := n.ports, pending := s.pending ++ n.requests, arrivals := later })
    ∧ ∀ (q : Request) (rest : List Request) (i : Instr),
        pick s.arrive.pending = some (q, rest) → decode s.cfg q = .ok i → i.wellFormed s.cfg = true →
        step s = exec i { s.arrive with pending := rest }

/-- A step that finds no instruction: with nothing requested the block holds its state (R324), and a line that is
no record is discarded (R112, R113). What the environment presents first, `s.arrive`, is said by
`StepRunsDecodedRequest`. -/
def Obligations.StepWithoutInstruction : Prop :=
  ∀ s : State,
    (s.pending = [] → s.arrivals = [] → step s = .next s)
    ∧ ∀ (q : Request) (rest : List Request) (e : DecodeError),
        pick s.arrive.pending = some (q, rest) → decode s.cfg q = .error e →
        e = .unknownLine ∨ e = .overlongLine →
        step s = .next { s.arrive with pending := rest }

/-- `RESET` is of class 0, `ZC_EDGE` of class 1, `SLICE_TICK` of class 2 and every other request of class 3 (R300; for
lines presented whole and reserved codes the model's choice, log entries 3 and 15). The request performed is one of the
highest class present, the first of its class in the list, and the others stay in their order (R86). -/
def Obligations.PriorityOrder : Prop :=
  (∀ operand, Request.priority (.op 0#4 operand) = 0)
  ∧ (∀ operand, Request.priority (.op 6#4 operand) = 1)
  ∧ (∀ operand, Request.priority (.op 7#4 operand) = 2)
  ∧ (∀ code operand, code ∉ [0#4, 6#4, 7#4] → Request.priority (.op code operand) = 3)
  ∧ (∀ via payload, Request.priority (.line via payload) = 3)
  ∧ ∀ l : List Request, l ≠ [] → ∃ (a b : List Request) (q : Request),
    l = a ++ q :: b ∧ pick l = some (q, a ++ b)
    ∧ (∀ q' ∈ l, Request.priority q ≤ Request.priority q')
    ∧ (∀ q' ∈ a, Request.priority q' ≠ Request.priority q)

/-! ### The whole machine -/

/-- Every step keeps the invariant. On a master, which writes `speed_param` from `SPEED_IN` only, it also keeps
`speed_param` between `FASTEST` and `SLOWEST` while the host presents such values (R10, R24). -/
def Obligations.StepKeepsInvariant : Prop :=
  ∀ s t : State, step s = .next t →
    (State.Inv s → State.Inv t)
    ∧ (s.regs.role = .master → Ports.speedInRange s.arrive.ports → Regs.speedInRange s.regs →
        Regs.speedInRange t.regs)

/-- The invariant holds right after reset, and `speed_param` is between `FASTEST` and `SLOWEST` (R24). The output ports
show `out`, `zc_armed`, `slice_attached` and whether the phase is Fatal (R62), so after reset all are off (R331). -/
def Obligations.ResetMeetsInvariant : Prop :=
  State.Inv State.reset ∧ Regs.speedInRange State.reset.regs
  ∧ (∀ s : State, s.outPort = s.regs.out ∧ s.zcIrqEn = s.regs.zcArmed ∧ s.sliceRun = s.regs.sliceAttached
      ∧ (s.fatalPort = true ↔ s.regs.phase = .fatal))
  ∧ State.reset.outPort = 0x00#8 ∧ State.reset.zcIrqEn = false ∧ State.reset.sliceRun = false
  ∧ State.reset.fatalPort = false

/-- A read of `CHASE` or `DIM` answers the element at its index, and answers only below the length (R71, R72). From a
state of the invariant no table index outside its range is ever presented (R73): the step does not fault. -/
def Obligations.InvariantNeverFaults : Prop :=
  (∀ (r : Regs) (i : Nat) (p : Byte),
    memReadChase r i = .ok p ↔ i < r.chaseLen.toNat ∧ r.chaseTab[i]? = some p)
  ∧ (∀ (r : Regs) (i : Nat) (st : DimStep),
    memReadDim r i = .ok st ↔ i < r.dimLen.toNat ∧ r.dimTab[i]? = some st)
  ∧ ∀ (s : State) (f : Fault), State.Inv s → step s ≠ .fault f

/-- No step changes a parameter or recalls a byte that was emitted (R37, R270, R331). -/
def Obligations.StepKeepsParametersAndSentBytes : Prop :=
  ∀ s t : State, step s = .next t → t.cfg = s.cfg ∧ ∃ more, t.tx = s.tx ++ more

/-- In Fatal every operation but `RESET` leaves every register and emits nothing (R296). -/
def Obligations.FatalHoldsEverything : Prop :=
  ∀ (i : Instr) (s : State), s.regs.phase = .fatal → i ≠ .reset →
    ∃ t, exec i s = .next t ∧ t.regs = s.regs ∧ t.tx = s.tx ∧ t.cfg = s.cfg

/-- In Boot only `BOOT_SAMPLE` and `RESET` have an effect (R332). -/
def Obligations.BootHoldsEverything : Prop :=
  ∀ (i : Instr) (s : State), s.regs.phase = .boot → i ≠ .reset → i ≠ .bootSample →
    ∃ t, exec i s = .next t ∧ t.regs = s.regs ∧ t.tx = s.tx ∧ t.cfg = s.cfg

/-- In Run no operation but `RESET` writes a sequence table, its length, or the staging table (R90). -/
def Obligations.RunKeepsTables : Prop :=
  ∀ (i : Instr) (s t : State), s.regs.phase = .run → i ≠ .reset → exec i s = .next t →
    t.regs.chaseTab = s.regs.chaseTab ∧ t.regs.chaseLen = s.regs.chaseLen
    ∧ t.regs.chaseValid = s.regs.chaseValid ∧ t.regs.dimTab = s.regs.dimTab
    ∧ t.regs.dimLen = s.regs.dimLen ∧ t.regs.dimValid = s.regs.dimValid ∧ t.regs.stage = s.regs.stage

/-- `sel`, `mode`, `role` and `local_data` are written by `BOOT_SAMPLE` in Boot and by `RESET` only (R31 to
R34). -/
def Obligations.ConfigurationLatchedOnce : Prop :=
  ∀ (i : Instr) (s t : State), i ≠ .reset → (i = .bootSample → s.regs.phase ≠ .boot) →
    exec i s = .next t →
    t.regs.sel = s.regs.sel ∧ t.regs.mode = s.regs.mode ∧ t.regs.role = s.regs.role
    ∧ t.regs.localData = s.regs.localData

/-- The phase changes only as R35 says: Boot to Load by `BOOT_SAMPLE`, Load to Run by `START`, to Fatal by a
fatal error, to Boot by `RESET`. -/
def Obligations.PhaseTransitions : Prop :=
  ∀ (i : Instr) (s t : State), exec i s = .next t → t.regs.phase ≠ s.regs.phase →
    (i = .reset ∧ t.regs.phase = .boot)
    ∨ (i = .bootSample ∧ s.regs.phase = .boot ∧ t.regs.phase = .load)
    ∨ (i = .start ∧ s.regs.phase = .load ∧ t.regs.phase = .run)
    ∨ (t.regs.phase = .fatal ∧ (s.regs.phase = .boot ∨ s.regs.phase = .load) ∧ t.regs.err ≠ .none
        ∧ t.regs.out = 0x00#8 ∧ t.regs.zcArmed = false ∧ t.regs.sliceAttached = false)

/-- `sync_overrun` is cleared by `RESET` only, and set only by a master's edge that finds the queue full
(R28, R210). -/
def Obligations.OverrunSticky : Prop :=
  ∀ (i : Instr) (s t : State), i ≠ .reset → exec i s = .next t →
    (s.regs.syncOverrun = true → t.regs.syncOverrun = true)
    ∧ (s.regs.syncOverrun = false → t.regs.syncOverrun = true →
        i = .zcEdge ∧ s.regs.role = .master ∧ s.cfg.evqDepth ≤ s.regs.evq.length)

/-- Only the edge, the slice tick, `START` and `RESET` write the delay counters, their snapshot and the slice
counter; in Run every other instruction, the received records among them, also leaves `zc_armed` and
`slice_attached`, and in Dimmer mode `out` (R77, R248). -/
def Obligations.EndpointNeverTouchesDelays : Prop :=
  ∀ (i : Instr) (s t : State), i ≠ .reset → i ≠ .start → i ≠ .zcEdge → i ≠ .sliceTick →
    exec i s = .next t →
    t.regs.delay = s.regs.delay ∧ t.regs.snap = s.regs.snap ∧ t.regs.sliceCount = s.regs.sliceCount
    ∧ (s.regs.phase = .run → t.regs.zcArmed = s.regs.zcArmed ∧ t.regs.sliceAttached = s.regs.sliceAttached
        ∧ (s.regs.mode = .dimmer → t.regs.out = s.regs.out))

/-- The error kinds have the codes 0 to 5 in their order, and no operation raises one in Run (R290). -/
def Obligations.RunRaisesNothing : Prop :=
  [ErrKind.none, .configurationAbsent, .allocationFailure, .malformedLine, .unknownSequenceId,
    .zeroLengthSequence].map ErrKind.code = [0, 1, 2, 3, 4, 5]
  ∧ ∀ (i : Instr) (s t : State), s.regs.phase = .run → i ≠ .reset → exec i s = .next t →
    t.regs.err = s.regs.err ∧ t.regs.phase = .run

/-- A run whose event queue is served stays safe: while the queue has room, no operation in Run loses an event
or leaves Run for Fatal (R342). -/
def Obligations.ServedQueueStaysSafe : Prop :=
  ∀ (i : Instr) (s t : State), s.regs.phase = .run → s.regs.evq.length < s.cfg.evqDepth →
    State.safe s → exec i s = .next t → State.safe t

/-! ### ZC_EDGE -/

/-- An edge that is not accepted and a slice tick while the handler is detached leave no trace (R46, R141,
R181). -/
def Obligations.HandlersIgnoredWhenDisabled : Prop :=
  ∀ s : State,
    (s.regs.phase ≠ .run ∨ s.regs.zcArmed = false → exec .zcEdge s = .next s)
    ∧ (s.regs.phase ≠ .run ∨ s.regs.sliceAttached = false → exec .sliceTick s = .next s)

/-- A master's accepted edge within a step, where the incremented tick count stays below the threshold of R143
(R145): the tick is counted, the outputs are driven, the hold-off begins, and nothing else changes. What the outputs become is `EdgeShowsPattern` and `EdgeArmsChannels`. -/
def Obligations.MasterEdgeWithinStep : Prop :=
  ∀ (s : State) (thr : Nat), s.regs.phase = .run → s.regs.zcArmed = true → s.regs.role = .master →
    s.regs.currentStep.toNat < s.regs.seqLen → s.regs.readable s.regs.currentStep.toNat →
    (s.regs.mode = .chase → thr = s.regs.speedParam.toNat) →
    (s.regs.mode = .dimmer → ∃ st, memReadDim s.regs s.regs.currentStep.toNat = .ok st
      ∧ thr = dimScale s.cfg st.dur s.regs.speedParam) →
    s.regs.tickCount.toNat + 1 < thr →
    ∃ t, exec .zcEdge s = .next t ∧ t.regs.tickCount.toNat = s.regs.tickCount.toNat + 1
      ∧ t = { s with regs := { s.regs with
          tickCount := t.regs.tickCount, zcArmed := false, sliceAttached := true, sliceCount := 0#16,
          out := t.regs.out, delay := t.regs.delay, snap := t.regs.snap } }

/-- A master's accepted edge at a step boundary, where the incremented tick count reaches the threshold of R143
(R145 to R149, R210): the step advances modulo the sequence
length, the tick count is zeroed, the speed is sampled, and the event of the transition is posted, carrying the
speed on a `Step` when it changed; with the queue full the event is lost and only `sync_overrun` records it. -/
def Obligations.MasterEdgeAtBoundary : Prop :=
  ∀ (s : State) (thr n : Nat) (changed : Bool), s.regs.phase = .run → s.regs.zcArmed = true →
    s.regs.role = .master → s.regs.currentStep.toNat < s.regs.seqLen →
    n = (s.regs.currentStep.toNat + 1) % s.regs.seqLen → s.regs.readable n →
    (s.regs.mode = .chase → thr = s.regs.speedParam.toNat) →
    (s.regs.mode = .dimmer → ∃ st, memReadDim s.regs s.regs.currentStep.toNat = .ok st
      ∧ thr = dimScale s.cfg st.dur s.regs.speedParam) →
    thr ≤ s.regs.tickCount.toNat + 1 →
    changed = (s.regs.speedDirty || s.ports.speedIn != s.regs.speedParam) →
    ∃ t, exec .zcEdge s = .next t ∧ t.regs.currentStep.toNat = n
      ∧ t = { s with regs := { s.regs with
          currentStep := t.regs.currentStep, tickCount := 0#16, speedParam := s.ports.speedIn,
          speedDirty := decide (n = 0) && changed, evq := t.regs.evq, syncOverrun := t.regs.syncOverrun,
          zcArmed := false, sliceAttached := true, sliceCount := 0#16,
          out := t.regs.out, delay := t.regs.delay, snap := t.regs.snap } }
      ∧ (s.regs.evq.length < s.cfg.evqDepth →
          t.regs.evq = s.regs.evq ++ [boundaryEvent n changed s.ports.speedIn]
          ∧ t.regs.syncOverrun = s.regs.syncOverrun)
      ∧ (s.cfg.evqDepth ≤ s.regs.evq.length → t.regs.evq = s.regs.evq ∧ t.regs.syncOverrun = true)

/-- A slave's accepted edge counts the tick, saturating at 65535, and does not move the step (R150). -/
def Obligations.SlaveEdge : Prop :=
  ∀ s : State, s.regs.phase = .run → s.regs.zcArmed = true → s.regs.role = .slave →
    s.regs.currentStep.toNat < s.regs.seqLen → s.regs.readable s.regs.currentStep.toNat →
    ∃ t, exec .zcEdge s = .next t ∧ t.regs.tickCount.toNat = min (s.regs.tickCount.toNat + 1) 65535
      ∧ t = { s with regs := { s.regs with
          tickCount := t.regs.tickCount, zcArmed := false, sliceAttached := true, sliceCount := 0#16,
          out := t.regs.out, delay := t.regs.delay, snap := t.regs.snap } }

/-- An accepted edge that finds a corrupt step index goes to step 0 in both roles; a master samples the speed and
announces a `Restart`, or loses it in a full queue, and a slave does nothing else (R144, R148, R149, R210). -/
def Obligations.CorruptStepRestarts : Prop :=
  ∀ s : State, s.regs.phase = .run → s.regs.zcArmed = true → s.regs.seqLen ≤ s.regs.currentStep.toNat →
    s.regs.readable 0 →
    ∃ t, exec .zcEdge s = .next t
      ∧ (s.regs.role = .slave → t = { s with regs := { s.regs with
          currentStep := 0#16, tickCount := 0#16, zcArmed := false, sliceAttached := true,
          sliceCount := 0#16, out := t.regs.out, delay := t.regs.delay, snap := t.regs.snap } })
      ∧ (s.regs.role = .master → t = { s with regs := { s.regs with
          currentStep := 0#16, tickCount := 0#16, speedParam := s.ports.speedIn,
          speedDirty := s.regs.speedDirty || s.ports.speedIn != s.regs.speedParam,
          evq := if s.regs.evq.length < s.cfg.evqDepth then s.regs.evq ++ [.restart] else s.regs.evq,
          syncOverrun := if s.regs.evq.length < s.cfg.evqDepth then s.regs.syncOverrun else true,
          zcArmed := false, sliceAttached := true, sliceCount := 0#16,
          out := t.regs.out, delay := t.regs.delay, snap := t.regs.snap } })

/-- In Chase mode an accepted edge, of either role, ends by driving the complement of the pattern of the step it
leads to, and touches neither `delay` nor `snap` (R158, R200). The bit of channel `c` is bit `c` of a pattern and of
`out` (R8, R79). -/
def Obligations.EdgeShowsPattern : Prop :=
  (∀ (b : Byte) (c : Fin 8), chanBit b c = b.toNat.testBit c.val)
  ∧ ∀ s t : State, s.regs.phase = .run → s.regs.zcArmed = true → s.regs.mode = .chase →
    exec .zcEdge s = .next t →
    t.regs.delay = s.regs.delay ∧ t.regs.snap = s.regs.snap
    ∧ ∃ p, t.regs.chaseTab[t.regs.currentStep.toNat]? = some p
      ∧ ∀ c, chanBit t.regs.out c = !chanBit p c

/-- In Dimmer mode an accepted edge, of either role, arms every channel from the step it leads to: the delay
count of the interpolated brightness at the tick offset, kept as the snapshot, and the channel on exactly when
that count is not 0 (R155, R156). The effective duration is `DIM_SCALE` of the step's duration d (not 0) and the speed:
d, except where the parameter lists another value for the two, the first listed counting (R6, R143; the form of the
list is log entry 11). -/
def Obligations.EdgeArmsChannels : Prop :=
  (∀ (cfg : Config) (d : Byte) (v : Word), d ≠ 0#8 →
    ((∀ x, (d, v, x) ∉ cfg.dimScaleTable) → dimScale cfg d v = d.toNat)
    ∧ ∀ x a b, cfg.dimScaleTable = a ++ (d, v, x) :: b → (∀ y, (d, v, y) ∉ a) → dimScale cfg d v = x.toNat)
  ∧ ∀ s t : State, s.regs.phase = .run → s.regs.zcArmed = true → s.regs.mode = .dimmer →
    exec .zcEdge s = .next t →
    ∃ st D, t.regs.dimTab[t.regs.currentStep.toNat]? = some st
      ∧ D = dimScale s.cfg st.dur t.regs.speedParam
      ∧ t.regs.snap = t.regs.delay
      ∧ ∀ c, chanBit t.regs.out c = (t.regs.delay.get c != 0#8)
        ∧ (s.cfg.interp = .linear → s.cfg.delayMap = .inverse → ((t.regs.delay.get c).toNat : Int)
            = 255 - interp (st.start.get c) (st.stop.get c) (min t.regs.tickCount.toNat D) D)
        ∧ (s.cfg.interp = .linear → s.cfg.delayMap = .direct → ((t.regs.delay.get c).toNat : Int)
            = interp (st.start.get c) (st.stop.get c) (min t.regs.tickCount.toNat D) D)
        ∧ (s.cfg.interp = .steppedSnapshot → s.cfg.delayMap = .inverse →
            (t.regs.delay.get c).toNat = 255 - (st.start.get c).toNat)
        ∧ (s.cfg.interp = .steppedSnapshot → s.cfg.delayMap = .direct →
            t.regs.delay.get c = st.start.get c)

/-- The interpolation multiplies before it divides, truncates toward zero, is exact at both ends and never passes
them; with an effective duration of 0 it is `start` (R152, R11). -/
def Obligations.InterpolationExact : Prop :=
  ∀ (start stop : Byte) (D : Nat),
    interp start stop D 0 = start.toNat
    ∧ (1 ≤ D → interp start stop 0 D = start.toNat ∧ interp start stop D D = stop.toNat
      ∧ ∀ t, t ≤ D →
        interp start stop t D = start.toNat + Int.tdiv (((stop.toNat : Int) - start.toNat) * t) D
        ∧ min (start.toNat : Int) stop.toNat ≤ interp start stop t D
        ∧ interp start stop t D ≤ max (start.toNat : Int) stop.toNat)

/-- `seq_len` is `chase_len` in Chase mode and `dim_len` in Dimmer mode (R23). An advance is a `Restart` exactly when
it leads to step 0 (R147). From step 0 of a sequence of N steps, advances 1 to N - 1 lead to the steps 1 to N - 1 and
are of kind Step; the N-th leads back to step 0 and is of kind Restart. These last are the spec's inference from R146,
which R147 marks as derived. -/
def Obligations.SequenceCycleRestarts : Prop :=
  (∀ r : Regs, (r.mode = .chase → r.seqLen = r.chaseLen.toNat) ∧ (r.mode = .dimmer → r.seqLen = r.dimLen.toNat))
  ∧ (∀ w : Word, kindOf w = .restart ↔ w = 0#16)
  ∧ ∀ r : Regs, 1 ≤ r.seqLen → r.currentStep = 0#16 →
    (∀ k, 1 ≤ k → k < r.seqLen → (advances k r).currentStep.toNat = k
      ∧ kindOf (advances k r).currentStep = .step)
    ∧ (advances r.seqLen r).currentStep = 0#16
    ∧ kindOf (advances r.seqLen r).currentStep = .restart

/-! ### SLICE_TICK -/

/-- The countdown (R184): outside a keep-out window every counter that is not 0 is decremented, and every
channel whose counter is then 0 is off. -/
def Obligations.SliceTickCountsDown : Prop :=
  ∀ s : State, s.regs.phase = .run → s.regs.sliceAttached = true → s.regs.mode = .dimmer →
    s.regs.sliceCount.toNat + 1 ≤ s.cfg.sliceBudget → s.cfg.sliceBudget ≤ 65534 →
    (∀ lo hi, s.cfg.keepout = some (lo, hi) →
      s.regs.sliceCount.toNat + 1 < lo ∨ hi < s.regs.sliceCount.toNat + 1) →
    ∃ t, exec .sliceTick s = .next t ∧ t.regs.sliceCount.toNat = s.regs.sliceCount.toNat + 1
      ∧ t = { s with regs := { s.regs with
          sliceCount := t.regs.sliceCount, delay := t.regs.delay, out := t.regs.out } }
      ∧ ∀ c, (t.regs.delay.get c).toNat = (s.regs.delay.get c).toNat - 1
        ∧ chanBit t.regs.out c = (chanBit s.regs.out c && decide (1 < (s.regs.delay.get c).toNat))

/-- A slice tick inside the keep-out window (R186): no counter moves; at its last tick the snapshot is restored
and the channels it does not name 0 are asserted again. -/
def Obligations.KeepoutWindow : Prop :=
  ∀ (s : State) (lo hi : Nat), s.regs.phase = .run → s.regs.sliceAttached = true → s.regs.mode = .dimmer →
    s.regs.sliceCount.toNat + 1 ≤ s.cfg.sliceBudget → s.cfg.sliceBudget ≤ 65534 →
    s.cfg.keepout = some (lo, hi) → lo ≤ s.regs.sliceCount.toNat + 1 → s.regs.sliceCount.toNat + 1 ≤ hi →
    ∃ t, exec .sliceTick s = .next t ∧ t.regs.sliceCount.toNat = s.regs.sliceCount.toNat + 1
      ∧ t = { s with regs := { s.regs with
          sliceCount := t.regs.sliceCount, delay := t.regs.delay, out := t.regs.out } }
      ∧ (s.regs.sliceCount.toNat + 1 < hi → t.regs.delay = s.regs.delay ∧ t.regs.out = s.regs.out)
      ∧ (s.regs.sliceCount.toNat + 1 = hi → t.regs.delay = s.regs.snap
          ∧ ∀ c, chanBit t.regs.out c = (s.regs.snap.get c != 0#8))

/-- In Chase mode a slice tick within the budget moves the slice counter and nothing else (R185). -/
def Obligations.ChaseSliceTickCountsOnly : Prop :=
  ∀ s : State, s.regs.phase = .run → s.regs.sliceAttached = true → s.regs.mode = .chase →
    s.regs.sliceCount.toNat + 1 ≤ s.cfg.sliceBudget → s.cfg.sliceBudget ≤ 65534 →
    ∃ t, exec .sliceTick s = .next t ∧ t.regs.sliceCount.toNat = s.regs.sliceCount.toNat + 1
      ∧ t = { s with regs := { s.regs with sliceCount := t.regs.sliceCount } }

/-- The tick that exceeds the budget re-arms detection, detaches the handler and resets the counter; in Dimmer
mode all outputs go off, in Chase mode they stay; delay counts and snapshot stay. In Run nothing else re-arms
detection (R183, R185). -/
def Obligations.BudgetExhausted : Prop :=
  ∀ s : State, s.regs.phase = .run →
    (s.regs.sliceAttached = true → s.cfg.sliceBudget < s.regs.sliceCount.toNat + 1 →
      exec .sliceTick s = .next { s with regs := { s.regs with
        sliceCount := 0#16, sliceAttached := false, zcArmed := true,
        out := if s.regs.mode = .dimmer then 0x00#8 else s.regs.out } })
    ∧ ∀ (i : Instr) (t : State), exec i s = .next t → s.regs.zcArmed = false → t.regs.zcArmed = true →
      i = .sliceTick ∧ s.regs.sliceAttached = true ∧ s.cfg.sliceBudget < s.regs.sliceCount.toNat + 1

/-- Between an accepted edge and the re-arm lie exactly `SLICE_BUDGET + 1` slice ticks (R189): after each of the
first `SLICE_BUDGET` detection is still disabled and an edge is discarded, and the next one re-arms it. -/
def Obligations.HalfCycleReArms : Prop :=
  ∀ s : State, s.cfg.wf = true → s.regs.phase = .run → s.regs.sliceAttached = true →
    s.regs.zcArmed = false → s.regs.sliceCount = 0#16 →
    (∀ k, k ≤ s.cfg.sliceBudget → ∃ t, runInstrs (List.replicate k .sliceTick) s = .next t
      ∧ t.regs.zcArmed = false ∧ t.regs.sliceAttached = true ∧ t.regs.sliceCount.toNat = k
      ∧ exec .zcEdge t = .next t)
    ∧ ∃ t, runInstrs (List.replicate (s.cfg.sliceBudget + 1) .sliceTick) s = .next t
      ∧ t.regs.zcArmed = true ∧ t.regs.sliceAttached = false ∧ t.regs.sliceCount = 0#16

/-- A channel armed with delay `d` is on after slice tick `k`, for `k` up to the budget, exactly when `k < d`, and off
after the end action, the tick that exceeds the budget: it fires for `d` slices and is then cut off, and for `d` above
the budget it fires until the end action (R184, R343). -/
def Obligations.ChannelFiresForItsDelay : Prop :=
  ∀ s : State, s.cfg.wf = true → s.cfg.keepout = none → s.regs.phase = .run →
    s.regs.mode = .dimmer → s.regs.sliceAttached = true → s.regs.sliceCount = 0#16 →
    s.regs.out = nonzeroBits s.regs.delay →
    (∀ k, k ≤ s.cfg.sliceBudget → ∃ t, runInstrs (List.replicate k .sliceTick) s = .next t
      ∧ ∀ c, chanBit t.regs.out c = decide (k < (s.regs.delay.get c).toNat)
        ∧ (t.regs.delay.get c).toNat = (s.regs.delay.get c).toNat - k)
    ∧ ∃ t, runInstrs (List.replicate (s.cfg.sliceBudget + 1) .sliceTick) s = .next t
      ∧ ∀ c, chanBit t.regs.out c = false

/-- Without a keep-out window, between two armings (and without `START` and `RESET`, which clear them) every write
to a delay count is a decrement by 1 of a nonzero count, so it never rises and stays 0 once 0; and in Dimmer mode
nothing but an arming asserts a channel. This is the spec's inference from R184, which R187 and R188 mark as derived. -/
def Obligations.DelaysNeverRise : Prop :=
  ∀ (i : Instr) (s t : State), s.cfg.keepout = none → i ≠ .zcEdge → exec i s = .next t →
    ∀ c, (i ≠ .start → i ≠ .reset → t.regs.delay.get c = s.regs.delay.get c
        ∨ (s.regs.delay.get c ≠ 0#8 ∧ (t.regs.delay.get c).toNat + 1 = (s.regs.delay.get c).toNat))
      ∧ (t.regs.delay.get c).toNat ≤ (s.regs.delay.get c).toNat
      ∧ (s.regs.mode = .dimmer → chanBit t.regs.out c = true → chanBit s.regs.out c = true)

/-! ### The master's side of the sync line -/

/-- `TX_SERVICE` on a master in Run removes the head of the queue and emits its frame whole (R211, R212). -/
def Obligations.TxServiceEmitsFrame : Prop :=
  ∀ (s : State) (ev : SyncEvent) (rest : List SyncEvent), s.regs.phase = .run → s.regs.role = .master →
    s.regs.evq = ev :: rest →
    exec .txService s = .next { s with
      regs := { s.regs with evq := rest },
      tx := s.tx ++ (match ev with
        | .restart => [0x52#8, s.cfg.term]
        | .step none => [0x5A#8, s.cfg.term]
        | .step (some v) => [0x5A#8, s.cfg.term, 0x43#8, 0x20#8] ++ dec v.toNat ++ [s.cfg.term]) }

/-- A slave that hears the frame of an event, byte by byte, does what the event says: its step pointer moves as
the master's did, and the speed of a `Step` is taken (R212, R230, R245 to R247, R322). -/
def Obligations.SlaveFollowsFrame : Prop :=
  ∀ (s : State) (ev : SyncEvent) (r' : Regs), s.cfg.wf = true → s.cfg.termPlain = true →
    s.regs.phase = .run → s.regs.role = .slave → s.regs.rxBuf = [] → s.regs.rxOvf = false →
    followEvent ev s.regs = .ok r' →
    runInstrs ((frame s.cfg ev).map .rxByte) s = .next { s with regs := r' }

/-- `LOAD_LINE` where the loader is the line source (R215, R216): a master relays the line byte for byte with one
`TERM`, a slave does not; the line is then consumed as the record it is, or not at all when it is over-long or no
record. -/
def Obligations.LoadLineRelaysAndConsumes : Prop :=
  ∀ (s : State) (line : List Byte), State.Inv s → s.regs.phase = .load → s.regs.dimSource s.cfg = .loader →
    ∃ t, exec (.loadLine line) s = .next t
      ∧ t.tx = s.tx ++ (if s.regs.role = .master then line ++ [s.cfg.term] else [])
      ∧ t = { s with tx := t.tx, regs := t.regs }
      ∧ (s.cfg.lineMax < line.length → t.regs = s.regs)
      ∧ (∀ e, decodeLine line = .error e → t.regs = s.regs)
      ∧ (∀ rec, line.length ≤ s.cfg.lineMax → decodeLine line = .ok rec →
          exec (rec.toInstr .loader) s = .next { s with regs := t.regs })

/-- The round trip of a DimSequence (R217): the lines of `ser(sel, seq)` read through the loader commit a
`dim_tab` equal to `seq`, and a master has relayed exactly that text. -/
def Obligations.SerializedSequenceReloads : Prop :=
  ∀ (s : State) (seq : List DimStep), s.cfg.wf = true →
    s.regs.phase = .load → s.regs.dimSource s.cfg = .loader →
    seq ≠ [] → seq.length ≤ s.cfg.dimCap → seq.length ≤ 65535 → (∀ st ∈ seq, st.dur ≠ 0#8) →
    ∃ t, runInstrs ((serLines s.regs.sel seq).map .loadLine) s = .next t
      ∧ t.regs.dimTab = seq ∧ t.regs.dimLen.toNat = seq.length ∧ t.regs.dimValid = true
      ∧ t.regs.phase = .load ∧ t.regs.ldMatch = false
      ∧ t.tx = s.tx ++ (if s.regs.role = .master then ser s.cfg s.regs.sel seq else [])

/-! ### The slave's side of the sync line -/

/-- A byte that is not `TERM` is kept until the buffer holds `LINE_MAX`; a further one sets `rx_ovf` and is
dropped (R231). -/
def Obligations.RxByteBuffers : Prop :=
  ∀ (s : State) (b : Byte), s.regs.role = .slave → s.regs.phase = .load ∨ s.regs.phase = .run →
    b ≠ s.cfg.term →
    exec (.rxByte b) s = .next { s with regs :=
      if s.regs.rxBuf.length < s.cfg.lineMax then { s.regs with rxBuf := s.regs.rxBuf ++ [b] }
      else { s.regs with rxOvf := true } }

/-- At a `TERM` the buffer and its flag are cleared in every case; an over-long line and a line that is no record
are discarded; any other line has the effect of the record it is, come by the wire (R230, R231, R240). -/
def Obligations.RxTerminatorProcesses : Prop :=
  ∀ (s s0 : State) (e : DecodeError) (rec : Record), s.regs.role = .slave →
    s.regs.phase = .load ∨ s.regs.phase = .run →
    s0 = { s with regs := { s.regs with rxBuf := [], rxOvf := false } } →
    (s.regs.rxOvf = true → exec (.rxByte s.cfg.term) s = .next s0)
    ∧ (s.regs.rxOvf = false → decodeLine s.regs.rxBuf = .error e →
        exec (.rxByte s.cfg.term) s = .next s0)
    ∧ (s.regs.rxOvf = false → decodeLine s.regs.rxBuf = .ok rec →
        exec (.rxByte s.cfg.term) s = exec (rec.toInstr .wire) s0)

/-- The endpoint's operations where they have no effect: `TX_SERVICE` on a slave, outside Run or with an empty
queue (R211); `LOAD_LINE` outside Load or where the loader is not the line source (R215); `RX_BYTE` on a master,
in Boot and in Fatal (R232). -/
def Obligations.EndpointOperationsIgnored : Prop :=
  ∀ (s : State) (line : List Byte) (b : Byte),
    (s.regs.phase ≠ .run ∨ s.regs.role = .slave ∨ s.regs.evq = [] → exec .txService s = .next s)
    ∧ (s.regs.phase ≠ .load ∨ s.regs.dimSource s.cfg ≠ .loader → exec (.loadLine line) s = .next s)
    ∧ (s.regs.role = .master ∨ s.regs.phase = .boot ∨ s.regs.phase = .fatal →
        exec (.rxByte b) s = .next s)

/-- The `R` and `Z` records on a slave in Run (R245, R246): the step pointer goes to 0, or to its successor or 0
where that is not below the sequence length; the tick count is zeroed; in Chase mode the pattern of the new step
is shown at once, in Dimmer mode `out` stays; nothing else changes. -/
def Obligations.EventRecordsMoveStep : Prop :=
  ∀ (s : State) (i : Instr) (n : Nat), s.regs.phase = .run → s.regs.role = .slave →
    (i = .recR .wire ∧ n = 0)
      ∨ (i = .recZ .wire ∧ n = if s.regs.currentStep.toNat + 1 < s.regs.seqLen
          then s.regs.currentStep.toNat + 1 else 0) →
    s.regs.readable n →
    ∃ t, exec i s = .next t ∧ t.regs.currentStep.toNat = n
      ∧ t = { s with regs := { s.regs with
          currentStep := t.regs.currentStep, tickCount := 0#16, out := t.regs.out } }
      ∧ (s.regs.mode = .dimmer → t.regs.out = s.regs.out)
      ∧ (s.regs.mode = .chase → ∃ p, s.regs.chaseTab[n]? = some p
          ∧ ∀ c, chanBit t.regs.out c = !chanBit p c)

/-- The `C` record on a slave in Run writes `speed_param` and nothing else; a malformed one changes nothing
(R247, R112). -/
def Obligations.SpeedRecord : Prop :=
  ∀ (s : State) (v : Word), s.regs.phase = .run → s.regs.role = .slave →
    exec (.recC .wire (some v)) s = .next { s with regs := { s.regs with speedParam := v } }
    ∧ exec (.recC .wire none) s = .next s

/-- Records where the filter discards them (R114, R241), and malformed ones everywhere (R112), change
nothing. -/
def Obligations.RecordsDiscarded : Prop :=
  ∀ (s : State) (via : Via) (v : Option Word) (h : Option (Word × Word)) (st : Option DimStep),
    (s.regs.phase ≠ .run ∨ s.regs.role = .master ∨ via = .loader →
      exec (.recR via) s = .next s ∧ exec (.recZ via) s = .next s ∧ exec (.recC via v) s = .next s)
    ∧ (s.regs.phase ≠ .load ∨ s.regs.mode = .chase ∨ s.regs.dimSource s.cfg ≠ viaSource via →
      exec (.recQ via h) s = .next s ∧ exec (.recS via st) s = .next s)
    ∧ exec (.recC via none) s = .next s ∧ exec (.recQ via none) s = .next s
    ∧ exec (.recS via none) s = .next s

/-- The `Q` record from the line source in Load (R252): an unfinished block is abandoned; another id opens none;
a matching header with count 0 is fatal; one over `DIM_CAP` is an `AllocationFailure`, fatal without a sequence in
the slot; any other opens a block. -/
def Obligations.HeaderRecord : Prop :=
  ∀ (s : State) (via : Via) (id n : Word) (r0 : Regs), s.regs.phase = .load → s.regs.mode = .dimmer →
    s.regs.dimSource s.cfg = viaSource via →
    r0 = { s.regs with ldMatch := false, ldFill := 0#16, ldExpect := 0#16 } →
    exec (.recQ via (some (id, n))) s = .next { s with regs :=
      if id.toNat ≠ s.regs.sel.toNat then r0
      else if n.toNat = 0 then
        { r0 with err := .zeroLengthSequence, phase := .fatal, out := 0x00#8, zcArmed := false,
                  sliceAttached := false }
      else if s.cfg.dimCap < n.toNat then
        (if s.regs.dimValid then { r0 with err := .allocationFailure }
         else { r0 with err := .allocationFailure, phase := .fatal, out := 0x00#8, zcArmed := false,
                        sliceAttached := false })
      else { r0 with ldMatch := true, ldExpect := n } }

/-- The `S` record from the line source in Load (R255): ignored with no open block; staged at `ld_fill` when it
does not complete the block, every other entry of the staging table reading as before. -/
def Obligations.StepRecordStages : Prop :=
  ∀ (s : State) (via : Via) (st : DimStep), s.regs.phase = .load → s.regs.mode = .dimmer →
    s.regs.dimSource s.cfg = viaSource via →
    (s.regs.ldMatch = false → exec (.recS via (some st)) s = .next s)
    ∧ (s.regs.ldMatch = true → s.regs.ldExpect.toNat ≤ s.cfg.dimCap →
        s.regs.ldFill.toNat + 1 < s.regs.ldExpect.toNat →
        ∃ t, exec (.recS via (some st)) s = .next t
          ∧ t.regs.ldFill.toNat = s.regs.ldFill.toNat + 1
          ∧ t = { s with regs := { s.regs with ldFill := t.regs.ldFill, stage := t.regs.stage } }
          ∧ ∀ j, t.regs.stage.read j = if j = s.regs.ldFill.toNat then st else s.regs.stage.read j)

/-- The `S` record that completes its block commits (R255, R256): in one step the staged entries become the
DimSequence, which is valid from then on, and the block is closed. -/
def Obligations.StepRecordCommits : Prop :=
  ∀ (s : State) (via : Via) (st : DimStep), s.regs.phase = .load → s.regs.mode = .dimmer →
    s.regs.dimSource s.cfg = viaSource via → s.regs.ldMatch = true →
    s.regs.ldFill.toNat + 1 = s.regs.ldExpect.toNat → s.regs.ldExpect.toNat ≤ s.cfg.dimCap →
    ∃ t, exec (.recS via (some st)) s = .next t
      ∧ t = { s with regs := { s.regs with
          ldMatch := false, ldFill := 0#16, ldExpect := 0#16, stage := t.regs.stage,
          dimValid := true, dimLen := s.regs.ldExpect, dimTab := t.regs.dimTab } }
      ∧ t.regs.dimTab.length = s.regs.ldExpect.toNat
      ∧ t.regs.dimTab[s.regs.ldFill.toNat]? = some st
      ∧ (∀ i, i < s.regs.ldFill.toNat → t.regs.dimTab[i]? = some (s.regs.stage.read i))
      ∧ ∀ j, t.regs.stage.read j = if j = s.regs.ldFill.toNat then st else s.regs.stage.read j

/-! ### Host operations -/

/-- `RESET` from any state (R270, R69): every register takes its reset value, the bytes already emitted stay. -/
def Obligations.ResetRestoresRegisters : Prop :=
  ∀ s : State, ∃ t, exec .reset s = .next t ∧ t = { s with regs := t.regs }
    ∧ t.regs.phase = .boot ∧ t.regs.sel = 0#8 ∧ t.regs.mode = .chase ∧ t.regs.role = .slave
    ∧ t.regs.localData = false ∧ t.regs.err = .none ∧ t.regs.currentStep = 0#16
    ∧ t.regs.tickCount = 0#16 ∧ t.regs.speedParam = 10#16 ∧ t.regs.speedDirty = false
    ∧ (∀ c, t.regs.delay.get c = 0#8 ∧ t.regs.snap.get c = 0#8) ∧ t.regs.out = 0x00#8
    ∧ t.regs.sliceCount = 0#16 ∧ t.regs.zcArmed = false ∧ t.regs.sliceAttached = false
    ∧ t.regs.evq = [] ∧ t.regs.syncOverrun = false ∧ t.regs.rxBuf = [] ∧ t.regs.rxOvf = false
    ∧ t.regs.ldMatch = false ∧ t.regs.ldExpect = 0#16 ∧ t.regs.ldFill = 0#16
    ∧ t.regs.chaseValid = false ∧ t.regs.chaseLen = 0#16 ∧ t.regs.dimValid = false
    ∧ t.regs.dimLen = 0#16

/-- `BOOT_SAMPLE` of a chase id (R271, R272): the configuration is latched and the compiled-in sequence selected;
an id that names none is an `UnknownSequenceId`, not fatal; an empty one is fatal. `chase_len` is the length of the
list, which R272 bounds by 65535 (in `Config.wf`). What `lookupId` answers is said by `BootSelectsCompiledInDimmer`. -/
def Obligations.BootSelectsChase : Prop :=
  ∀ (s : State) (r0 : Regs), s.cfg.wf = true → s.regs.phase = .boot → s.ports.selIn.toNat < 240 →
    r0 = { s.regs with sel := s.ports.selIn, role := s.ports.roleIn, localData := s.ports.localIn,
                       mode := .chase, phase := .load } →
    (lookupId s.cfg.chaseRom s.ports.selIn = none →
      exec .bootSample s = .next { s with regs := { r0 with err := .unknownSequenceId } })
    ∧ (lookupId s.cfg.chaseRom s.ports.selIn = some [] →
      exec .bootSample s = .next { s with regs := { r0 with
        err := .zeroLengthSequence, phase := .fatal, out := 0x00#8, zcArmed := false,
        sliceAttached := false } })
    ∧ (∀ p ps, lookupId s.cfg.chaseRom s.ports.selIn = some (p :: ps) →
      ∃ t, exec .bootSample s = .next t ∧ t.regs.chaseLen.toNat = (p :: ps).length
        ∧ t = { s with regs := { r0 with
            chaseTab := p :: ps, chaseLen := t.regs.chaseLen, chaseValid := true } })

/-- `BOOT_SAMPLE` of a compiled-in Dimmer id (R116, R271, R273): the sequence is selected; an id that names none
is an `UnknownSequenceId`, not fatal; an empty one and one over `DIM_CAP` are fatal. `dim_len` is the length of the
list; that no list has more than 65535 elements (in `Config.wf`) is the model's deduction, log entry 13. What `CHASE_ROM` and `DIM_ROM` define for an id: nothing where
no pair has it, else the sequence of the first pair that has it (R6; that the first counts is log entry 22). -/
def Obligations.BootSelectsCompiledInDimmer : Prop :=
  (∀ (α : Type) (rom : List (Byte × α)) (id : Byte),
    ((∀ v, (id, v) ∉ rom) → lookupId rom id = none)
    ∧ ∀ (v : α) (a b : List (Byte × α)), rom = a ++ (id, v) :: b → (∀ w, (id, w) ∉ a) → lookupId rom id = some v)
  ∧ ∀ (s : State) (r0 : Regs), s.cfg.wf = true → s.regs.phase = .boot → 240 ≤ s.ports.selIn.toNat →
    s.ports.selIn.toNat < s.cfg.dimBuiltinLimit → s.regs.dimValid = false →
    r0 = { s.regs with sel := s.ports.selIn, role := s.ports.roleIn, localData := s.ports.localIn,
                       mode := .dimmer, phase := .load } →
    (lookupId s.cfg.dimRom s.ports.selIn = none →
      exec .bootSample s = .next { s with regs := { r0 with err := .unknownSequenceId } })
    ∧ (lookupId s.cfg.dimRom s.ports.selIn = some [] →
      exec .bootSample s = .next { s with regs := { r0 with
        err := .zeroLengthSequence, phase := .fatal, out := 0x00#8, zcArmed := false,
        sliceAttached := false } })
    ∧ (∀ st sts, lookupId s.cfg.dimRom s.ports.selIn = some (st :: sts) →
      (s.cfg.dimCap < sts.length + 1 → exec .bootSample s = .next { s with regs := { r0 with
        err := .allocationFailure, phase := .fatal, out := 0x00#8, zcArmed := false,
        sliceAttached := false } })
      ∧ (sts.length + 1 ≤ s.cfg.dimCap → ∃ t, exec .bootSample s = .next t
        ∧ t.regs.dimLen.toNat = (st :: sts).length
        ∧ t = { s with regs := { r0 with
            dimTab := st :: sts, dimLen := t.regs.dimLen, dimValid := true } }))

/-- `dim_source` is as R116 says: none in Chase mode; in Dimmer mode the compiled-in table below `DIM_BUILTIN_LIMIT`,
and from there on the loader with local data, without it the wire on a slave and nothing on a master; `LOAD_LINE` and
`RX_BYTE` are the routes of the loader and the wire (R240). `BOOT_SAMPLE` of a Dimmer id that is not compiled in (R116,
R271): the configuration is latched and the lines are awaited, from the loader with local data or from the wire on a
slave; a master without local data has no source, a fatal `ConfigurationAbsent`. -/
def Obligations.BootAwaitsDimmer : Prop :=
  (∀ (cfg : Config) (r : Regs),
    (r.mode = .chase → r.dimSource cfg = .none)
    ∧ (r.mode = .dimmer → r.sel.toNat < cfg.dimBuiltinLimit → r.dimSource cfg = .rom)
    ∧ (r.mode = .dimmer → cfg.dimBuiltinLimit ≤ r.sel.toNat →
        (r.localData = true → r.dimSource cfg = .loader)
        ∧ (r.localData = false → r.role = .slave → r.dimSource cfg = .wire)
        ∧ (r.localData = false → r.role = .master → r.dimSource cfg = .absent)))
  ∧ viaSource .loader = .loader ∧ viaSource .wire = .wire
  ∧ ∀ (s : State) (r0 : Regs), s.regs.phase = .boot → 240 ≤ s.ports.selIn.toNat →
    s.cfg.dimBuiltinLimit ≤ s.ports.selIn.toNat →
    r0 = { s.regs with sel := s.ports.selIn, role := s.ports.roleIn, localData := s.ports.localIn,
                       mode := .dimmer, phase := .load } →
    (s.ports.localIn = true ∨ s.ports.roleIn = .slave → exec .bootSample s = .next { s with regs := r0 })
    ∧ (s.ports.localIn = true → r0.dimSource s.cfg = .loader)
    ∧ (s.ports.localIn = false → s.ports.roleIn = .slave → r0.dimSource s.cfg = .wire)
    ∧ (s.ports.localIn = false ∧ s.ports.roleIn = .master →
      exec .bootSample s = .next { s with regs := { r0 with
        err := .configurationAbsent, phase := .fatal, out := 0x00#8, zcArmed := false,
        sliceAttached := false } })

/-- `LOAD_END` and `SRC_ABSENT` (R274, R275): where the loader is the line source, the first abandons an
unfinished block and reports an `UnknownSequenceId` when no sequence was committed, the second is always fatal;
elsewhere they do nothing. -/
def Obligations.LoaderReports : Prop :=
  ∀ s : State,
    (s.regs.phase = .load ∧ s.regs.dimSource s.cfg = .loader →
      exec .loadEnd s = .next { s with regs := { s.regs with
        ldMatch := false, ldFill := 0#16, ldExpect := 0#16,
        err := if s.regs.dimValid then s.regs.err else .unknownSequenceId } }
      ∧ exec .srcAbsent s = .next { s with regs := { s.regs with
        err := .configurationAbsent, phase := .fatal, out := 0x00#8, zcArmed := false,
        sliceAttached := false } })
    ∧ (s.regs.phase ≠ .load ∨ s.regs.dimSource s.cfg ≠ .loader →
      exec .loadEnd s = .next s ∧ exec .srcAbsent s = .next s)

/-- `START` (R276): in Load with a valid sequence RunState is created, the speed sampled, detection armed; in Chase
mode the first pattern is shown, in Dimmer mode the outputs are off. Anywhere else it changes nothing. -/
def Obligations.StartEntersRun : Prop :=
  ∀ s : State,
    (s.regs.phase = .load → s.regs.readable 0 → (s.regs.mode = .chase → s.regs.chaseValid = true) →
      (s.regs.mode = .dimmer → s.regs.dimValid = true) →
      ∃ t, exec .start s = .next t
        ∧ t = { s with regs := { s.regs with
            currentStep := 0#16, tickCount := 0#16, speedParam := s.ports.speedIn, speedDirty := false,
            evq := [], delay := .all 0#8, snap := .all 0#8, sliceCount := 0#16, sliceAttached := false,
            zcArmed := true, ldMatch := false, ldFill := 0#16, ldExpect := 0#16, out := t.regs.out,
            phase := .run } }
        ∧ (s.regs.mode = .dimmer → t.regs.out = 0x00#8)
        ∧ (s.regs.mode = .chase → ∃ p, s.regs.chaseTab[0]? = some p
            ∧ ∀ c, chanBit t.regs.out c = !chanBit p c))
    ∧ (s.regs.phase ≠ .load ∨ (s.regs.mode = .chase ∧ s.regs.chaseValid = false)
        ∨ (s.regs.mode = .dimmer ∧ s.regs.dimValid = false) → exec .start s = .next s)

/-- `BOOT_SAMPLE` samples once: outside Boot it changes nothing (R271). -/
def Obligations.BootSampledOnce : Prop :=
  ∀ s : State, s.regs.phase ≠ .boot → exec .bootSample s = .next s

/-- `READ` hands the host a copy of every register and changes none (R279); a request with a reserved code
is taken, whatever bytes come with it, and changes nothing (R120). -/
def Obligations.ReadAndReservedChangeNothing : Prop :=
  ∀ s : State, exec .read s = .next { s with readData := some s.regs }
    ∧ exec .reserved11 s = .next s ∧ exec .reserved12 s = .next s ∧ exec .reserved13 s = .next s
    ∧ exec .reserved14 s = .next s ∧ exec .reserved15 s = .next s
    ∧ ∀ (code : BitVec 4) (operand : List Byte), 11 ≤ code.toNat →
        ∃ i, decode s.cfg (.op code operand) = .ok i ∧ exec i s = .next s
end

