-- ==== Sys2Proof/Laws/Decode.lean ====
section
/-! SUPPORT. Tokens, decimal spelling, and the decoding of what the encoder writes. -/

namespace Sys2Proof

/-! ### Tokens -/

theorem tokensFrom_append_space (a b cur : List Byte) :
    tokensFrom (a ++ byteSP :: b) cur = tokensFrom a cur ++ tokens b := by
  induction a generalizing cur with
  | nil =>
    by_cases h : cur.isEmpty = true <;> simp [tokensFrom, tokens, h]
  | cons x xs ih =>
    simp only [List.cons_append, tokensFrom]
    by_cases hx : x = byteSP
    · by_cases h : cur.isEmpty = true <;> simp [hx, h, ih]
    · simp [hx, ih]

theorem tokensFrom_no_space {a : List Byte} (h : byteSP ∉ a) (cur : List Byte) :
    tokensFrom a cur = if (cur ++ a).isEmpty then [] else [cur ++ a] := by
  induction a generalizing cur with
  | nil => simp [tokensFrom]
  | cons x xs ih =>
    have hx : x ≠ byteSP := fun e => h (by simp [e])
    have hxs : byteSP ∉ xs := fun e => h (by simp [e])
    simp [tokensFrom, hx, ih hxs]

/-- A token is not empty and holds no `SP`. -/
theorem tokensFrom_mem {a cur t : List Byte} (h : t ∈ tokensFrom a cur) (hc : byteSP ∉ cur) :
    t ≠ [] ∧ byteSP ∉ t := by
  induction a generalizing cur with
  | nil =>
    simp only [tokensFrom] at h
    split at h
    · simp at h
    · rename_i hne
      simp only [List.mem_singleton] at h
      subst h
      exact ⟨by simpa using hne, hc⟩
  | cons x xs ih =>
    simp only [tokensFrom] at h
    split at h
    · split at h
      · exact ih h (by simp)
      · rename_i hne
        rcases List.mem_cons.1 h with rfl | h
        · exact ⟨by simpa using hne, hc⟩
        · exact ih h (by simp)
    · rename_i hx
      exact ih h (by simpa [hc] using fun e => hx e.symm)

/-- One token after a space, and the tokens of the rest. -/
theorem tokens_space_token {t : List Byte} (hne : t ≠ []) (ht : byteSP ∉ t) (rest : List Byte) :
    tokens (byteSP :: t ++ byteSP :: rest) = t :: tokens rest := by
  have h1 : tokens (byteSP :: t ++ byteSP :: rest) = tokensFrom (byteSP :: t) [] ++ tokens rest :=
    tokensFrom_append_space (byteSP :: t) rest []
  rw [h1]
  have h2 : tokensFrom (byteSP :: t) [] = [t] := by
    simp [tokensFrom, tokensFrom_no_space ht, hne]
  rw [h2]; rfl

theorem tokens_space_last {t : List Byte} (hne : t ≠ []) (ht : byteSP ∉ t) :
    tokens (byteSP :: t) = [t] := by
  simp [tokens, tokensFrom, tokensFrom_no_space ht, hne]

/-! ### Decimal spelling -/

theorem digitByte_toNat {d : Nat} (h : d < 10) : (digitByte d).toNat = 0x30 + d := by
  simp only [digitByte, BitVec.toNat_ofNat]; omega

theorem isDigit_digitByte {d : Nat} (h : d < 10) : isDigit (digitByte d) = true := by
  simp [isDigit, digitByte_toNat h]; omega

theorem digitsValue_append_one (ds : List Byte) (b : Byte) :
    digitsValue (ds ++ [b]) = digitsValue ds * 10 + (b.toNat - 0x30) := by
  simp [digitsValue]

/-- What `decFrom` answers: the digits of `n`, in front of what stood there. -/
theorem decFrom_spec (fuel n : Nat) (acc : List Byte) (h : n < 10 ^ fuel) (hf : 1 ≤ fuel) :
    ∃ ds, decFrom fuel n acc = ds ++ acc ∧ ds ≠ [] ∧ ds.length ≤ fuel ∧ ds.all isDigit = true
      ∧ digitsValue ds = n ∧ (ds.head? = some 0x30#8 → n = 0 ∧ ds = [0x30#8]) := by
  induction fuel generalizing n acc with
  | zero => omega
  | succ fuel ih =>
    by_cases hn : n < 10
    · refine ⟨[digitByte n], by simp [decFrom, hn], by simp, by simp, by simp [isDigit_digitByte hn],
        by simp [digitsValue, digitByte_toNat hn], ?_⟩
      intro h0
      have : digitByte n = 0x30#8 := by simpa using h0
      have h' : (digitByte n).toNat = 0x30 := by rw [this]; rfl
      rw [digitByte_toNat hn] at h'
      exact ⟨by omega, by simp [this]⟩
    · have hf' : 1 ≤ fuel := by
        rcases Nat.eq_zero_or_pos fuel with rfl | h1
        · simp at h; omega
        · exact h1
      have hlt : n / 10 < 10 ^ fuel := by
        rw [Nat.div_lt_iff_lt_mul (by decide)]; rw [pow_succ] at h; exact h
      obtain ⟨ds, he, hne, hlen, hall, hval, hhead⟩ := ih (n / 10) (digitByte (n % 10) :: acc) hlt hf'
      have hm : n % 10 < 10 := Nat.mod_lt _ (by decide)
      refine ⟨ds ++ [digitByte (n % 10)], by simp [decFrom, hn, he], by simp, by simp [hlen], ?_, ?_, ?_⟩
      · simp only [List.all_append, hall, Bool.true_and, List.all_cons, List.all_nil, Bool.and_true]
        exact isDigit_digitByte hm
      · rw [digitsValue_append_one, hval, digitByte_toNat hm]; omega
      · intro h0
        cases ds with
        | nil => exact absurd rfl hne
        | cons d ds' =>
          have := (hhead (by simpa using h0)).1
          omega

theorem isDigit_ne_space {b : Byte} (h : isDigit b = true) : b ≠ byteSP := by
  rintro rfl; simp [isDigit, byteSP] at h

/-- The spelling of a value that fits 16 bits. -/
theorem dec_spec {n : Nat} (h : n ≤ 65535) :
    dec n ≠ [] ∧ (dec n).length ≤ 5 ∧ (dec n).all isDigit = true ∧ digitsValue (dec n) = n
      ∧ ((dec n).head? = some 0x30#8 → n = 0 ∧ dec n = [0x30#8]) := by
  obtain ⟨ds, he, h1, h2, h3, h4, h5⟩ := decFrom_spec 5 n [] (by omega) (by decide)
  have : dec n = ds := by simp [dec, he]
  rw [this]; exact ⟨h1, h2, h3, h4, h5⟩

/-- The spelling of a value that fits 8 bits has at most three digits. -/
theorem dec_length_byte {n : Nat} (h : n ≤ 255) : (dec n).length ≤ 3 := by
  have h1 : n / 10 / 10 < 10 := by omega
  simp only [dec, decFrom, h1, if_true]
  split
  · simp
  · split <;> simp

theorem dec_no_space {n : Nat} (h : n ≤ 65535) : byteSP ∉ dec n := by
  intro hm
  have hall := (dec_spec h).2.2.1
  exact isDigit_ne_space (List.all_eq_true.1 hall _ hm) rfl

theorem parseInt_dec {n : Nat} (h : n ≤ 65535) : parseInt (dec n) = some n := by
  obtain ⟨h1, _, h3, h4, _⟩ := dec_spec h
  simp [parseInt, h1, h3, h4]

theorem parseWord_dec (v : Word) : parseWord (dec v.toNat) = some v := by
  have h : v.toNat ≤ 65535 := by have := v.isLt; omega
  simp [parseWord, parseInt_dec h, h]

theorem parseByte_dec (v : Byte) : parseByte (dec v.toNat) = some v := by
  have h : v.toNat ≤ 255 := by have := v.isLt; omega
  simp [parseByte, brightMax, parseInt_dec (show v.toNat ≤ 65535 by omega), h]

/-- When a token is an `int` of 16 bits. -/
theorem parseWord_some {t : List Byte} {v : Word} : parseWord t = some v ↔ parseInt t = some v.toNat := by
  have hv := v.isLt
  unfold parseWord
  cases parseInt t with
  | none => simp
  | some n =>
    simp only [Option.some.injEq]
    split
    · rw [Option.some.injEq, ← BitVec.toNat_inj, BitVec.toNat_ofNat]; omega
    · simp only [reduceCtorEq, false_iff]; omega

/-- When a token is an `int` of 8 bits. -/
theorem parseByte_some {t : List Byte} {v : Byte} : parseByte t = some v ↔ parseInt t = some v.toNat := by
  have hv := v.isLt
  unfold parseByte brightMax
  cases parseInt t with
  | none => simp
  | some n =>
    simp only [Option.some.injEq]
    split
    · rw [Option.some.injEq, ← BitVec.toNat_inj, BitVec.toNat_ofNat]; omega
    · simp only [reduceCtorEq, false_iff]; omega

/-- What `parseBytes` answers. -/
theorem parseBytes_some {ts : List (List Byte)} {vs : List Byte} :
    parseBytes ts = some vs ↔ ts.map parseByte = vs.map some := by
  induction ts generalizing vs with
  | nil => cases vs <;> simp [parseBytes]
  | cons t ts ih =>
    simp only [parseBytes, List.map_cons]
    cases vs with
    | nil => split <;> simp
    | cons v vs =>
      have := @ih vs
      cases parseByte t <;> cases h : parseBytes ts <;> simp_all

/-! ### Records -/

theorem tokens_spelledFields (vs : List Byte) :
    tokens (spelledFields vs) = vs.map (fun v => dec v.toNat) := by
  induction vs with
  | nil => rfl
  | cons v vs ih =>
    have hv : v.toNat ≤ 65535 := by have := v.isLt; omega
    have hne := (dec_spec hv).1
    have hsp := dec_no_space hv
    cases vs with
    | nil => simpa [spelledFields] using tokens_space_last hne hsp
    | cons w ws =>
      have e : spelledFields (v :: w :: ws)
          = byteSP :: dec v.toNat ++ byteSP :: (dec w.toNat ++ spelledFields ws) := by
        simp [spelledFields]
      have e' : spelledFields (w :: ws) = byteSP :: (dec w.toNat ++ spelledFields ws) := by
        simp [spelledFields]
      rw [e, tokens_space_token hne hsp, List.map_cons, ← ih, e']
      rfl

theorem parseBytes_dec (vs : List Byte) : parseBytes (vs.map (fun v => dec v.toNat)) = some vs := by
  induction vs with
  | nil => rfl
  | cons v vs ih => simp [parseBytes, parseByte_dec, ih]

theorem durOk_iff {d : Byte} : durOk d = true ↔ d ≠ 0#8 := by
  have := d.isLt
  have e : d = 0#8 ↔ d.toNat = 0 := by rw [← BitVec.toNat_inj]; rfl
  simp only [durOk, Bool.and_eq_true, decide_eq_true_eq, ne_eq, e]
  unfold durMin durMax
  omega

/-- What `stepOfFields` answers. -/
theorem stepOfFields_some {vs : List Byte} {st : DimStep} :
    stepOfFields vs = some st ↔ vs = st.fields ∧ st.dur ≠ 0#8 := by
  constructor
  · intro h
    simp only [stepOfFields] at h
    split at h
    · rename_i hl
      obtain ⟨hl, hd⟩ := hl
      rw [durOk_iff] at hd
      cases h
      refine ⟨?_, hd⟩
      match vs, hl with
      | [_, _, _, _, _, _, _, _, _, _, _, _, _, _, _, _, _], _ => rfl
    · cases h
  · rintro ⟨rfl, h⟩
    obtain ⟨d, ⟨_, _, _, _, _, _, _, _⟩, ⟨_, _, _, _, _, _, _, _⟩⟩ := st
    simp [DimStep.fields, stepOfFields, sFields, durOk_iff.2 h, Lanes.ofFn, nCh]

theorem stepOfFields_fields {st : DimStep} (h : st.dur ≠ 0#8) : stepOfFields st.fields = some st :=
  stepOfFields_some.2 ⟨rfl, h⟩

theorem decodeC_payload (v : Word) : decodeC (byteSP :: dec v.toNat) = some v := by
  have hv : v.toNat ≤ 65535 := by have := v.isLt; omega
  simp [decodeC, tokens_space_last (dec_spec hv).1 (dec_no_space hv), parseWord_dec]

theorem decodeQ_payload (a n : Word) :
    decodeQ (byteSP :: dec a.toNat ++ byteSP :: dec n.toNat) = some (a, n) := by
  have ha : a.toNat ≤ 65535 := by have := a.isLt; omega
  have hn : n.toNat ≤ 65535 := by have := n.isLt; omega
  have e : tokens (byteSP :: dec a.toNat ++ byteSP :: dec n.toNat) = [dec a.toNat, dec n.toNat] := by
    rw [tokens_space_token (dec_spec ha).1 (dec_no_space ha)]
    have : tokens (dec n.toNat) = [dec n.toNat] := by
      simp [tokens, tokensFrom_no_space (dec_no_space hn), (dec_spec hn).1]
    rw [this]
  simp only [decodeQ, e, parseWord_dec]

theorem decodeS_payload {st : DimStep} (h : st.dur ≠ 0#8) : decodeS (spelledFields st.fields) = some st := by
  simp only [decodeS, tokens_spelledFields, parseBytes_dec, stepOfFields_fields h]

/-- A record is read back from its canonical payload. -/
theorem decodeLine_payload {rec : Record} (h : ∀ st, rec = .s (some st) → st.dur ≠ 0#8) :
    decodeLine rec.payload = .ok rec := by
  cases rec with
  | r => rfl
  | z => rfl
  | c v =>
    cases v with
    | none => rfl
    | some v =>
      have : decodeLine (byteC :: byteSP :: dec v.toNat) = .ok (.c (decodeC (byteSP :: dec v.toNat))) := rfl
      simp only [Record.payload, this, decodeC_payload]
  | q hd =>
    cases hd with
    | none => rfl
    | some p =>
      obtain ⟨a, n⟩ := p
      have : decodeLine (byteQ :: (byteSP :: dec a.toNat ++ byteSP :: dec n.toNat))
          = .ok (.q (decodeQ (byteSP :: dec a.toNat ++ byteSP :: dec n.toNat))) := rfl
      simp only [decodeQ_payload] at this
      exact this
  | s st =>
    cases st with
    | none => rfl
    | some st =>
      have : decodeLine (byteS :: spelledFields st.fields) = .ok (.s (decodeS (spelledFields st.fields))) := rfl
      simp only [Record.payload, this, decodeS_payload (h st rfl)]

/-- Every byte of a canonical payload is a record letter, `SP` or a digit. -/
def isRecordByte (b : Byte) : Bool :=
  b == byteR || b == byteZ || b == byteC || b == byteQ || b == byteS || b == byteSP || isDigit b

theorem dec_recordBytes (n : Nat) (h : n ≤ 65535) : (dec n).all isRecordByte = true := by
  rw [List.all_eq_true]
  intro b hb
  have := List.all_eq_true.1 (dec_spec h).2.2.1 b hb
  simp [isRecordByte, this]

theorem spelledFields_recordBytes (vs : List Byte) : (spelledFields vs).all isRecordByte = true := by
  rw [List.all_eq_true]
  intro b hb
  simp only [spelledFields, List.mem_flatMap, List.mem_cons] at hb
  obtain ⟨v, _, rfl | hb⟩ := hb
  · decide
  · exact List.all_eq_true.1 (dec_recordBytes v.toNat (by have := v.isLt; omega)) b hb

theorem payload_recordBytes (rec : Record) : rec.payload.all isRecordByte = true := by
  have hw : ∀ v : Word, (dec v.toNat).all isRecordByte = true :=
    fun v => dec_recordBytes _ (by have := v.isLt; omega)
  have hl : isRecordByte byteC = true ∧ isRecordByte byteQ = true ∧ isRecordByte byteS = true
      ∧ isRecordByte byteSP = true := by decide
  cases rec with
  | r => decide
  | z => decide
  | c v => cases v <;> simp [Record.payload, hl, -List.all_eq_true, hw]
  | q hd =>
    cases hd with
    | none => decide
    | some p => obtain ⟨a, n⟩ := p; simp [Record.payload, hl, -List.all_eq_true, hw, List.all_append]
  | s st => cases st <;> simp [Record.payload, hl, -List.all_eq_true, spelledFields_recordBytes]

/-- A plain terminator is no record byte. -/
theorem termPlain_not_recordByte {cfg : Config} (h : cfg.termPlain = true) : isRecordByte cfg.term = false := by
  have key : ∀ b : Byte, ([0x52#8, 0x5A#8, 0x43#8, 0x51#8, 0x53#8, 0x20#8, 0x30#8, 0x31#8, 0x32#8, 0x33#8,
      0x34#8, 0x35#8, 0x36#8, 0x37#8, 0x38#8, 0x39#8].contains b) = false → isRecordByte b = false := by
    decide
  exact key _ (by simpa [Config.termPlain] using h)

theorem term_notin_payload {cfg : Config} (h : cfg.termPlain = true) (rec : Record) :
    cfg.term ∉ rec.payload := by
  intro hm
  have := List.all_eq_true.1 (payload_recordBytes rec) _ hm
  rw [termPlain_not_recordByte h] at this
  cases this

theorem spelledFields_length_le (vs : List Byte) : (spelledFields vs).length ≤ 4 * vs.length := by
  induction vs with
  | nil => simp [spelledFields]
  | cons v vs ih =>
    have hv := dec_length_byte (n := v.toNat) (by have := v.isLt; omega)
    simp only [spelledFields, List.flatMap_cons, List.length_append, List.length_cons] at ih ⊢
    omega

/-- No canonical payload is longer than that of an `S` record (R231). -/
theorem payload_length_le (rec : Record) : rec.payload.length ≤ 69 := by
  have hw : ∀ v : Word, (dec v.toNat).length ≤ 5 := fun v => (dec_spec (by have := v.isLt; omega)).2.1
  cases rec with
  | r => decide
  | z => decide
  | c v =>
    cases v with
    | none => decide
    | some v => have := hw v; simp only [Record.payload, List.length_cons]; omega
  | q hd =>
    cases hd with
    | none => decide
    | some p =>
      obtain ⟨a, n⟩ := p
      have := hw a; have := hw n
      simp only [Record.payload, List.cons_append, List.length_cons, List.length_append]; omega
  | s st =>
    cases st with
    | none => decide
    | some st =>
      have := spelledFields_length_le st.fields
      have hl : st.fields.length = 17 := rfl
      simp only [Record.payload, List.length_cons]; omega

/-! ### Parameters -/

/-- The constraints of R6 that the statements use, one by one. -/
theorem Config.wf_bounds {c : Config} (h : c.wf = true) :
    1 ≤ c.sliceBudget ∧ c.sliceBudget ≤ 65534 ∧ 240 ≤ c.dimBuiltinLimit ∧ 1 ≤ c.dimCap
      ∧ 69 ≤ c.lineMax ∧ 1 ≤ c.evqDepth ∧ c.evqDepth ≤ 2
      ∧ (∀ e ∈ c.chaseRom, e.2.length ≤ 65535)
      ∧ (∀ e ∈ c.dimRom, e.2.length ≤ 65535 ∧ ∀ st ∈ e.2, st.dur ≠ 0#8) := by
  simp only [Config.wf, Bool.and_eq_true, decide_eq_true_eq, List.all_eq_true, Bool.or_eq_true,
    beq_iff_eq, bne_iff_ne] at h
  obtain ⟨⟨⟨⟨⟨⟨⟨⟨⟨h1, h2⟩, _⟩, _⟩, h4, _⟩, h5⟩, h6⟩, h7⟩, h8⟩, h9⟩ := h
  refine ⟨h1, h2, h4, h5, h8, by omega, by omega, h6, ?_⟩
  intro e he
  exact ⟨(h7 e he).1, fun st hst => durOk_iff.1 ((h7 e he).2 st hst)⟩

end Sys2Proof
end

