-- ==== Sys2Proof/Laws/State.lean ====
section
/-! SUPPORT. One lemma per field per named update of the registers and of the state, true by rfl, so that no
later proof unfolds a record update. -/

namespace Sys2Proof.Machine

section
variable (r : Regs)

/-! `Regs.acceptEdge` -/

@[simp] theorem Regs.acceptEdge_phase : r.acceptEdge.phase = r.phase := rfl
@[simp] theorem Regs.acceptEdge_sel : r.acceptEdge.sel = r.sel := rfl
@[simp] theorem Regs.acceptEdge_mode : r.acceptEdge.mode = r.mode := rfl
@[simp] theorem Regs.acceptEdge_role : r.acceptEdge.role = r.role := rfl
@[simp] theorem Regs.acceptEdge_localData : r.acceptEdge.localData = r.localData := rfl
@[simp] theorem Regs.acceptEdge_err : r.acceptEdge.err = r.err := rfl
@[simp] theorem Regs.acceptEdge_currentStep : r.acceptEdge.currentStep = r.currentStep := rfl
@[simp] theorem Regs.acceptEdge_tickCount : r.acceptEdge.tickCount = r.tickCount := rfl
@[simp] theorem Regs.acceptEdge_speedParam : r.acceptEdge.speedParam = r.speedParam := rfl
@[simp] theorem Regs.acceptEdge_speedDirty : r.acceptEdge.speedDirty = r.speedDirty := rfl
@[simp] theorem Regs.acceptEdge_delay : r.acceptEdge.delay = r.delay := rfl
@[simp] theorem Regs.acceptEdge_snap : r.acceptEdge.snap = r.snap := rfl
@[simp] theorem Regs.acceptEdge_out : r.acceptEdge.out = r.out := rfl
@[simp] theorem Regs.acceptEdge_sliceCount : r.acceptEdge.sliceCount = r.sliceCount := rfl
@[simp] theorem Regs.acceptEdge_zcArmed : r.acceptEdge.zcArmed = false := rfl
@[simp] theorem Regs.acceptEdge_sliceAttached : r.acceptEdge.sliceAttached = r.sliceAttached := rfl
@[simp] theorem Regs.acceptEdge_evq : r.acceptEdge.evq = r.evq := rfl
@[simp] theorem Regs.acceptEdge_syncOverrun : r.acceptEdge.syncOverrun = r.syncOverrun := rfl
@[simp] theorem Regs.acceptEdge_rxBuf : r.acceptEdge.rxBuf = r.rxBuf := rfl
@[simp] theorem Regs.acceptEdge_rxOvf : r.acceptEdge.rxOvf = r.rxOvf := rfl
@[simp] theorem Regs.acceptEdge_ldMatch : r.acceptEdge.ldMatch = r.ldMatch := rfl
@[simp] theorem Regs.acceptEdge_ldExpect : r.acceptEdge.ldExpect = r.ldExpect := rfl
@[simp] theorem Regs.acceptEdge_ldFill : r.acceptEdge.ldFill = r.ldFill := rfl
@[simp] theorem Regs.acceptEdge_stage : r.acceptEdge.stage = r.stage := rfl
@[simp] theorem Regs.acceptEdge_chaseValid : r.acceptEdge.chaseValid = r.chaseValid := rfl
@[simp] theorem Regs.acceptEdge_chaseLen : r.acceptEdge.chaseLen = r.chaseLen := rfl
@[simp] theorem Regs.acceptEdge_chaseTab : r.acceptEdge.chaseTab = r.chaseTab := rfl
@[simp] theorem Regs.acceptEdge_dimValid : r.acceptEdge.dimValid = r.dimValid := rfl
@[simp] theorem Regs.acceptEdge_dimLen : r.acceptEdge.dimLen = r.dimLen := rfl
@[simp] theorem Regs.acceptEdge_dimTab : r.acceptEdge.dimTab = r.dimTab := rfl

/-! `Regs.beginHoldOff` -/

@[simp] theorem Regs.beginHoldOff_phase : r.beginHoldOff.phase = r.phase := rfl
@[simp] theorem Regs.beginHoldOff_sel : r.beginHoldOff.sel = r.sel := rfl
@[simp] theorem Regs.beginHoldOff_mode : r.beginHoldOff.mode = r.mode := rfl
@[simp] theorem Regs.beginHoldOff_role : r.beginHoldOff.role = r.role := rfl
@[simp] theorem Regs.beginHoldOff_localData : r.beginHoldOff.localData = r.localData := rfl
@[simp] theorem Regs.beginHoldOff_err : r.beginHoldOff.err = r.err := rfl
@[simp] theorem Regs.beginHoldOff_currentStep : r.beginHoldOff.currentStep = r.currentStep := rfl
@[simp] theorem Regs.beginHoldOff_tickCount : r.beginHoldOff.tickCount = r.tickCount := rfl
@[simp] theorem Regs.beginHoldOff_speedParam : r.beginHoldOff.speedParam = r.speedParam := rfl
@[simp] theorem Regs.beginHoldOff_speedDirty : r.beginHoldOff.speedDirty = r.speedDirty := rfl
@[simp] theorem Regs.beginHoldOff_delay : r.beginHoldOff.delay = r.delay := rfl
@[simp] theorem Regs.beginHoldOff_snap : r.beginHoldOff.snap = r.snap := rfl
@[simp] theorem Regs.beginHoldOff_out : r.beginHoldOff.out = r.out := rfl
@[simp] theorem Regs.beginHoldOff_sliceCount : r.beginHoldOff.sliceCount = 0#16 := rfl
@[simp] theorem Regs.beginHoldOff_zcArmed : r.beginHoldOff.zcArmed = r.zcArmed := rfl
@[simp] theorem Regs.beginHoldOff_sliceAttached : r.beginHoldOff.sliceAttached = true := rfl
@[simp] theorem Regs.beginHoldOff_evq : r.beginHoldOff.evq = r.evq := rfl
@[simp] theorem Regs.beginHoldOff_syncOverrun : r.beginHoldOff.syncOverrun = r.syncOverrun := rfl
@[simp] theorem Regs.beginHoldOff_rxBuf : r.beginHoldOff.rxBuf = r.rxBuf := rfl
@[simp] theorem Regs.beginHoldOff_rxOvf : r.beginHoldOff.rxOvf = r.rxOvf := rfl
@[simp] theorem Regs.beginHoldOff_ldMatch : r.beginHoldOff.ldMatch = r.ldMatch := rfl
@[simp] theorem Regs.beginHoldOff_ldExpect : r.beginHoldOff.ldExpect = r.ldExpect := rfl
@[simp] theorem Regs.beginHoldOff_ldFill : r.beginHoldOff.ldFill = r.ldFill := rfl
@[simp] theorem Regs.beginHoldOff_stage : r.beginHoldOff.stage = r.stage := rfl
@[simp] theorem Regs.beginHoldOff_chaseValid : r.beginHoldOff.chaseValid = r.chaseValid := rfl
@[simp] theorem Regs.beginHoldOff_chaseLen : r.beginHoldOff.chaseLen = r.chaseLen := rfl
@[simp] theorem Regs.beginHoldOff_chaseTab : r.beginHoldOff.chaseTab = r.chaseTab := rfl
@[simp] theorem Regs.beginHoldOff_dimValid : r.beginHoldOff.dimValid = r.dimValid := rfl
@[simp] theorem Regs.beginHoldOff_dimLen : r.beginHoldOff.dimLen = r.dimLen := rfl
@[simp] theorem Regs.beginHoldOff_dimTab : r.beginHoldOff.dimTab = r.dimTab := rfl

/-! `Regs.rearm` -/

@[simp] theorem Regs.rearm_phase : r.rearm.phase = r.phase := rfl
@[simp] theorem Regs.rearm_sel : r.rearm.sel = r.sel := rfl
@[simp] theorem Regs.rearm_mode : r.rearm.mode = r.mode := rfl
@[simp] theorem Regs.rearm_role : r.rearm.role = r.role := rfl
@[simp] theorem Regs.rearm_localData : r.rearm.localData = r.localData := rfl
@[simp] theorem Regs.rearm_err : r.rearm.err = r.err := rfl
@[simp] theorem Regs.rearm_currentStep : r.rearm.currentStep = r.currentStep := rfl
@[simp] theorem Regs.rearm_tickCount : r.rearm.tickCount = r.tickCount := rfl
@[simp] theorem Regs.rearm_speedParam : r.rearm.speedParam = r.speedParam := rfl
@[simp] theorem Regs.rearm_speedDirty : r.rearm.speedDirty = r.speedDirty := rfl
@[simp] theorem Regs.rearm_delay : r.rearm.delay = r.delay := rfl
@[simp] theorem Regs.rearm_snap : r.rearm.snap = r.snap := rfl
@[simp] theorem Regs.rearm_out : r.rearm.out = r.out := rfl
@[simp] theorem Regs.rearm_sliceCount : r.rearm.sliceCount = 0#16 := rfl
@[simp] theorem Regs.rearm_zcArmed : r.rearm.zcArmed = true := rfl
@[simp] theorem Regs.rearm_sliceAttached : r.rearm.sliceAttached = false := rfl
@[simp] theorem Regs.rearm_evq : r.rearm.evq = r.evq := rfl
@[simp] theorem Regs.rearm_syncOverrun : r.rearm.syncOverrun = r.syncOverrun := rfl
@[simp] theorem Regs.rearm_rxBuf : r.rearm.rxBuf = r.rxBuf := rfl
@[simp] theorem Regs.rearm_rxOvf : r.rearm.rxOvf = r.rxOvf := rfl
@[simp] theorem Regs.rearm_ldMatch : r.rearm.ldMatch = r.ldMatch := rfl
@[simp] theorem Regs.rearm_ldExpect : r.rearm.ldExpect = r.ldExpect := rfl
@[simp] theorem Regs.rearm_ldFill : r.rearm.ldFill = r.ldFill := rfl
@[simp] theorem Regs.rearm_stage : r.rearm.stage = r.stage := rfl
@[simp] theorem Regs.rearm_chaseValid : r.rearm.chaseValid = r.chaseValid := rfl
@[simp] theorem Regs.rearm_chaseLen : r.rearm.chaseLen = r.chaseLen := rfl
@[simp] theorem Regs.rearm_chaseTab : r.rearm.chaseTab = r.chaseTab := rfl
@[simp] theorem Regs.rearm_dimValid : r.rearm.dimValid = r.dimValid := rfl
@[simp] theorem Regs.rearm_dimLen : r.rearm.dimLen = r.dimLen := rfl
@[simp] theorem Regs.rearm_dimTab : r.rearm.dimTab = r.dimTab := rfl

/-! `Regs.clearDirty` -/

@[simp] theorem Regs.clearDirty_phase : r.clearDirty.phase = r.phase := rfl
@[simp] theorem Regs.clearDirty_sel : r.clearDirty.sel = r.sel := rfl
@[simp] theorem Regs.clearDirty_mode : r.clearDirty.mode = r.mode := rfl
@[simp] theorem Regs.clearDirty_role : r.clearDirty.role = r.role := rfl
@[simp] theorem Regs.clearDirty_localData : r.clearDirty.localData = r.localData := rfl
@[simp] theorem Regs.clearDirty_err : r.clearDirty.err = r.err := rfl
@[simp] theorem Regs.clearDirty_currentStep : r.clearDirty.currentStep = r.currentStep := rfl
@[simp] theorem Regs.clearDirty_tickCount : r.clearDirty.tickCount = r.tickCount := rfl
@[simp] theorem Regs.clearDirty_speedParam : r.clearDirty.speedParam = r.speedParam := rfl
@[simp] theorem Regs.clearDirty_speedDirty : r.clearDirty.speedDirty = false := rfl
@[simp] theorem Regs.clearDirty_delay : r.clearDirty.delay = r.delay := rfl
@[simp] theorem Regs.clearDirty_snap : r.clearDirty.snap = r.snap := rfl
@[simp] theorem Regs.clearDirty_out : r.clearDirty.out = r.out := rfl
@[simp] theorem Regs.clearDirty_sliceCount : r.clearDirty.sliceCount = r.sliceCount := rfl
@[simp] theorem Regs.clearDirty_zcArmed : r.clearDirty.zcArmed = r.zcArmed := rfl
@[simp] theorem Regs.clearDirty_sliceAttached : r.clearDirty.sliceAttached = r.sliceAttached := rfl
@[simp] theorem Regs.clearDirty_evq : r.clearDirty.evq = r.evq := rfl
@[simp] theorem Regs.clearDirty_syncOverrun : r.clearDirty.syncOverrun = r.syncOverrun := rfl
@[simp] theorem Regs.clearDirty_rxBuf : r.clearDirty.rxBuf = r.rxBuf := rfl
@[simp] theorem Regs.clearDirty_rxOvf : r.clearDirty.rxOvf = r.rxOvf := rfl
@[simp] theorem Regs.clearDirty_ldMatch : r.clearDirty.ldMatch = r.ldMatch := rfl
@[simp] theorem Regs.clearDirty_ldExpect : r.clearDirty.ldExpect = r.ldExpect := rfl
@[simp] theorem Regs.clearDirty_ldFill : r.clearDirty.ldFill = r.ldFill := rfl
@[simp] theorem Regs.clearDirty_stage : r.clearDirty.stage = r.stage := rfl
@[simp] theorem Regs.clearDirty_chaseValid : r.clearDirty.chaseValid = r.chaseValid := rfl
@[simp] theorem Regs.clearDirty_chaseLen : r.clearDirty.chaseLen = r.chaseLen := rfl
@[simp] theorem Regs.clearDirty_chaseTab : r.clearDirty.chaseTab = r.chaseTab := rfl
@[simp] theorem Regs.clearDirty_dimValid : r.clearDirty.dimValid = r.dimValid := rfl
@[simp] theorem Regs.clearDirty_dimLen : r.clearDirty.dimLen = r.dimLen := rfl
@[simp] theorem Regs.clearDirty_dimTab : r.clearDirty.dimTab = r.dimTab := rfl

/-! `Regs.noteOverrun` -/

@[simp] theorem Regs.noteOverrun_phase : r.noteOverrun.phase = r.phase := rfl
@[simp] theorem Regs.noteOverrun_sel : r.noteOverrun.sel = r.sel := rfl
@[simp] theorem Regs.noteOverrun_mode : r.noteOverrun.mode = r.mode := rfl
@[simp] theorem Regs.noteOverrun_role : r.noteOverrun.role = r.role := rfl
@[simp] theorem Regs.noteOverrun_localData : r.noteOverrun.localData = r.localData := rfl
@[simp] theorem Regs.noteOverrun_err : r.noteOverrun.err = r.err := rfl
@[simp] theorem Regs.noteOverrun_currentStep : r.noteOverrun.currentStep = r.currentStep := rfl
@[simp] theorem Regs.noteOverrun_tickCount : r.noteOverrun.tickCount = r.tickCount := rfl
@[simp] theorem Regs.noteOverrun_speedParam : r.noteOverrun.speedParam = r.speedParam := rfl
@[simp] theorem Regs.noteOverrun_speedDirty : r.noteOverrun.speedDirty = r.speedDirty := rfl
@[simp] theorem Regs.noteOverrun_delay : r.noteOverrun.delay = r.delay := rfl
@[simp] theorem Regs.noteOverrun_snap : r.noteOverrun.snap = r.snap := rfl
@[simp] theorem Regs.noteOverrun_out : r.noteOverrun.out = r.out := rfl
@[simp] theorem Regs.noteOverrun_sliceCount : r.noteOverrun.sliceCount = r.sliceCount := rfl
@[simp] theorem Regs.noteOverrun_zcArmed : r.noteOverrun.zcArmed = r.zcArmed := rfl
@[simp] theorem Regs.noteOverrun_sliceAttached : r.noteOverrun.sliceAttached = r.sliceAttached := rfl
@[simp] theorem Regs.noteOverrun_evq : r.noteOverrun.evq = r.evq := rfl
@[simp] theorem Regs.noteOverrun_syncOverrun : r.noteOverrun.syncOverrun = true := rfl
@[simp] theorem Regs.noteOverrun_rxBuf : r.noteOverrun.rxBuf = r.rxBuf := rfl
@[simp] theorem Regs.noteOverrun_rxOvf : r.noteOverrun.rxOvf = r.rxOvf := rfl
@[simp] theorem Regs.noteOverrun_ldMatch : r.noteOverrun.ldMatch = r.ldMatch := rfl
@[simp] theorem Regs.noteOverrun_ldExpect : r.noteOverrun.ldExpect = r.ldExpect := rfl
@[simp] theorem Regs.noteOverrun_ldFill : r.noteOverrun.ldFill = r.ldFill := rfl
@[simp] theorem Regs.noteOverrun_stage : r.noteOverrun.stage = r.stage := rfl
@[simp] theorem Regs.noteOverrun_chaseValid : r.noteOverrun.chaseValid = r.chaseValid := rfl
@[simp] theorem Regs.noteOverrun_chaseLen : r.noteOverrun.chaseLen = r.chaseLen := rfl
@[simp] theorem Regs.noteOverrun_chaseTab : r.noteOverrun.chaseTab = r.chaseTab := rfl
@[simp] theorem Regs.noteOverrun_dimValid : r.noteOverrun.dimValid = r.dimValid := rfl
@[simp] theorem Regs.noteOverrun_dimLen : r.noteOverrun.dimLen = r.dimLen := rfl
@[simp] theorem Regs.noteOverrun_dimTab : r.noteOverrun.dimTab = r.dimTab := rfl

/-! `Regs.noteOverlong` -/

@[simp] theorem Regs.noteOverlong_phase : r.noteOverlong.phase = r.phase := rfl
@[simp] theorem Regs.noteOverlong_sel : r.noteOverlong.sel = r.sel := rfl
@[simp] theorem Regs.noteOverlong_mode : r.noteOverlong.mode = r.mode := rfl
@[simp] theorem Regs.noteOverlong_role : r.noteOverlong.role = r.role := rfl
@[simp] theorem Regs.noteOverlong_localData : r.noteOverlong.localData = r.localData := rfl
@[simp] theorem Regs.noteOverlong_err : r.noteOverlong.err = r.err := rfl
@[simp] theorem Regs.noteOverlong_currentStep : r.noteOverlong.currentStep = r.currentStep := rfl
@[simp] theorem Regs.noteOverlong_tickCount : r.noteOverlong.tickCount = r.tickCount := rfl
@[simp] theorem Regs.noteOverlong_speedParam : r.noteOverlong.speedParam = r.speedParam := rfl
@[simp] theorem Regs.noteOverlong_speedDirty : r.noteOverlong.speedDirty = r.speedDirty := rfl
@[simp] theorem Regs.noteOverlong_delay : r.noteOverlong.delay = r.delay := rfl
@[simp] theorem Regs.noteOverlong_snap : r.noteOverlong.snap = r.snap := rfl
@[simp] theorem Regs.noteOverlong_out : r.noteOverlong.out = r.out := rfl
@[simp] theorem Regs.noteOverlong_sliceCount : r.noteOverlong.sliceCount = r.sliceCount := rfl
@[simp] theorem Regs.noteOverlong_zcArmed : r.noteOverlong.zcArmed = r.zcArmed := rfl
@[simp] theorem Regs.noteOverlong_sliceAttached : r.noteOverlong.sliceAttached = r.sliceAttached := rfl
@[simp] theorem Regs.noteOverlong_evq : r.noteOverlong.evq = r.evq := rfl
@[simp] theorem Regs.noteOverlong_syncOverrun : r.noteOverlong.syncOverrun = r.syncOverrun := rfl
@[simp] theorem Regs.noteOverlong_rxBuf : r.noteOverlong.rxBuf = r.rxBuf := rfl
@[simp] theorem Regs.noteOverlong_rxOvf : r.noteOverlong.rxOvf = true := rfl
@[simp] theorem Regs.noteOverlong_ldMatch : r.noteOverlong.ldMatch = r.ldMatch := rfl
@[simp] theorem Regs.noteOverlong_ldExpect : r.noteOverlong.ldExpect = r.ldExpect := rfl
@[simp] theorem Regs.noteOverlong_ldFill : r.noteOverlong.ldFill = r.ldFill := rfl
@[simp] theorem Regs.noteOverlong_stage : r.noteOverlong.stage = r.stage := rfl
@[simp] theorem Regs.noteOverlong_chaseValid : r.noteOverlong.chaseValid = r.chaseValid := rfl
@[simp] theorem Regs.noteOverlong_chaseLen : r.noteOverlong.chaseLen = r.chaseLen := rfl
@[simp] theorem Regs.noteOverlong_chaseTab : r.noteOverlong.chaseTab = r.chaseTab := rfl
@[simp] theorem Regs.noteOverlong_dimValid : r.noteOverlong.dimValid = r.dimValid := rfl
@[simp] theorem Regs.noteOverlong_dimLen : r.noteOverlong.dimLen = r.dimLen := rfl
@[simp] theorem Regs.noteOverlong_dimTab : r.noteOverlong.dimTab = r.dimTab := rfl

/-! `Regs.clearRx` -/

@[simp] theorem Regs.clearRx_phase : r.clearRx.phase = r.phase := rfl
@[simp] theorem Regs.clearRx_sel : r.clearRx.sel = r.sel := rfl
@[simp] theorem Regs.clearRx_mode : r.clearRx.mode = r.mode := rfl
@[simp] theorem Regs.clearRx_role : r.clearRx.role = r.role := rfl
@[simp] theorem Regs.clearRx_localData : r.clearRx.localData = r.localData := rfl
@[simp] theorem Regs.clearRx_err : r.clearRx.err = r.err := rfl
@[simp] theorem Regs.clearRx_currentStep : r.clearRx.currentStep = r.currentStep := rfl
@[simp] theorem Regs.clearRx_tickCount : r.clearRx.tickCount = r.tickCount := rfl
@[simp] theorem Regs.clearRx_speedParam : r.clearRx.speedParam = r.speedParam := rfl
@[simp] theorem Regs.clearRx_speedDirty : r.clearRx.speedDirty = r.speedDirty := rfl
@[simp] theorem Regs.clearRx_delay : r.clearRx.delay = r.delay := rfl
@[simp] theorem Regs.clearRx_snap : r.clearRx.snap = r.snap := rfl
@[simp] theorem Regs.clearRx_out : r.clearRx.out = r.out := rfl
@[simp] theorem Regs.clearRx_sliceCount : r.clearRx.sliceCount = r.sliceCount := rfl
@[simp] theorem Regs.clearRx_zcArmed : r.clearRx.zcArmed = r.zcArmed := rfl
@[simp] theorem Regs.clearRx_sliceAttached : r.clearRx.sliceAttached = r.sliceAttached := rfl
@[simp] theorem Regs.clearRx_evq : r.clearRx.evq = r.evq := rfl
@[simp] theorem Regs.clearRx_syncOverrun : r.clearRx.syncOverrun = r.syncOverrun := rfl
@[simp] theorem Regs.clearRx_rxBuf : r.clearRx.rxBuf = [] := rfl
@[simp] theorem Regs.clearRx_rxOvf : r.clearRx.rxOvf = false := rfl
@[simp] theorem Regs.clearRx_ldMatch : r.clearRx.ldMatch = r.ldMatch := rfl
@[simp] theorem Regs.clearRx_ldExpect : r.clearRx.ldExpect = r.ldExpect := rfl
@[simp] theorem Regs.clearRx_ldFill : r.clearRx.ldFill = r.ldFill := rfl
@[simp] theorem Regs.clearRx_stage : r.clearRx.stage = r.stage := rfl
@[simp] theorem Regs.clearRx_chaseValid : r.clearRx.chaseValid = r.chaseValid := rfl
@[simp] theorem Regs.clearRx_chaseLen : r.clearRx.chaseLen = r.chaseLen := rfl
@[simp] theorem Regs.clearRx_chaseTab : r.clearRx.chaseTab = r.chaseTab := rfl
@[simp] theorem Regs.clearRx_dimValid : r.clearRx.dimValid = r.dimValid := rfl
@[simp] theorem Regs.clearRx_dimLen : r.clearRx.dimLen = r.dimLen := rfl
@[simp] theorem Regs.clearRx_dimTab : r.clearRx.dimTab = r.dimTab := rfl

/-! `Regs.closeBlock` -/

@[simp] theorem Regs.closeBlock_phase : r.closeBlock.phase = r.phase := rfl
@[simp] theorem Regs.closeBlock_sel : r.closeBlock.sel = r.sel := rfl
@[simp] theorem Regs.closeBlock_mode : r.closeBlock.mode = r.mode := rfl
@[simp] theorem Regs.closeBlock_role : r.closeBlock.role = r.role := rfl
@[simp] theorem Regs.closeBlock_localData : r.closeBlock.localData = r.localData := rfl
@[simp] theorem Regs.closeBlock_err : r.closeBlock.err = r.err := rfl
@[simp] theorem Regs.closeBlock_currentStep : r.closeBlock.currentStep = r.currentStep := rfl
@[simp] theorem Regs.closeBlock_tickCount : r.closeBlock.tickCount = r.tickCount := rfl
@[simp] theorem Regs.closeBlock_speedParam : r.closeBlock.speedParam = r.speedParam := rfl
@[simp] theorem Regs.closeBlock_speedDirty : r.closeBlock.speedDirty = r.speedDirty := rfl
@[simp] theorem Regs.closeBlock_delay : r.closeBlock.delay = r.delay := rfl
@[simp] theorem Regs.closeBlock_snap : r.closeBlock.snap = r.snap := rfl
@[simp] theorem Regs.closeBlock_out : r.closeBlock.out = r.out := rfl
@[simp] theorem Regs.closeBlock_sliceCount : r.closeBlock.sliceCount = r.sliceCount := rfl
@[simp] theorem Regs.closeBlock_zcArmed : r.closeBlock.zcArmed = r.zcArmed := rfl
@[simp] theorem Regs.closeBlock_sliceAttached : r.closeBlock.sliceAttached = r.sliceAttached := rfl
@[simp] theorem Regs.closeBlock_evq : r.closeBlock.evq = r.evq := rfl
@[simp] theorem Regs.closeBlock_syncOverrun : r.closeBlock.syncOverrun = r.syncOverrun := rfl
@[simp] theorem Regs.closeBlock_rxBuf : r.closeBlock.rxBuf = r.rxBuf := rfl
@[simp] theorem Regs.closeBlock_rxOvf : r.closeBlock.rxOvf = r.rxOvf := rfl
@[simp] theorem Regs.closeBlock_ldMatch : r.closeBlock.ldMatch = false := rfl
@[simp] theorem Regs.closeBlock_ldExpect : r.closeBlock.ldExpect = 0#16 := rfl
@[simp] theorem Regs.closeBlock_ldFill : r.closeBlock.ldFill = 0#16 := rfl
@[simp] theorem Regs.closeBlock_stage : r.closeBlock.stage = r.stage := rfl
@[simp] theorem Regs.closeBlock_chaseValid : r.closeBlock.chaseValid = r.chaseValid := rfl
@[simp] theorem Regs.closeBlock_chaseLen : r.closeBlock.chaseLen = r.chaseLen := rfl
@[simp] theorem Regs.closeBlock_chaseTab : r.closeBlock.chaseTab = r.chaseTab := rfl
@[simp] theorem Regs.closeBlock_dimValid : r.closeBlock.dimValid = r.dimValid := rfl
@[simp] theorem Regs.closeBlock_dimLen : r.closeBlock.dimLen = r.dimLen := rfl
@[simp] theorem Regs.closeBlock_dimTab : r.closeBlock.dimTab = r.dimTab := rfl

/-! `Regs.goTo` -/

@[simp] theorem Regs.goTo_phase (target : Word) : (r.goTo target).phase = r.phase := rfl
@[simp] theorem Regs.goTo_sel (target : Word) : (r.goTo target).sel = r.sel := rfl
@[simp] theorem Regs.goTo_mode (target : Word) : (r.goTo target).mode = r.mode := rfl
@[simp] theorem Regs.goTo_role (target : Word) : (r.goTo target).role = r.role := rfl
@[simp] theorem Regs.goTo_localData (target : Word) : (r.goTo target).localData = r.localData := rfl
@[simp] theorem Regs.goTo_err (target : Word) : (r.goTo target).err = r.err := rfl
@[simp] theorem Regs.goTo_currentStep (target : Word) : (r.goTo target).currentStep = target := rfl
@[simp] theorem Regs.goTo_tickCount (target : Word) : (r.goTo target).tickCount = 0#16 := rfl
@[simp] theorem Regs.goTo_speedParam (target : Word) : (r.goTo target).speedParam = r.speedParam := rfl
@[simp] theorem Regs.goTo_speedDirty (target : Word) : (r.goTo target).speedDirty = r.speedDirty := rfl
@[simp] theorem Regs.goTo_delay (target : Word) : (r.goTo target).delay = r.delay := rfl
@[simp] theorem Regs.goTo_snap (target : Word) : (r.goTo target).snap = r.snap := rfl
@[simp] theorem Regs.goTo_out (target : Word) : (r.goTo target).out = r.out := rfl
@[simp] theorem Regs.goTo_sliceCount (target : Word) : (r.goTo target).sliceCount = r.sliceCount := rfl
@[simp] theorem Regs.goTo_zcArmed (target : Word) : (r.goTo target).zcArmed = r.zcArmed := rfl
@[simp] theorem Regs.goTo_sliceAttached (target : Word) : (r.goTo target).sliceAttached = r.sliceAttached := rfl
@[simp] theorem Regs.goTo_evq (target : Word) : (r.goTo target).evq = r.evq := rfl
@[simp] theorem Regs.goTo_syncOverrun (target : Word) : (r.goTo target).syncOverrun = r.syncOverrun := rfl
@[simp] theorem Regs.goTo_rxBuf (target : Word) : (r.goTo target).rxBuf = r.rxBuf := rfl
@[simp] theorem Regs.goTo_rxOvf (target : Word) : (r.goTo target).rxOvf = r.rxOvf := rfl
@[simp] theorem Regs.goTo_ldMatch (target : Word) : (r.goTo target).ldMatch = r.ldMatch := rfl
@[simp] theorem Regs.goTo_ldExpect (target : Word) : (r.goTo target).ldExpect = r.ldExpect := rfl
@[simp] theorem Regs.goTo_ldFill (target : Word) : (r.goTo target).ldFill = r.ldFill := rfl
@[simp] theorem Regs.goTo_stage (target : Word) : (r.goTo target).stage = r.stage := rfl
@[simp] theorem Regs.goTo_chaseValid (target : Word) : (r.goTo target).chaseValid = r.chaseValid := rfl
@[simp] theorem Regs.goTo_chaseLen (target : Word) : (r.goTo target).chaseLen = r.chaseLen := rfl
@[simp] theorem Regs.goTo_chaseTab (target : Word) : (r.goTo target).chaseTab = r.chaseTab := rfl
@[simp] theorem Regs.goTo_dimValid (target : Word) : (r.goTo target).dimValid = r.dimValid := rfl
@[simp] theorem Regs.goTo_dimLen (target : Word) : (r.goTo target).dimLen = r.dimLen := rfl
@[simp] theorem Regs.goTo_dimTab (target : Word) : (r.goTo target).dimTab = r.dimTab := rfl

/-! `Regs.loadDelays` -/

@[simp] theorem Regs.loadDelays_phase (d : Lanes Byte) : (r.loadDelays d).phase = r.phase := rfl
@[simp] theorem Regs.loadDelays_sel (d : Lanes Byte) : (r.loadDelays d).sel = r.sel := rfl
@[simp] theorem Regs.loadDelays_mode (d : Lanes Byte) : (r.loadDelays d).mode = r.mode := rfl
@[simp] theorem Regs.loadDelays_role (d : Lanes Byte) : (r.loadDelays d).role = r.role := rfl
@[simp] theorem Regs.loadDelays_localData (d : Lanes Byte) : (r.loadDelays d).localData = r.localData := rfl
@[simp] theorem Regs.loadDelays_err (d : Lanes Byte) : (r.loadDelays d).err = r.err := rfl
@[simp] theorem Regs.loadDelays_currentStep (d : Lanes Byte) : (r.loadDelays d).currentStep = r.currentStep := rfl
@[simp] theorem Regs.loadDelays_tickCount (d : Lanes Byte) : (r.loadDelays d).tickCount = r.tickCount := rfl
@[simp] theorem Regs.loadDelays_speedParam (d : Lanes Byte) : (r.loadDelays d).speedParam = r.speedParam := rfl
@[simp] theorem Regs.loadDelays_speedDirty (d : Lanes Byte) : (r.loadDelays d).speedDirty = r.speedDirty := rfl
@[simp] theorem Regs.loadDelays_delay (d : Lanes Byte) : (r.loadDelays d).delay = d := rfl
@[simp] theorem Regs.loadDelays_snap (d : Lanes Byte) : (r.loadDelays d).snap = d := rfl
@[simp] theorem Regs.loadDelays_out (d : Lanes Byte) : (r.loadDelays d).out = nonzeroBits d := rfl
@[simp] theorem Regs.loadDelays_sliceCount (d : Lanes Byte) : (r.loadDelays d).sliceCount = r.sliceCount := rfl
@[simp] theorem Regs.loadDelays_zcArmed (d : Lanes Byte) : (r.loadDelays d).zcArmed = r.zcArmed := rfl
@[simp] theorem Regs.loadDelays_sliceAttached (d : Lanes Byte) : (r.loadDelays d).sliceAttached = r.sliceAttached := rfl
@[simp] theorem Regs.loadDelays_evq (d : Lanes Byte) : (r.loadDelays d).evq = r.evq := rfl
@[simp] theorem Regs.loadDelays_syncOverrun (d : Lanes Byte) : (r.loadDelays d).syncOverrun = r.syncOverrun := rfl
@[simp] theorem Regs.loadDelays_rxBuf (d : Lanes Byte) : (r.loadDelays d).rxBuf = r.rxBuf := rfl
@[simp] theorem Regs.loadDelays_rxOvf (d : Lanes Byte) : (r.loadDelays d).rxOvf = r.rxOvf := rfl
@[simp] theorem Regs.loadDelays_ldMatch (d : Lanes Byte) : (r.loadDelays d).ldMatch = r.ldMatch := rfl
@[simp] theorem Regs.loadDelays_ldExpect (d : Lanes Byte) : (r.loadDelays d).ldExpect = r.ldExpect := rfl
@[simp] theorem Regs.loadDelays_ldFill (d : Lanes Byte) : (r.loadDelays d).ldFill = r.ldFill := rfl
@[simp] theorem Regs.loadDelays_stage (d : Lanes Byte) : (r.loadDelays d).stage = r.stage := rfl
@[simp] theorem Regs.loadDelays_chaseValid (d : Lanes Byte) : (r.loadDelays d).chaseValid = r.chaseValid := rfl
@[simp] theorem Regs.loadDelays_chaseLen (d : Lanes Byte) : (r.loadDelays d).chaseLen = r.chaseLen := rfl
@[simp] theorem Regs.loadDelays_chaseTab (d : Lanes Byte) : (r.loadDelays d).chaseTab = r.chaseTab := rfl
@[simp] theorem Regs.loadDelays_dimValid (d : Lanes Byte) : (r.loadDelays d).dimValid = r.dimValid := rfl
@[simp] theorem Regs.loadDelays_dimLen (d : Lanes Byte) : (r.loadDelays d).dimLen = r.dimLen := rfl
@[simp] theorem Regs.loadDelays_dimTab (d : Lanes Byte) : (r.loadDelays d).dimTab = r.dimTab := rfl

/-! `applySetSpeed` -/

@[simp] theorem applySetSpeed_phase (v : Word) : (applySetSpeed v r).phase = r.phase := rfl
@[simp] theorem applySetSpeed_sel (v : Word) : (applySetSpeed v r).sel = r.sel := rfl
@[simp] theorem applySetSpeed_mode (v : Word) : (applySetSpeed v r).mode = r.mode := rfl
@[simp] theorem applySetSpeed_role (v : Word) : (applySetSpeed v r).role = r.role := rfl
@[simp] theorem applySetSpeed_localData (v : Word) : (applySetSpeed v r).localData = r.localData := rfl
@[simp] theorem applySetSpeed_err (v : Word) : (applySetSpeed v r).err = r.err := rfl
@[simp] theorem applySetSpeed_currentStep (v : Word) : (applySetSpeed v r).currentStep = r.currentStep := rfl
@[simp] theorem applySetSpeed_tickCount (v : Word) : (applySetSpeed v r).tickCount = r.tickCount := rfl
@[simp] theorem applySetSpeed_speedParam (v : Word) : (applySetSpeed v r).speedParam = v := rfl
@[simp] theorem applySetSpeed_speedDirty (v : Word) : (applySetSpeed v r).speedDirty = r.speedDirty := rfl
@[simp] theorem applySetSpeed_delay (v : Word) : (applySetSpeed v r).delay = r.delay := rfl
@[simp] theorem applySetSpeed_snap (v : Word) : (applySetSpeed v r).snap = r.snap := rfl
@[simp] theorem applySetSpeed_out (v : Word) : (applySetSpeed v r).out = r.out := rfl
@[simp] theorem applySetSpeed_sliceCount (v : Word) : (applySetSpeed v r).sliceCount = r.sliceCount := rfl
@[simp] theorem applySetSpeed_zcArmed (v : Word) : (applySetSpeed v r).zcArmed = r.zcArmed := rfl
@[simp] theorem applySetSpeed_sliceAttached (v : Word) : (applySetSpeed v r).sliceAttached = r.sliceAttached := rfl
@[simp] theorem applySetSpeed_evq (v : Word) : (applySetSpeed v r).evq = r.evq := rfl
@[simp] theorem applySetSpeed_syncOverrun (v : Word) : (applySetSpeed v r).syncOverrun = r.syncOverrun := rfl
@[simp] theorem applySetSpeed_rxBuf (v : Word) : (applySetSpeed v r).rxBuf = r.rxBuf := rfl
@[simp] theorem applySetSpeed_rxOvf (v : Word) : (applySetSpeed v r).rxOvf = r.rxOvf := rfl
@[simp] theorem applySetSpeed_ldMatch (v : Word) : (applySetSpeed v r).ldMatch = r.ldMatch := rfl
@[simp] theorem applySetSpeed_ldExpect (v : Word) : (applySetSpeed v r).ldExpect = r.ldExpect := rfl
@[simp] theorem applySetSpeed_ldFill (v : Word) : (applySetSpeed v r).ldFill = r.ldFill := rfl
@[simp] theorem applySetSpeed_stage (v : Word) : (applySetSpeed v r).stage = r.stage := rfl
@[simp] theorem applySetSpeed_chaseValid (v : Word) : (applySetSpeed v r).chaseValid = r.chaseValid := rfl
@[simp] theorem applySetSpeed_chaseLen (v : Word) : (applySetSpeed v r).chaseLen = r.chaseLen := rfl
@[simp] theorem applySetSpeed_chaseTab (v : Word) : (applySetSpeed v r).chaseTab = r.chaseTab := rfl
@[simp] theorem applySetSpeed_dimValid (v : Word) : (applySetSpeed v r).dimValid = r.dimValid := rfl
@[simp] theorem applySetSpeed_dimLen (v : Word) : (applySetSpeed v r).dimLen = r.dimLen := rfl
@[simp] theorem applySetSpeed_dimTab (v : Word) : (applySetSpeed v r).dimTab = r.dimTab := rfl

end

section
variable (s : State)

/-! `State.emit` -/

@[simp] theorem State.emit_cfg (bytes : List Byte) : (s.emit bytes).cfg = s.cfg := rfl
@[simp] theorem State.emit_regs (bytes : List Byte) : (s.emit bytes).regs = s.regs := rfl
@[simp] theorem State.emit_ports (bytes : List Byte) : (s.emit bytes).ports = s.ports := rfl
@[simp] theorem State.emit_tx (bytes : List Byte) : (s.emit bytes).tx = s.tx ++ bytes := rfl
@[simp] theorem State.emit_readData (bytes : List Byte) : (s.emit bytes).readData = s.readData := rfl
@[simp] theorem State.emit_pending (bytes : List Byte) : (s.emit bytes).pending = s.pending := rfl
@[simp] theorem State.emit_arrivals (bytes : List Byte) : (s.emit bytes).arrivals = s.arrivals := rfl

/-! `State.withFetchWord` -/

@[simp] theorem State.withFetchWord_cfg (nbits w : Nat) : (s.withFetchWord nbits w).cfg = s.cfg := rfl
@[simp] theorem State.withFetchWord_regs (nbits w : Nat) : (s.withFetchWord nbits w).regs = s.regs := rfl
@[simp] theorem State.withFetchWord_ports (nbits w : Nat) : (s.withFetchWord nbits w).ports = s.ports := rfl
@[simp] theorem State.withFetchWord_tx (nbits w : Nat) : (s.withFetchWord nbits w).tx = s.tx := rfl
@[simp] theorem State.withFetchWord_readData (nbits w : Nat) : (s.withFetchWord nbits w).readData = s.readData := rfl
@[simp] theorem State.withFetchWord_pending (nbits w : Nat) : (s.withFetchWord nbits w).pending = [tableRequest nbits w] := rfl
@[simp] theorem State.withFetchWord_arrivals (nbits w : Nat) : (s.withFetchWord nbits w).arrivals = [] := rfl

/-! `State.finish` -/

@[simp] theorem State.finish_ok (r : Regs) : s.finish (.ok r) = .next { s with regs := r } := rfl
@[simp] theorem State.finish_error (f : Fault) : s.finish (.error f) = .fault f := rfl

end

/-! `seqLen` under the updates that keep the tables and the mode. -/

@[simp] theorem Regs.seqLen_acceptEdge (r : Regs) : r.acceptEdge.seqLen = r.seqLen := rfl
@[simp] theorem Regs.seqLen_goTo (target : Word) (r : Regs) : (r.goTo target).seqLen = r.seqLen := rfl
@[simp] theorem Regs.seqLen_clearRx (r : Regs) : r.clearRx.seqLen = r.seqLen := rfl

end Sys2Proof.Machine
end

