-- ==== Sys2Proof/Laws/Operands.lean ====
section
/-! SUPPORT. One lemma for each operand function that says once what it can answer. -/

namespace Sys2Proof.Machine

/-! ### Lanes and channel bits -/

@[simp] theorem Lanes.get_ofFn {α : Type} (f : Fin 8 → α) (c : Fin 8) : (Lanes.ofFn f).get c = f c := by
  fin_cases c <;> rfl

@[simp] theorem Lanes.get_all {α : Type} (a : α) (c : Fin 8) : (Lanes.all a).get c = a := by
  fin_cases c <;> rfl

theorem Lanes.ext_get {α : Type} {l m : Lanes α} (h : ∀ c, l.get c = m.get c) : l = m := by
  cases l; cases m
  have h0 := h 0; have h1 := h 1; have h2 := h 2; have h3 := h 3
  have h4 := h 4; have h5 := h 5; have h6 := h 6; have h7 := h 7
  simp only [Lanes.get] at h0 h1 h2 h3 h4 h5 h6 h7
  subst h0 h1 h2 h3 h4 h5 h6 h7
  rfl

/-- Bit `c` of a packed byte is the bit of lane `c`. -/
@[simp] theorem chanBit_packBits (l : Lanes Bool) (c : Fin 8) : chanBit (packBits l) c = l.get c := by
  obtain ⟨b0, b1, b2, b3, b4, b5, b6, b7⟩ := l
  cases b0 <;> cases b1 <;> cases b2 <;> cases b3 <;> cases b4 <;> cases b5 <;> cases b6 <;> cases b7 <;>
    revert c <;> decide

@[simp] theorem chanBit_nonzeroBits (l : Lanes Byte) (c : Fin 8) :
    chanBit (nonzeroBits l) c = (l.get c != 0#8) := by
  simp [nonzeroBits]

@[simp] theorem chanBit_and (a b : Byte) (c : Fin 8) : chanBit (a &&& b) c = (chanBit a c && chanBit b c) := by
  simp [chanBit]

@[simp] theorem chanBit_not (a : Byte) (c : Fin 8) : chanBit (~~~a) c = !chanBit a c := by
  have := c.isLt
  simp [chanBit]

@[simp] theorem chanBit_zero (c : Fin 8) : chanBit 0#8 c = false := by
  simp [chanBit]

theorem chanBit_ext {a b : Byte} (h : ∀ c, chanBit a c = chanBit b c) : a = b := by
  apply BitVec.eq_of_getLsbD_eq
  intro i hi
  exact h ⟨i, hi⟩

/-! ### Tables -/

/-- A ROM that has no pair with the id defines nothing for it (R6). -/
theorem lookupId_undefined {α : Type} {rom : List (Byte × α)} {id : Byte} (h : ∀ v, (id, v) ∉ rom) :
    lookupId rom id = none := by
  induction rom with
  | nil => rfl
  | cons e rom ih =>
    obtain ⟨k, w⟩ := e
    have hne : k ≠ id := by rintro rfl; exact h w (by simp)
    simp only [lookupId, hne, if_false]
    exact ih fun v hv => h v (by simp [hv])

/-- A ROM defines for an id the sequence of the first pair with it (R6). -/
theorem lookupId_first {α : Type} {a b : List (Byte × α)} {id : Byte} {v : α} (h : ∀ w, (id, w) ∉ a) :
    lookupId (a ++ (id, v) :: b) id = some v := by
  induction a with
  | nil => simp [lookupId]
  | cons e a ih =>
    obtain ⟨k, w⟩ := e
    have hne : k ≠ id := by rintro rfl; exact h w (by simp)
    simp only [List.cons_append, lookupId, hne, if_false]
    exact ih fun w' hw => h w' (by simp [hw])

theorem memReadChase_ok {r : Regs} {i : Nat} {p : Byte} :
    memReadChase r i = .ok p ↔ i < r.chaseLen.toNat ∧ r.chaseTab[i]? = some p := by
  unfold memReadChase
  split
  · split <;> simp_all
  · simp_all

theorem memReadDim_ok {r : Regs} {i : Nat} {st : DimStep} :
    memReadDim r i = .ok st ↔ i < r.dimLen.toNat ∧ r.dimTab[i]? = some st := by
  unfold memReadDim
  split
  · split <;> simp_all
  · simp_all

/-- With the table as long as its length register says, every index below it can be read. -/
theorem memReadChase_total {r : Regs} (h : r.chaseTab.length = r.chaseLen.toNat) {i : Nat}
    (hi : i < r.chaseLen.toNat) : ∃ p, memReadChase r i = .ok p := by
  have hi' : i < r.chaseTab.length := by omega
  exact ⟨r.chaseTab[i], memReadChase_ok.2 ⟨hi, List.getElem?_eq_getElem hi'⟩⟩

theorem memReadDim_total {r : Regs} (h : r.dimTab.length = r.dimLen.toNat) {i : Nat}
    (hi : i < r.dimLen.toNat) : ∃ st, memReadDim r i = .ok st ∧ st ∈ r.dimTab := by
  have hi' : i < r.dimTab.length := by omega
  exact ⟨r.dimTab[i], memReadDim_ok.2 ⟨hi, List.getElem?_eq_getElem hi'⟩, List.getElem_mem hi'⟩

theorem Stage.read_insert (st : Stage) (i j : Nat) (v : DimStep) :
    (st.insert i v).read j = if i = j then v else st.read j := by
  induction st with
  | nil => simp [Stage.insert, Stage.read]
  | cons e rest ih =>
    obtain ⟨k, w⟩ := e
    simp only [Stage.insert]
    split
    · simp only [Stage.read]
    · split
      · simp only [Stage.read]
        subst_vars
        split <;> simp_all
      · simp only [Stage.read, ih]
        by_cases h1 : k = j <;> by_cases h2 : i = j <;> simp_all

theorem Stage.read_filter (st : Stage) (i j : Nat) :
    Stage.read (st.filter fun e => e.1 != i) j = if i = j then blankStep else st.read j := by
  induction st with
  | nil => simp [Stage.read]
  | cons e rest ih =>
    obtain ⟨k, w⟩ := e
    by_cases hk : k = i
    · subst hk
      rw [List.filter_cons_of_neg (by simp), ih]
      by_cases hj : k = j <;> simp [Stage.read, hj]
    · rw [List.filter_cons_of_pos (by simpa using hk)]
      simp only [Stage.read, ih]
      by_cases h1 : k = j <;> by_cases h2 : i = j <;> simp_all

/-- Read after write in the staging table. -/
theorem Stage.read_write (st : Stage) (i j : Nat) (v : DimStep) :
    (st.write i v).read j = if i = j then v else st.read j := by
  unfold Stage.write
  split
  · rename_i hv; subst hv; exact Stage.read_filter st i j
  · exact Stage.read_insert st i j v

theorem Stage.mem_insert {st : Stage} {i : Nat} {v : DimStep} {e : Nat × DimStep}
    (h : e ∈ st.insert i v) : e = (i, v) ∨ e ∈ st := by
  induction st with
  | nil => simp_all [Stage.insert]
  | cons f rest ih =>
    obtain ⟨k, w⟩ := f
    simp only [Stage.insert] at h
    split at h
    · simp_all
    · split at h
      · simp_all only [List.mem_cons]; tauto
      · simp only [List.mem_cons] at h ⊢
        rcases h with h | h
        · exact .inr (.inl h)
        · rcases ih h with h | h
          · exact .inl h
          · exact .inr (.inr h)

/-- The entries after a write are the new one and old ones. -/
theorem Stage.mem_write {st : Stage} {i : Nat} {v : DimStep} {e : Nat × DimStep}
    (h : e ∈ st.write i v) : e = (i, v) ∨ e ∈ st := by
  unfold Stage.write at h
  split at h
  · exact .inr (List.mem_filter.1 h).1
  · exact Stage.mem_insert h

theorem Stage.rising_insert {st : Stage} (i : Nat) (v : DimStep) (h : st.rising = true) :
    (st.insert i v).rising = true := by
  induction st with
  | nil => rfl
  | cons f rest ih =>
    obtain ⟨k, w⟩ := f
    simp only [Stage.rising, Bool.and_eq_true, List.all_eq_true, decide_eq_true_eq] at h
    obtain ⟨hk, hr⟩ := h
    simp only [Stage.insert]
    split
    · rename_i hi
      simp only [Stage.rising, Bool.and_eq_true, List.all_eq_true, decide_eq_true_eq]
      refine ⟨fun e he => ?_, hk, hr⟩
      rcases List.mem_cons.1 he with rfl | he
      · exact hi
      · exact hi.trans (hk e he)
    · split
      · subst_vars
        simp only [Stage.rising, Bool.and_eq_true, List.all_eq_true, decide_eq_true_eq]
        exact ⟨hk, hr⟩
      · simp only [Stage.rising, Bool.and_eq_true, List.all_eq_true, decide_eq_true_eq]
        refine ⟨fun e he => ?_, ih hr⟩
        rcases Stage.mem_insert he with rfl | he
        · show k < i; omega
        · exact hk e he

theorem Stage.rising_filter {st : Stage} (p : Nat × DimStep → Bool) (h : st.rising = true) :
    Stage.rising (st.filter p) = true := by
  induction st with
  | nil => rfl
  | cons f rest ih =>
    obtain ⟨k, w⟩ := f
    simp only [Stage.rising, Bool.and_eq_true, List.all_eq_true, decide_eq_true_eq] at h
    simp only [List.filter_cons]
    split
    · simp only [Stage.rising, Bool.and_eq_true, List.all_eq_true, decide_eq_true_eq]
      exact ⟨fun e he => h.1 e (List.mem_filter.1 he).1, ih h.2⟩
    · exact ih h.2

/-- A write keeps the canonical form. -/
theorem Stage.write_wf {st : Stage} (i : Nat) (v : DimStep) (h : st.wf = true) :
    (st.write i v).wf = true := by
  simp only [Stage.wf, Bool.and_eq_true, List.all_eq_true] at h ⊢
  refine ⟨?_, fun e he => ?_⟩
  · unfold Stage.write
    split
    · exact Stage.rising_filter _ h.1
    · exact Stage.rising_insert i v h.1
  · unfold Stage.write at he
    split at he
    · exact h.2 e (List.mem_filter.1 he).1
    · rename_i hv
      rcases Stage.mem_insert he with rfl | he
      · simpa using hv
      · exact h.2 e he

@[simp] theorem readStage_length (st : Stage) (n : Nat) : (readStage st n).length = n := by simp [readStage]

/-- `readStage` answers the entries in order. -/
theorem readStage_get {st : Stage} {n i : Nat} (h : i < n) : (readStage st n)[i]? = some (st.read i) := by
  simp [readStage, h]

/-- Every answer of `readStage` is one of those entries. -/
theorem readStage_mem {st : Stage} {n : Nat} {v : DimStep} (hv : v ∈ readStage st n) :
    ∃ i, i < n ∧ v = st.read i := by
  simp only [readStage, List.mem_map, List.mem_range] at hv
  obtain ⟨i, hi, rfl⟩ := hv
  exact ⟨i, hi, rfl⟩

/-- A write inside the table answers the registers with that one entry set. -/
theorem memWriteStage_ok {cfg : Config} {r r' : Regs} {i : Nat} {v : DimStep} :
    memWriteStage cfg r i v = .ok r' ↔ i < cfg.dimCap ∧ r' = { r with stage := r.stage.write i v } := by
  unfold memWriteStage
  split <;> simp_all [eq_comm]

/-! ### Brightness -/

theorem truncDiv_bounds {a : Int} {t D : Nat} (hD : 1 ≤ D) (ht : t ≤ D) :
    (0 ≤ a → 0 ≤ truncDiv (a * t) D ∧ truncDiv (a * t) D ≤ a)
    ∧ (a ≤ 0 → a ≤ truncDiv (a * t) D ∧ truncDiv (a * t) D ≤ 0) := by
  unfold truncDiv
  have hDpos : (0 : Int) < D := by exact_mod_cast hD
  have htD : (t : Int) ≤ D := by exact_mod_cast ht
  have ht0 : (0 : Int) ≤ t := by positivity
  constructor
  · intro ha
    have h0 : 0 ≤ a * (t : Int) := by positivity
    rw [Int.tdiv_eq_ediv_of_nonneg h0]
    refine ⟨Int.ediv_nonneg h0 hDpos.le, ?_⟩
    apply Int.ediv_le_of_le_mul hDpos
    nlinarith
  · intro ha
    have h0 : 0 ≤ (-a) * (t : Int) := by
      have : 0 ≤ -a := by omega
      positivity
    have e : a * (t : Int) = -((-a) * t) := by ring
    rw [e, Int.neg_tdiv, Int.tdiv_eq_ediv_of_nonneg h0]
    have h1 : 0 ≤ (-a) * (t : Int) / D := Int.ediv_nonneg h0 hDpos.le
    have h2 : (-a) * (t : Int) / D ≤ -a := by
      apply Int.ediv_le_of_le_mul hDpos
      nlinarith
    omega

/-- The interpolation never leaves the interval between `start` and `stop` (R152). -/
theorem interp_between (start stop : Byte) {t D : Nat} (hD : 1 ≤ D) (ht : t ≤ D) :
    min (start.toNat : Int) stop.toNat ≤ interp start stop t D
    ∧ interp start stop t D ≤ max (start.toNat : Int) stop.toNat := by
  have hb := truncDiv_bounds (a := (stop.toNat : Int) - start.toNat) hD ht
  have hne : D ≠ 0 := by omega
  simp only [interp, hne, if_false]
  rcases le_total (start.toNat : Int) stop.toNat with h | h
  · obtain ⟨h1, h2⟩ := hb.1 (by omega)
    omega
  · obtain ⟨h1, h2⟩ := hb.2 (by omega)
    omega

/-- A brightness is the interpolation under `Linear`, without narrowing (R152, R153). -/
theorem brightness_linear_toNat (start stop : Byte) {t D : Nat} (ht : t ≤ D) :
    ((brightness .linear start stop t D).toNat : Int) = interp start stop t D := by
  have hs := start.isLt
  have he := stop.isLt
  simp only [brightness, BitVec.toNat_ofInt]
  rcases Nat.eq_zero_or_pos D with rfl | hD
  · simp only [interp, if_true]; omega
  · obtain ⟨h1, h2⟩ := interp_between start stop hD ht
    omega

theorem dmap_toNat (m : DelayMap) (b : Byte) :
    (dmap m b).toNat = match m with | .inverse => 255 - b.toNat | .direct => b.toNat := by
  have := b.isLt
  cases m
  · simp only [dmap, delayMax, BitVec.toNat_ofNat]; omega
  · rfl

@[simp] theorem armedDelays_get (cfg : Config) (st : DimStep) (t D : Nat) (c : Fin 8) :
    (armedDelays cfg st t D).get c
      = dmap cfg.delayMap (brightness cfg.interp (st.start.get c) (st.stop.get c) t D) := by
  simp [armedDelays]

/-! ### Thresholds -/

theorem threshold_chase {cfg : Config} {r : Regs} (h : r.mode = .chase) :
    threshold cfg r = .ok r.speedParam.toNat := by
  simp [threshold, h]

theorem threshold_dimmer {cfg : Config} {r : Regs} {st : DimStep} (h : r.mode = .dimmer)
    (hst : memReadDim r r.currentStep.toNat = .ok st) :
    threshold cfg r = .ok (dimScale cfg st.dur r.speedParam) := by
  simp [threshold, h, hst]

/-- `DIM_SCALE` where the table has an entry for its arguments: the first one counts (R6). -/
theorem dimScale_listed {cfg : Config} {d : Byte} {s v : Word} {a b : List (Byte × Word × Word)} (hd : d ≠ 0#8)
    (h : cfg.dimScaleTable = a ++ (d, s, v) :: b) (ha : ∀ w, (d, s, w) ∉ a) : dimScale cfg d s = v.toNat := by
  have key : lookupScale cfg.dimScaleTable d s = some v := by
    rw [h]; clear h
    induction a with
    | nil => simp [lookupScale]
    | cons e a ih =>
      obtain ⟨d', s', w⟩ := e
      have hne : ¬ (d' = d ∧ s' = s) := by rintro ⟨rfl, rfl⟩; exact ha w (by simp)
      simp only [List.cons_append, lookupScale, hne, if_false]
      exact ih fun w' hw => ha w' (by simp [hw])
  simp [dimScale, hd, key]

/-- `DIM_SCALE` where the table has no entry for its arguments: the default (R6). -/
theorem dimScale_default {cfg : Config} {d : Byte} {s : Word} (hd : d ≠ 0#8)
    (h : ∀ v, (d, s, v) ∉ cfg.dimScaleTable) : dimScale cfg d s = d.toNat := by
  have key : ∀ l : List (Byte × Word × Word), (∀ v, (d, s, v) ∉ l) → lookupScale l d s = none := by
    intro l hl
    induction l with
    | nil => rfl
    | cons e l ih =>
      obtain ⟨d', s', w⟩ := e
      have hne : ¬ (d' = d ∧ s' = s) := by rintro ⟨rfl, rfl⟩; exact hl w (by simp)
      simp only [lookupScale, hne, if_false]
      exact ih fun v hv => hl v (by simp [hv])
  simp [dimScale, hd, key _ h]

/-- Every scaled duration fits the 16 bits of `tick_count` (R6). -/
theorem dimScale_le (cfg : Config) (d : Byte) (s : Word) : dimScale cfg d s ≤ 65535 := by
  have hd := d.isLt
  unfold dimScale
  split
  · have := (Config.dimScaleAtZero s).isLt; omega
  · split
    · rename_i v _; have := v.isLt; omega
    · omega

theorem threshold_le {cfg : Config} {r : Regs} {thr : Nat} (h : threshold cfg r = .ok thr) : thr ≤ 65535 := by
  unfold threshold at h
  split at h
  · have := r.speedParam.isLt; cases h; omega
  · split at h
    · cases h; exact dimScale_le _ _ _
    · cases h

end Sys2Proof.Machine
end

