-- ==== Sys2Proof/Laws/Ops.lean ====
section
/-! SUPPORT. For each shared operation one lemma that says once what it can do: if it answers a next value, which
fields changed and to what. An equation `r' = { r with x := r'.x }` reads: only `x` changed. -/

namespace Sys2Proof.Machine

/-! ### Errors -/

/-- `raise` of a fatal kind (R296). -/
theorem raise_fatal {k : ErrKind} {r : Regs} (h : k.isFatal r.dimValid = true) :
    raise k r = { r with err := k, phase := .fatal, out := 0x00#8, zcArmed := false, sliceAttached := false } := by
  simp [raise, h]

/-- `raise` of a kind that is not fatal (R297). -/
theorem raise_notFatal {k : ErrKind} {r : Regs} (h : k.isFatal r.dimValid = false) :
    raise k r = { r with err := k } := by
  simp [raise, h]

/-- All that `raise` can change. -/
theorem raise_only (k : ErrKind) (r : Regs) :
    raise k r = { r with err := k, phase := (raise k r).phase, out := (raise k r).out,
                         zcArmed := (raise k r).zcArmed, sliceAttached := (raise k r).sliceAttached }
    ∧ (((raise k r).phase = r.phase ∧ (raise k r).out = r.out ∧ (raise k r).zcArmed = r.zcArmed
          ∧ (raise k r).sliceAttached = r.sliceAttached)
        ∨ ((raise k r).phase = .fatal ∧ (raise k r).out = 0x00#8 ∧ (raise k r).zcArmed = false
          ∧ (raise k r).sliceAttached = false)) := by
  cases h : k.isFatal r.dimValid
  · rw [raise_notFatal h]; simp
  · rw [raise_fatal h]; simp

/-! ### Mux and step pointer -/

theorem mux_ok {r : Regs} {i : Nat} {o : Byte} :
    mux r i = .ok o ↔ ∃ p, memReadChase r i = .ok p ∧ o = ~~~p := by
  unfold mux
  cases h : memReadChase r i with
  | error f => simp
  | ok p => simp [eq_comm]

/-- What `showStep` can do. -/
theorem showStep_ok {r r' : Regs} (h : showStep r = .ok r') :
    r' = { r with out := r'.out }
    ∧ (r.mode = .chase → mux r r.currentStep.toNat = .ok r'.out)
    ∧ (r.mode = .dimmer → r' = r) := by
  cases hm : r.mode
  · simp only [showStep, hm, driveMux] at h
    cases ho : mux r r.currentStep.toNat with
    | error f => rw [ho] at h; cases h
    | ok o => rw [ho] at h; cases h; exact ⟨by rw [← hm], by simp, by simp⟩
  · simp only [showStep, hm] at h
    cases h
    exact ⟨by rw [← hm], by simp, by simp⟩

/-- `showStep` answers where the step can be read. -/
theorem showStep_total {r : Regs} (h : r.mode = .chase → ∃ o, mux r r.currentStep.toNat = .ok o) :
    ∃ r', showStep r = .ok r' := by
  cases hm : r.mode
  · obtain ⟨o, ho⟩ := h hm
    exact ⟨{ r with out := o }, by simp [showStep, hm, driveMux, ho]⟩
  · exact ⟨r, by simp [showStep, hm]⟩

/-- The mux depends on the table and its length only. -/
theorem mux_congr {r r' : Regs} (h1 : r'.chaseLen = r.chaseLen) (h2 : r'.chaseTab = r.chaseTab) (i : Nat) :
    mux r' i = mux r i := by
  simp [mux, memReadChase, h1, h2]

theorem seqLen_le (r : Regs) : r.seqLen ≤ 65535 := by
  have h1 := r.chaseLen.isLt
  have h2 := r.dimLen.isLt
  unfold Regs.seqLen
  split <;> omega

theorem nextStep_toNat {r : Regs} (h : 1 ≤ r.seqLen) :
    (nextStep r).toNat = (r.currentStep.toNat + 1) % r.seqLen := by
  have h1 := seqLen_le r
  have h2 : (r.currentStep.toNat + 1) % r.seqLen < r.seqLen := Nat.mod_lt _ (by omega)
  simp only [nextStep, BitVec.toNat_ofNat]
  omega

theorem nextStep_lt {r : Regs} (h : 1 ≤ r.seqLen) : (nextStep r).toNat < r.seqLen := by
  rw [nextStep_toNat h]; exact Nat.mod_lt _ (by omega)

theorem kindOf_eq (w : Word) : kindOf w = if w.toNat = 0 then .restart else .step := by
  unfold kindOf
  by_cases h : w = 0#16
  · simp [h]
  · have : w.toNat ≠ 0 := fun e => h (by apply BitVec.eq_of_toNat_eq; simpa using e)
    simp [h, this]

/-! ### Names that are no registers depend on these fields only -/

theorem threshold_congr {cfg : Config} {r r' : Regs} (h1 : r'.mode = r.mode) (h2 : r'.currentStep = r.currentStep)
    (h3 : r'.speedParam = r.speedParam) (h4 : r'.dimLen = r.dimLen) (h5 : r'.dimTab = r.dimTab) :
    threshold cfg r' = threshold cfg r := by
  simp [threshold, memReadDim, h1, h2, h3, h4, h5]

theorem seqLen_congr {r r' : Regs} (h1 : r'.mode = r.mode) (h2 : r'.dimLen = r.dimLen)
    (h3 : r'.chaseLen = r.chaseLen) : r'.seqLen = r.seqLen := by
  simp [Regs.seqLen, h1, h2, h3]

theorem readable_congr {r r' : Regs} {i : Nat} (h1 : r'.mode = r.mode) (h2 : r'.chaseLen = r.chaseLen)
    (h3 : r'.chaseTab = r.chaseTab) (h4 : r'.dimLen = r.dimLen) (h5 : r'.dimTab = r.dimTab)
    (h : r.readable i) : r'.readable i := by
  unfold Regs.readable memReadChase memReadDim at *
  rw [h1, h2, h3, h4, h5]; exact h

/-! ### Event queue -/

/-- What `post` can do (R210). -/
theorem post_room {cfg : Config} {ev : SyncEvent} {r : Regs} (h : r.evq.length < cfg.evqDepth) :
    post cfg ev r = { r with evq := r.evq ++ [ev] } := by
  simp [post, h]

theorem post_full {cfg : Config} {ev : SyncEvent} {r : Regs} (h : cfg.evqDepth ≤ r.evq.length) :
    post cfg ev r = { r with syncOverrun := true } := by
  have : ¬ r.evq.length < cfg.evqDepth := by omega
  simp [post, this, Regs.noteOverrun]

/-! ### Boundary -/

/-- What `takeSpeed` does, in one equation. -/
theorem takeSpeed_eq (v : Word) (r : Regs) :
    r.takeSpeed v = { r with speedParam := v, speedDirty := r.speedDirty || v != r.speedParam } := by
  unfold Regs.takeSpeed
  by_cases h : v = r.speedParam
  · subst h; simp
  · simp [h]

/-- What a boundary does with room in the queue (R148, R149). -/
theorem boundary_room {cfg : Config} {v : Word} {kind : StepKind} {r : Regs}
    (h : r.evq.length < cfg.evqDepth) :
    boundary cfg v kind r = { r with
      speedParam := v,
      speedDirty := (kind == .restart) && (r.speedDirty || v != r.speedParam),
      evq := r.evq ++ [match kind with
        | .restart => .restart
        | .step => if r.speedDirty || v != r.speedParam then .step (some v) else .step none] } := by
  unfold boundary
  rw [takeSpeed_eq]
  cases kind
  · simp only [announce]
    rw [post_room (by simpa using h)]
    simp
  · simp only [announce]
    cases hd : (r.speedDirty || v != r.speedParam)
    · simp only [Bool.false_eq_true, if_false]
      rw [post_room (by simpa using h)]
      simp
    · simp only [if_true]
      rw [post_room (by simpa using h)]
      simp [Regs.clearDirty]

/-- What a boundary does with the queue full (R149, R210). -/
theorem boundary_full {cfg : Config} {v : Word} {kind : StepKind} {r : Regs}
    (h : cfg.evqDepth ≤ r.evq.length) :
    boundary cfg v kind r = { r with
      speedParam := v,
      speedDirty := (kind == .restart) && (r.speedDirty || v != r.speedParam),
      syncOverrun := true } := by
  unfold boundary
  rw [takeSpeed_eq]
  cases kind
  · simp only [announce]
    rw [post_full (by simpa using h)]
    simp
  · simp only [announce]
    cases hd : (r.speedDirty || v != r.speedParam)
    · simp only [Bool.false_eq_true, if_false]
      rw [post_full (by simpa using h)]
      simp
    · simp only [if_true]
      rw [post_full (by simpa using h)]
      simp [Regs.clearDirty]

/-- All that a boundary can change. -/
theorem boundary_only (cfg : Config) (v : Word) (kind : StepKind) (r : Regs) :
    boundary cfg v kind r = { r with
      speedParam := v, speedDirty := (boundary cfg v kind r).speedDirty,
      evq := (boundary cfg v kind r).evq, syncOverrun := (boundary cfg v kind r).syncOverrun } := by
  rcases Nat.lt_or_ge r.evq.length cfg.evqDepth with h | h
  · rw [boundary_room h]
  · rw [boundary_full h]

/-! ### Loader -/

/-- What `S_LINE` can do with an open block that the step does not complete (R255). -/
theorem sLine_stage {cfg : Config} {st : DimStep} {r : Regs} (hm : r.ldMatch = true)
    (hc : r.ldFill.toNat < cfg.dimCap) (hn : r.ldFill.toNat + 1 ≠ r.ldExpect.toNat) :
    sLine cfg st r = .ok { r with
      stage := r.stage.write r.ldFill.toNat st, ldFill := BitVec.ofNat 16 (r.ldFill.toNat + 1) } := by
  simp [sLine, hm, memWriteStage, hc, hn]

/-- What `S_LINE` does when it completes the block: it commits (R255, R256). -/
theorem sLine_commit {cfg : Config} {st : DimStep} {r : Regs} (hm : r.ldMatch = true)
    (hc : r.ldFill.toNat < cfg.dimCap) (hn : r.ldFill.toNat + 1 = r.ldExpect.toNat) :
    sLine cfg st r = .ok { r with
      stage := r.stage.write r.ldFill.toNat st, ldMatch := false, ldFill := 0#16, ldExpect := 0#16,
      dimTab := readStage (r.stage.write r.ldFill.toNat st) r.ldExpect.toNat, dimLen := r.ldExpect,
      dimValid := true } := by
  simp [sLine, hm, memWriteStage, hc, hn, commit, Regs.closeBlock]

/-- All that `S_LINE` can do. -/
theorem sLine_ok {cfg : Config} {st : DimStep} {r r' : Regs} (h : sLine cfg st r = .ok r') :
    (r.ldMatch = false ∧ r' = r)
    ∨ (r.ldMatch = true ∧ r.ldFill.toNat < cfg.dimCap
        ∧ ((r.ldFill.toNat + 1 ≠ r.ldExpect.toNat ∧ r' = { r with
              stage := r.stage.write r.ldFill.toNat st, ldFill := BitVec.ofNat 16 (r.ldFill.toNat + 1) })
          ∨ (r.ldFill.toNat + 1 = r.ldExpect.toNat ∧ r' = { r with
              stage := r.stage.write r.ldFill.toNat st, ldMatch := false, ldFill := 0#16, ldExpect := 0#16,
              dimTab := readStage (r.stage.write r.ldFill.toNat st) r.ldExpect.toNat,
              dimLen := r.ldExpect, dimValid := true }))) := by
  cases hm : r.ldMatch
  · refine .inl ⟨rfl, ?_⟩
    simp [sLine, hm] at h
    exact h.symm
  · by_cases hc : r.ldFill.toNat < cfg.dimCap
    · refine .inr ⟨rfl, hc, ?_⟩
      by_cases hn : r.ldFill.toNat + 1 = r.ldExpect.toNat
      · rw [sLine_commit hm hc hn] at h
        cases h
        exact .inr ⟨hn, rfl⟩
      · rw [sLine_stage hm hc hn] at h
        cases h
        refine .inl ⟨hn, by simp [hm]⟩
    · simp [sLine, hm, memWriteStage, hc] at h

/-- All that `Q_LINE` can do (R252), in the model's own words. -/
theorem qLine_cases (cfg : Config) (id n : Word) (r : Regs) :
    qLine cfg id n r = r.closeBlock
    ∨ (id.toNat = r.sel.toNat ∧ n = 0#16 ∧ qLine cfg id n r = raise .zeroLengthSequence r.closeBlock)
    ∨ (id.toNat = r.sel.toNat ∧ cfg.dimCap < n.toNat
        ∧ qLine cfg id n r = raise .allocationFailure r.closeBlock)
    ∨ (id.toNat = r.sel.toNat ∧ n ≠ 0#16 ∧ n.toNat ≤ cfg.dimCap
        ∧ qLine cfg id n r = { r.closeBlock with ldMatch := true, ldExpect := n }) := by
  unfold qLine
  by_cases h1 : id.toNat ≠ r.sel.toNat
  · left; simp [h1]
  · have h1' : id.toNat = r.sel.toNat := by simpa using h1
    by_cases h2 : n = 0#16
    · exact .inr (.inl ⟨h1', h2, by simp [h1', h2]⟩)
    · by_cases h3 : cfg.dimCap < n.toNat
      · exact .inr (.inr (.inl ⟨h1', h3, by simp [h1', h2, h3]⟩))
      · exact .inr (.inr (.inr ⟨h1', h2, by omega, by simp [h1', h2, h3]⟩))

/-! ### Events -/

/-- What `APPLY_RESTART` can do (R245). -/
theorem applyRestart_ok {r r' : Regs} (h : applyRestart r = .ok r') :
    r' = { r with currentStep := 0#16, tickCount := 0#16, out := r'.out }
    ∧ (r.mode = .chase → mux r 0 = .ok r'.out) ∧ (r.mode = .dimmer → r'.out = r.out) := by
  obtain ⟨h1, h2, h3⟩ := showStep_ok h
  refine ⟨h1, fun hm => ?_, fun hm => ?_⟩
  · have := h2 hm
    rwa [mux_congr (r := r) (r' := r.goTo 0#16) rfl rfl] at this
  · rw [h3 hm]; rfl

/-- The target of a `Step` (R246). -/
theorem stepTarget_toNat (r : Regs) :
    (if r.seqLen ≤ r.currentStep.toNat + 1 then 0#16
      else BitVec.ofNat 16 (r.currentStep.toNat + 1)).toNat
    = if r.currentStep.toNat + 1 < r.seqLen then r.currentStep.toNat + 1 else 0 := by
  have := seqLen_le r
  split
  · rw [if_neg (by omega)]; rfl
  · rw [if_pos (by omega), BitVec.toNat_ofNat]; omega

/-- What `APPLY_STEP` can do (R246). -/
theorem applyStep_ok {r r' : Regs} (h : applyStep r = .ok r') :
    r' = { r with currentStep := r'.currentStep, tickCount := 0#16, out := r'.out }
    ∧ r'.currentStep.toNat
        = (if r.currentStep.toNat + 1 < r.seqLen then r.currentStep.toNat + 1 else 0)
    ∧ (r.mode = .chase → mux r r'.currentStep.toNat = .ok r'.out)
    ∧ (r.mode = .dimmer → r'.out = r.out) := by
  obtain ⟨h1, h2, h3⟩ := showStep_ok h
  have hc := congrArg Regs.currentStep h1
  simp only [Regs.goTo_currentStep] at hc
  refine ⟨?_, ?_, fun hm => ?_, fun hm => ?_⟩
  · rw [hc]; exact h1
  · rw [hc, stepTarget_toNat]
  · have := h2 hm
    rw [mux_congr (r := r) (r' := r.goTo _) rfl rfl] at this
    rw [hc]; exact this
  · rw [h3 hm]; rfl

/-! ### Edge -/

/-- What the slave's sequencer does (R144, R150). -/
theorem seqSlave_only (r : Regs) :
    seqSlave r = { r with currentStep := (seqSlave r).currentStep, tickCount := (seqSlave r).tickCount } := by
  unfold seqSlave
  split <;> rfl

/-- What the master's sequencer can do (R144, R145). -/
theorem seqMaster_ok {cfg : Config} {v : Word} {r r' : Regs} (h : seqMaster cfg v r = .ok r') :
    (r.seqLen ≤ r.currentStep.toNat ∧ r' = boundary cfg v .restart (r.goTo 0#16))
    ∨ (r.currentStep.toNat < r.seqLen ∧ ∃ thr, threshold cfg r = .ok thr
        ∧ ((thr ≤ r.tickCount.toNat + 1
            ∧ r' = boundary cfg v (kindOf (nextStep r)) (r.goTo (nextStep r)))
          ∨ (r.tickCount.toNat + 1 < thr
            ∧ r' = { r with tickCount := BitVec.ofNat 16 (r.tickCount.toNat + 1) }))) := by
  unfold seqMaster at h
  split at h
  · rename_i hg
    cases h
    exact .inl ⟨hg, rfl⟩
  · rename_i hg
    split at h
    · cases h
    · rename_i thr hthr
      refine .inr ⟨by omega, thr, hthr, ?_⟩
      simp only at h
      split at h
      · rename_i hle; cases h; exact .inl ⟨hle, rfl⟩
      · rename_i hle; cases h; exact .inr ⟨by omega, rfl⟩

/-- All that the sequencer of either role can change. -/
theorem sequencer_only {cfg : Config} {v : Word} {r r' : Regs} (h : sequencer cfg v r = .ok r') :
    r' = { r with
      currentStep := r'.currentStep, tickCount := r'.tickCount, speedParam := r'.speedParam,
      speedDirty := r'.speedDirty, evq := r'.evq, syncOverrun := r'.syncOverrun } := by
  unfold sequencer at h
  split at h
  · rcases seqMaster_ok h with ⟨_, rfl⟩ | ⟨_, thr, _, ⟨_, rfl⟩ | ⟨_, rfl⟩⟩
    · rw [boundary_only]; rfl
    · rw [boundary_only]; rfl
    · rfl
  · cases h
    rw [seqSlave_only]

/-- What the arming does (R155, R156). -/
theorem arm_ok {cfg : Config} {r r' : Regs} (h : arm cfg r = .ok r') :
    ∃ st, memReadDim r r.currentStep.toNat = .ok st
      ∧ r' = r.loadDelays (armedDelays cfg st (min r.tickCount.toNat (dimScale cfg st.dur r.speedParam))
          (dimScale cfg st.dur r.speedParam)) := by
  unfold arm at h
  split at h
  · cases h
  · rename_i st hst
    cases h
    exact ⟨st, hst, rfl⟩

/-- What the outputs of an accepted edge can do (R140, R156, R158). -/
theorem driveEdge_ok {cfg : Config} {r r' : Regs} (h : driveEdge cfg r = .ok r') :
    r' = { r with delay := r'.delay, snap := r'.snap, out := r'.out }
    ∧ (r.mode = .chase → r'.delay = r.delay ∧ r'.snap = r.snap
        ∧ mux r r.currentStep.toNat = .ok r'.out)
    ∧ (r.mode = .dimmer → arm cfg r = .ok r') := by
  cases hm : r.mode
  · simp only [driveEdge, hm, driveMux] at h
    cases ho : mux r r.currentStep.toNat with
    | error f => rw [ho] at h; cases h
    | ok o => rw [ho] at h; cases h; exact ⟨by rw [← hm], by simp, by simp⟩
  · simp only [driveEdge, hm] at h
    refine ⟨?_, by simp, fun _ => h⟩
    obtain ⟨st, _, rfl⟩ := arm_ok h
    simp only [Regs.loadDelays, hm]

/-- The outputs of an accepted edge can be driven where the step can be read. -/
theorem driveEdge_total {cfg : Config} {r : Regs} (h : r.readable r.currentStep.toNat) :
    ∃ r', driveEdge cfg r = .ok r' := by
  unfold Regs.readable at h
  cases hm : r.mode
  · rw [hm] at h
    obtain ⟨p, hp⟩ := h
    exact ⟨{ r with out := ~~~p }, by simp [driveEdge, hm, driveMux, mux, hp]⟩
  · rw [hm] at h
    obtain ⟨st, hst⟩ := h
    simp only [driveEdge, hm, arm, hst]
    exact ⟨_, rfl⟩

/-- What an accepted edge can do (R140). -/
theorem zcEdgeRegs_accepted {cfg : Config} {v : Word} {r r' : Regs} (ha : r.acceptsEdge = true) :
    zcEdgeRegs cfg v r = .ok r' ↔ ∃ r1 r2, sequencer cfg v r.acceptEdge = .ok r1
      ∧ driveEdge cfg r1 = .ok r2 ∧ r' = r2.beginHoldOff := by
  unfold zcEdgeRegs
  rw [if_pos ha]
  cases h1 : sequencer cfg v r.acceptEdge with
  | error f => simp
  | ok r1 =>
    cases h2 : driveEdge cfg r1 with
    | error f => simp [h2]
    | ok r2 => simp [h2, eq_comm]

/-! ### Slice tick -/

theorem countDown_toNat (d : Byte) : (countDown d).toNat = d.toNat - 1 := by
  unfold countDown
  by_cases h : d = 0#8
  · simp [h]
  · have : d.toNat ≠ 0 := fun e => h (by apply BitVec.eq_of_toNat_eq; simpa using e)
    have := d.isLt
    simp only [h, if_false, BitVec.toNat_sub, BitVec.toNat_ofNat]
    omega

/-- What the countdown does (R184). -/
theorem countdown_spec (r : Regs) :
    countdown r = { r with delay := (countdown r).delay, out := (countdown r).out }
    ∧ ∀ c, ((countdown r).delay.get c).toNat = (r.delay.get c).toNat - 1
      ∧ chanBit (countdown r).out c = (chanBit r.out c && decide (1 < (r.delay.get c).toNat)) := by
  refine ⟨rfl, fun c => ⟨by simp [countdown, countDown_toNat], ?_⟩⟩
  simp only [countdown, chanBit_and, chanBit_nonzeroBits, Lanes.get_ofFn]
  congr 1
  have h := countDown_toNat (r.delay.get c)
  have e : (countDown (r.delay.get c) = 0#8) ↔ (r.delay.get c).toNat - 1 = 0 := by
    rw [← h]
    constructor
    · intro e; simp [e]
    · intro e; apply BitVec.eq_of_toNat_eq; simpa using e
  by_cases hd : countDown (r.delay.get c) = 0#8
  · have := e.1 hd
    simp [hd]; omega
  · have : (r.delay.get c).toNat - 1 ≠ 0 := fun e' => hd (e.2 e')
    have h1 : (countDown (r.delay.get c) != 0#8) = true := by simpa using hd
    rw [h1]; symm; rw [decide_eq_true_eq]; omega

/-- A slice tick within the budget (R182). -/
theorem sliceTickRegs_within {cfg : Config} {r : Regs} (hp : r.phase = .run) (ha : r.sliceAttached = true)
    (hb : r.sliceCount.toNat + 1 ≤ cfg.sliceBudget) :
    sliceTickRegs cfg r = sliceWork cfg (r.sliceCount.toNat + 1)
      { r with sliceCount := BitVec.ofNat 16 (r.sliceCount.toNat + 1) } := by
  unfold sliceTickRegs
  rw [if_pos (by simp [hp, ha])]
  dsimp only
  rw [if_neg (by omega)]

/-- All that the work of a slice can change. -/
theorem sliceWork_only (cfg : Config) (n : Nat) (r : Regs) :
    sliceWork cfg n r = { r with delay := (sliceWork cfg n r).delay, out := (sliceWork cfg n r).out } := by
  unfold sliceWork
  split
  · rfl
  · split
    · split <;> rfl
    · rfl

/-- All that a slice tick can change. -/
theorem sliceTickRegs_only (cfg : Config) (r : Regs) :
    sliceTickRegs cfg r = { r with
      sliceCount := (sliceTickRegs cfg r).sliceCount, delay := (sliceTickRegs cfg r).delay,
      out := (sliceTickRegs cfg r).out, zcArmed := (sliceTickRegs cfg r).zcArmed,
      sliceAttached := (sliceTickRegs cfg r).sliceAttached } := by
  unfold sliceTickRegs
  split
  · simp only
    split
    · unfold endHalfCycle; split <;> rfl
    · unfold sliceWork; split
      · rfl
      · split
        · split <;> rfl
        · rfl
  · rfl

end Sys2Proof.Machine
end

