-- ==== Sys2Proof/Laws/Exec.lean ====
section
/-! SUPPORT. What one instruction can do, said once: its effect on the registers, what it emits, and that it changes
nothing else. A proof over all instructions goes through `exec_next_iff` and `regsAfter`. -/

namespace Sys2Proof.Machine

/-- The registers after an instruction. -/
def regsAfter (i : Instr) (cfg : Config) (p : Ports) (r : Regs) : Except Fault Regs :=
  match i with
  | .recR via => recordR via r
  | .recZ via => recordZ via r
  | .recC via value => recordC via value r
  | .recQ via header => recordQ cfg via header r
  | .recS via st => recordS cfg via st r
  | .reset => .ok .atReset
  | .bootSample => .ok (bootSampleRegs cfg p r)
  | .loadLine line => if hearsLoader cfg r then consumeLine cfg line r else .ok r
  | .loadEnd => .ok (loadEndRegs cfg r)
  | .srcAbsent => .ok (srcAbsentRegs cfg r)
  | .start => startRegs p.speedIn r
  | .zcEdge => zcEdgeRegs cfg p.speedIn r
  | .sliceTick => .ok (sliceTickRegs cfg r)
  | .rxByte b => rxByteRegs cfg b r
  | .txService => .ok (if r.emits then { r with evq := r.evq.tail } else r)
  | .read | .reserved11 | .reserved12 | .reserved13 | .reserved14 | .reserved15 => .ok r

/-- The bytes an instruction emits when it does not fault. -/
def emitted (i : Instr) (cfg : Config) (r : Regs) : List Byte :=
  match i with
  | .loadLine line => if hearsLoader cfg r then relayed cfg r.role line else []
  | .txService =>
    if r.emits then
      match r.evq with
      | [] => []
      | ev :: _ => frame cfg ev
    else []
  | _ => []

/-- The register copy the host holds after an instruction. -/
def readAfter (i : Instr) (s : State) : Option Regs :=
  match i with
  | .read => some s.regs
  | _ => s.readData

/-- Every instruction in one equation. -/
theorem exec_eq (i : Instr) (s : State) :
    exec i s = ({ s with tx := s.tx ++ emitted i s.cfg s.regs, readData := readAfter i s } : State).finish
      (regsAfter i s.cfg s.ports s.regs) := by
  cases i
  case loadLine line =>
    simp only [exec, execLoadLine, regsAfter, emitted, readAfter]
    split <;> simp [State.emit, State.finish]
  case txService =>
    simp only [exec, execTxService, regsAfter, emitted, readAfter]
    split
    · cases h : s.regs.evq with
      | nil =>
        simp only [State.finish, List.tail_nil, List.append_nil]
        rw [← h]
      | cons ev rest => simp [State.emit, State.finish]
    · simp [State.finish]
  all_goals simp [exec, execR, execZ, execC, execQ, execS, execReset, execBootSample, execLoadEnd, execSrcAbsent,
    execStart, execZcEdge, execSliceTick, execRxByte, execRead, execReserved11, execReserved12, execReserved13,
    execReserved14, execReserved15, noOperation, regsAfter, emitted, readAfter, State.finish, Regs.reset]

/-- When an instruction answers a next state, and which. -/
theorem exec_next_iff {i : Instr} {s t : State} :
    exec i s = .next t ↔ regsAfter i s.cfg s.ports s.regs = .ok t.regs
      ∧ t = { s with regs := t.regs, tx := s.tx ++ emitted i s.cfg s.regs, readData := readAfter i s } := by
  rw [exec_eq]
  cases h : regsAfter i s.cfg s.ports s.regs with
  | error f => simp [State.finish]
  | ok r =>
    simp only [State.finish, Host.Outcome.next.injEq, Except.ok.injEq]
    constructor
    · rintro rfl; simp
    · rintro ⟨rfl, h2⟩; exact h2.symm

/-- When an instruction faults. -/
theorem exec_fault_iff {i : Instr} {s : State} {f : Fault} :
    exec i s = .fault f ↔ regsAfter i s.cfg s.ports s.regs = .error f := by
  rw [exec_eq]
  cases h : regsAfter i s.cfg s.ports s.regs <;> simp [State.finish]

/-- No instruction refuses. -/
theorem exec_not_refused (i : Instr) (s : State) (e : Refusal) : exec i s ≠ .refused e := by
  rw [exec_eq]
  cases h : regsAfter i s.cfg s.ports s.regs <;> simp [State.finish]

/-- A classified line has the effect of its record's instruction. -/
theorem exec_toInstr (rec : Record) (via : Via) (s : State) :
    exec (rec.toInstr via) s = s.finish (applyRecord s.cfg via rec s.regs) := by
  cases rec <;> rfl

/-- `RX_BYTE` where the unit listens. -/
theorem exec_rxByte (b : Byte) (s : State) : exec (.rxByte b) s = s.finish (rxByteRegs s.cfg b s.regs) := rfl

/-- Running two lists of instructions, one after the other. -/
theorem runInstrs_append (a b : List Instr) (s : State) :
    runInstrs (a ++ b) s = match runInstrs a s with
      | .next t => runInstrs b t
      | .fault f => .fault f
      | .refused e => .refused e := by
  induction a generalizing s with
  | nil => rfl
  | cons i a ih =>
    simp only [List.cons_append, runInstrs]
    cases exec i s <;> simp [ih]

@[simp] theorem runInstrs_one (i : Instr) (s : State) : runInstrs [i] s = exec i s := by
  simp only [runInstrs]; cases exec i s <;> rfl

/-! ### What a record can do -/

/-- What an instruction that brings a record can do to the registers. -/
inductive RecordEffect (cfg : Config) (r r' : Regs) : Prop where
  /-- It is discarded. -/
  | same (h : r' = r)
  /-- `R` on a slave in Run. -/
  | restart (hp : r.phase = .run) (hr : r.role = .slave) (h : applyRestart r = .ok r')
  /-- `Z` on a slave in Run. -/
  | step (hp : r.phase = .run) (hr : r.role = .slave) (h : applyStep r = .ok r')
  /-- `C` on a slave in Run. -/
  | speed (hp : r.phase = .run) (hr : r.role = .slave) (v : Word) (h : r' = applySetSpeed v r)
  /-- `Q` from the line source in Load. -/
  | header (hp : r.phase = .load) (hm : r.mode = .dimmer) (id n : Word) (h : r' = qLine cfg id n r)
  /-- `S` from the line source in Load. -/
  | stepLine (hp : r.phase = .load) (hm : r.mode = .dimmer) (st : DimStep) (h : sLine cfg st r = .ok r')

theorem hearsEvents_iff {via : Via} {r : Regs} :
    hearsEvents via r = true ↔ r.phase = .run ∧ r.role = .slave ∧ via = .wire := by
  simp [hearsEvents, and_assoc]

theorem hearsSequence_iff {cfg : Config} {via : Via} {r : Regs} :
    hearsSequence cfg via r = true ↔ r.phase = .load ∧ r.mode = .dimmer ∧ r.dimSource cfg = viaSource via := by
  simp [hearsSequence, and_assoc]

theorem hearsLoader_iff {cfg : Config} {r : Regs} :
    hearsLoader cfg r = true ↔ r.phase = .load ∧ r.dimSource cfg = .loader := by
  simp [hearsLoader]

/-- The loader and the wire are sources in Dimmer mode only (R116). -/
theorem dimSource_mode {cfg : Config} {r : Regs} {via : Via} (h : r.dimSource cfg = viaSource via) :
    r.mode = .dimmer := by
  cases hm : r.mode
  · cases via <;> simp [Regs.dimSource, hm, viaSource] at h
  · rfl

theorem applyRecord_effect {cfg : Config} {via : Via} {rec : Record} {r r' : Regs}
    (h : applyRecord cfg via rec r = .ok r') : RecordEffect cfg r r' := by
  cases rec with
  | r =>
    simp only [applyRecord, recordR] at h
    split at h
    · rename_i hh; rw [hearsEvents_iff] at hh; exact .restart hh.1 hh.2.1 h
    · cases h; exact .same rfl
  | z =>
    simp only [applyRecord, recordZ] at h
    split at h
    · rename_i hh; rw [hearsEvents_iff] at hh; exact .step hh.1 hh.2.1 h
    · cases h; exact .same rfl
  | c v =>
    cases v with
    | none => simp only [applyRecord, recordC] at h; cases h; exact .same rfl
    | some v =>
      simp only [applyRecord, recordC] at h
      split at h
      · rename_i hh; rw [hearsEvents_iff] at hh; cases h; exact .speed hh.1 hh.2.1 v rfl
      · cases h; exact .same rfl
  | q hd =>
    cases hd with
    | none => simp only [applyRecord, recordQ] at h; cases h; exact .same rfl
    | some p =>
      obtain ⟨id, n⟩ := p
      simp only [applyRecord, recordQ] at h
      split at h
      · rename_i hh; rw [hearsSequence_iff] at hh; cases h; exact .header hh.1 hh.2.1 id n rfl
      · cases h; exact .same rfl
  | s st =>
    cases st with
    | none => simp only [applyRecord, recordS] at h; cases h; exact .same rfl
    | some st =>
      simp only [applyRecord, recordS] at h
      split at h
      · rename_i hh; rw [hearsSequence_iff] at hh; exact .stepLine hh.1 hh.2.1 st h
      · cases h; exact .same rfl

theorem processLine_effect {cfg : Config} {via : Via} {line : List Byte} {r r' : Regs}
    (h : processLine cfg via line r = .ok r') : RecordEffect cfg r r' := by
  unfold processLine at h
  split at h
  · exact applyRecord_effect h
  · cases h; exact .same rfl

/-- What `LOAD_LINE` can do to the registers (R215). -/
theorem loadLine_effect {cfg : Config} {line : List Byte} {r r' : Regs}
    (h : (if hearsLoader cfg r then consumeLine cfg line r else .ok r) = .ok r') : RecordEffect cfg r r' := by
  split at h
  · unfold consumeLine at h
    split at h
    · exact processLine_effect h
    · cases h; exact .same rfl
  · cases h; exact .same rfl

/-- What `RX_BYTE` can do to the registers (R230, R231). -/
theorem rxByte_effect {cfg : Config} {b : Byte} {r r' : Regs} (h : rxByteRegs cfg b r = .ok r') :
    r' = r
    ∨ (r.listens = true ∧ b ≠ cfg.term ∧ r.rxBuf.length < cfg.lineMax ∧ r' = { r with rxBuf := r.rxBuf ++ [b] })
    ∨ (r.listens = true ∧ r' = r.noteOverlong)
    ∨ (r.listens = true ∧ RecordEffect cfg r.clearRx r') := by
  unfold rxByteRegs at h
  split at h
  · rename_i hl
    split at h
    · split at h
      · cases h; exact .inr (.inr (.inr ⟨hl, .same rfl⟩))
      · exact .inr (.inr (.inr ⟨hl, processLine_effect h⟩))
    · rename_i hb
      split at h
      · rename_i hlen; cases h; exact .inr (.inl ⟨hl, hb, hlen, rfl⟩)
      · cases h; exact .inr (.inr (.inl ⟨hl, rfl⟩))
  · cases h; exact .inl rfl

/-- A record never touches what belongs to the edge and slice handlers, to the master or to the boot. -/
theorem RecordEffect.keeps {cfg : Config} {r r' : Regs} (h : RecordEffect cfg r r') :
    r'.sel = r.sel ∧ r'.mode = r.mode ∧ r'.role = r.role ∧ r'.localData = r.localData
    ∧ r'.delay = r.delay ∧ r'.snap = r.snap ∧ r'.sliceCount = r.sliceCount
    ∧ r'.evq = r.evq ∧ r'.syncOverrun = r.syncOverrun ∧ r'.speedDirty = r.speedDirty
    ∧ r'.rxBuf = r.rxBuf ∧ r'.rxOvf = r.rxOvf
    ∧ r'.chaseValid = r.chaseValid ∧ r'.chaseLen = r.chaseLen ∧ r'.chaseTab = r.chaseTab := by
  cases h with
  | same h => subst h; simp
  | restart _ _ h => rw [(applyRestart_ok h).1]; simp
  | step _ _ h => rw [(applyStep_ok h).1]; simp
  | speed _ _ v h => subst h; simp [applySetSpeed]
  | header _ _ id n h =>
    subst h
    rcases qLine_cases cfg id n r with h | ⟨_, _, h⟩ | ⟨_, _, h⟩ | ⟨_, _, _, h⟩ <;> rw [h]
    · simp
    · rw [(raise_only _ _).1]; simp
    · rw [(raise_only _ _).1]; simp
    · simp
  | stepLine _ _ st h =>
    rcases sLine_ok h with ⟨_, rfl⟩ | ⟨_, _, ⟨_, rfl⟩ | ⟨_, rfl⟩⟩ <;> simp

/-- In Run a record moves the step pointer, the speed and the outputs, and nothing else (R90, R114). -/
theorem RecordEffect.run {cfg : Config} {r r' : Regs} (h : RecordEffect cfg r r') (hp : r.phase = .run) :
    r' = { r with currentStep := r'.currentStep, tickCount := r'.tickCount, speedParam := r'.speedParam,
                  out := r'.out } := by
  cases h with
  | same h => subst h; rfl
  | restart _ _ h => have e := (applyRestart_ok h).1; rw [e]
  | step _ _ h => have e := (applyStep_ok h).1; rw [e]
  | speed _ _ v h => subst h; rfl
  | header h => rw [hp] at h; cases h
  | stepLine h => rw [hp] at h; cases h

end Sys2Proof.Machine
end

