-- ==== Sys2Proof/Laws/PerInstr.lean ====
section
/-! SUPPORT. Statements made of every instruction as syntax, one lemma per constructor. -/

namespace Sys2Proof.Laws

/-- Value on which the table selects the row of an instruction: the first payload byte of a record (R107), the
operation code of an operation (R120). -/
def rowValue : Instr → Nat
  | .recR _ => 0x52
  | .recZ _ => 0x5A
  | .recC _ _ => 0x43
  | .recQ _ _ => 0x51
  | .recS _ _ => 0x53
  | .reset => 0
  | .bootSample => 1
  | .loadLine _ => 2
  | .loadEnd => 3
  | .srcAbsent => 4
  | .start => 5
  | .zcEdge => 6
  | .sliceTick => 7
  | .rxByte _ => 8
  | .txService => 9
  | .read => 10
  | .reserved11 => 11
  | .reserved12 => 12
  | .reserved13 => 13
  | .reserved14 => 14
  | .reserved15 => 15

/-- Value a request is selected by: its code, or the first byte of its line. -/
def requestValue : Request → Option Nat
  | .op code _ => some code.toNat
  | .line _ [] => none
  | .line _ (b :: _) => some b.toNat

end Sys2Proof.Laws

/-- The encoder puts an instruction under the value of its row in the opcode table. -/
def Sys2Proof.Laws.EncodingTag.Statement (i : Sys2Proof.Instr) : Prop :=
  Sys2Proof.Laws.requestValue (Sys2Proof.encode i) = some (Sys2Proof.Laws.rowValue i)

namespace Sys2Proof.Laws.EncodingTag

theorem recR (via : Via) : Statement (.recR via) := rfl
theorem recZ (via : Via) : Statement (.recZ via) := rfl
theorem recC (via : Via) (value : Option Word) : Statement (.recC via value) := by cases value <;> rfl
theorem recQ (via : Via) (header : Option (Word × Word)) : Statement (.recQ via header) := by
  cases header <;> rfl
theorem recS (via : Via) (step : Option DimStep) : Statement (.recS via step) := by cases step <;> rfl
theorem reset : Statement .reset := rfl
theorem bootSample : Statement .bootSample := rfl
theorem loadLine (line : List Byte) : Statement (.loadLine line) := rfl
theorem loadEnd : Statement .loadEnd := rfl
theorem srcAbsent : Statement .srcAbsent := rfl
theorem start : Statement .start := rfl
theorem zcEdge : Statement .zcEdge := rfl
theorem sliceTick : Statement .sliceTick := rfl
theorem rxByte (b : Byte) : Statement (.rxByte b) := rfl
theorem txService : Statement .txService := rfl
theorem read : Statement .read := rfl
theorem reserved11 : Statement .reserved11 := rfl
theorem reserved12 : Statement .reserved12 := rfl
theorem reserved13 : Statement .reserved13 := rfl
theorem reserved14 : Statement .reserved14 := rfl
theorem reserved15 : Statement .reserved15 := rfl

end Sys2Proof.Laws.EncodingTag
end

