-- ==== Sys2Proof/Laws/Schedule.lean ====
section
/-! SUPPORT. What the schedule can do: which pending request a step performs, and what presenting the next instant
changes. -/

namespace Sys2Proof.Machine

@[simp] theorem State.arrive_cfg (s : State) : s.arrive.cfg = s.cfg := by unfold State.arrive; split <;> rfl
@[simp] theorem State.arrive_regs (s : State) : s.arrive.regs = s.regs := by unfold State.arrive; split <;> rfl
@[simp] theorem State.arrive_tx (s : State) : s.arrive.tx = s.tx := by unfold State.arrive; split <;> rfl
@[simp] theorem State.arrive_readData (s : State) : s.arrive.readData = s.readData := by
  unfold State.arrive; split <;> rfl

/-- The classes are 0 to 3. -/
theorem Request.priority_le (q : Request) : Request.priority q ≤ 3 := by
  cases q with
  | op code operand => simp only [Request.priority]; split_ifs <;> omega
  | line via payload => simp [Request.priority]

/-- What `takeClass` answers. -/
theorem takeClass_some {k : Nat} {l : List Request} {q : Request} {rest : List Request}
    (h : takeClass k l = some (q, rest)) :
    ∃ a b, l = a ++ q :: b ∧ rest = a ++ b ∧ Request.priority q = k ∧ ∀ q' ∈ a, Request.priority q' ≠ k := by
  induction l generalizing rest with
  | nil => simp [takeClass] at h
  | cons x l ih =>
    unfold takeClass at h
    split at h
    · rename_i hx
      cases h
      exact ⟨[], l, rfl, rfl, hx, by simp⟩
    · rename_i hx
      split at h
      · rename_i q' rest' h'
        cases h
        obtain ⟨a, b, rfl, rfl, h1, h2⟩ := ih h'
        exact ⟨x :: a, b, rfl, rfl, h1, by simpa using ⟨hx, h2⟩⟩
      · cases h

/-- When `takeClass` answers nothing. -/
theorem takeClass_none {k : Nat} {l : List Request} (h : takeClass k l = none) :
    ∀ q ∈ l, Request.priority q ≠ k := by
  induction l with
  | nil => simp
  | cons x l ih =>
    unfold takeClass at h
    split at h
    · cases h
    · rename_i hx
      split at h
      · cases h
      · rename_i h'
        simpa using ⟨hx, ih h'⟩

/-- What `pick` answers. -/
theorem pick_some {l : List Request} {q : Request} {rest : List Request} (h : pick l = some (q, rest)) :
    ∃ a b, l = a ++ q :: b ∧ rest = a ++ b ∧ (∀ q' ∈ a, Request.priority q' ≠ Request.priority q)
      ∧ ∀ q' ∈ l, Request.priority q ≤ Request.priority q' := by
  unfold pick at h
  split at h
  · rename_i p h0
    cases h
    obtain ⟨a, b, hl, hr, hk, hn⟩ := takeClass_some h0
    exact ⟨a, b, hl, hr, by rw [hk]; exact hn, fun q' _ => by omega⟩
  · rename_i h0
    have n0 := takeClass_none h0
    split at h
    · rename_i p h1
      cases h
      obtain ⟨a, b, hl, hr, hk, hn⟩ := takeClass_some h1
      exact ⟨a, b, hl, hr, by rw [hk]; exact hn, fun q' hq' => by have := n0 q' hq'; omega⟩
    · rename_i h1
      have n1 := takeClass_none h1
      split at h
      · rename_i p h2
        cases h
        obtain ⟨a, b, hl, hr, hk, hn⟩ := takeClass_some h2
        exact ⟨a, b, hl, hr, by rw [hk]; exact hn,
          fun q' hq' => by have := n0 q' hq'; have := n1 q' hq'; omega⟩
      · rename_i h2
        have n2 := takeClass_none h2
        obtain ⟨a, b, hl, hr, hk, hn⟩ := takeClass_some h
        exact ⟨a, b, hl, hr, by rw [hk]; exact hn,
          fun q' hq' => by
            have := n0 q' hq'; have := n1 q' hq'; have := n2 q' hq'; omega⟩

/-- `pick` answers nothing on an empty list only. -/
theorem pick_none {l : List Request} (h : pick l = none) : l = [] := by
  unfold pick at h
  split at h
  · cases h
  · rename_i h0
    split at h
    · cases h
    · rename_i h1
      split at h
      · cases h
      · rename_i h2
        cases l with
        | nil => rfl
        | cons q l =>
          have a0 := takeClass_none h0 q (by simp)
          have a1 := takeClass_none h1 q (by simp)
          have a2 := takeClass_none h2 q (by simp)
          have a3 := takeClass_none h q (by simp)
          have := Request.priority_le q
          omega

/-- All that a step can do. -/
theorem step_cases {s t : State} (h : step s = .next t) :
    t = s.arrive
    ∨ ∃ q rest, pick s.arrive.pending = some (q, rest)
        ∧ (t = { s.arrive with pending := rest }
          ∨ ∃ i, decode s.cfg q = .ok i ∧ exec i { s.arrive with pending := rest } = .next t) := by
  unfold step at h
  split at h
  · cases h; exact .inl rfl
  · rename_i q rest hp
    refine .inr ⟨q, rest, hp, ?_⟩
    unfold perform at h
    rw [show ({ s.arrive with pending := rest } : State).cfg = s.cfg from State.arrive_cfg s] at h
    split at h
    · rename_i i hi; exact .inr ⟨i, hi, h⟩
    · rename_i e he
      left
      cases e <;> simp_all [disposeOf]

end Sys2Proof.Machine
end

