-- ==== Sys2Proof/Tests/Slice0.lean ====
section
/-! SUPPORT. Tests: ill-formed terms are refused, words written out from the spec's encodings decode, one or two
steps per instruction with results taken from the spec's examples and test vectors, and for every obligation with
hypotheses a concrete state and operands that meet them. -/

namespace Sys2Proof.Tests

open Sys2Proof.Machine

/-! ### Well-formedness -/

theorem test_wf_refuses_term_in_line :
    (Instr.loadLine [0x51#8, 0x0A#8, 0x52#8]).wellFormed Config.default = false := by decide

theorem test_wf_refuses_zero_duration :
    (Instr.recS .wire (some ⟨0#8, .all 1#8, .all 2#8⟩)).wellFormed Config.default = false := by decide

theorem test_wf_accepts_line_and_step :
    (Instr.loadLine [0x51#8, 0x20#8, 0x52#8]).wellFormed Config.default = true
    ∧ (Instr.recS .wire (some ⟨1#8, .all 1#8, .all 2#8⟩)).wellFormed Config.default = true := by decide

/-- Parameters that break each constraint of R6 in turn. -/
theorem test_config_constraints :
    Config.default.wf = true
    ∧ { Config.default with sliceBudget := 0 }.wf = false ∧ { Config.default with sliceBudget := 65535 }.wf = false
    ∧ { Config.default with keepout := some (60, 120) }.wf = false
    ∧ { Config.default with keepout := some (61, 60) }.wf = false
    ∧ { Config.default with dimScaleTable := [(0#8, 1#16, 1#16)] }.wf = false
    ∧ { Config.default with dimScaleTable := [(1#8, 1#16, 0#16)] }.wf = false
    ∧ { Config.default with dimBuiltinLimit := 239 }.wf = false
    ∧ { Config.default with dimBuiltinLimit := 257 }.wf = false
    ∧ { Config.default with dimCap := 0 }.wf = false ∧ { Config.default with lineMax := 68 }.wf = false
    ∧ { Config.default with dimRom := [(240#8, [⟨0#8, .all 0#8, .all 0#8⟩])] }.wf = false
    ∧ { Config.default with evqDepth := 3 }.wf = false := by decide

/-! ### Words written out from the encodings -/

/-- `R`, `Z`, `C`, `Q`, `S` as first byte of a line, bit by bit (R102 to R107). -/
theorem test_decode_records :
    decodeTableWord 8 0b01010010 = some (.recR .wire) ∧ decodeTableWord 8 0b01011010 = some (.recZ .wire)
    ∧ decodeTableWord 8 0b01000011 = some (.recC .wire none)
    ∧ decodeTableWord 8 0b01010001 = some (.recQ .wire none)
    ∧ decodeTableWord 8 0b01010011 = some (.recS .wire none) := by decide

/-- Codes 0 to 15 (R120). -/
theorem test_decode_operations :
    (List.range 16).map (decodeTableWord 4) = [some .reset, some .bootSample, some (.loadLine []), some .loadEnd,
      some .srcAbsent, some .start, some .zcEdge, some .sliceTick, some (.rxByte 0#8), some .txService, some .read,
      some .reserved11, some .reserved12, some .reserved13, some .reserved14, some .reserved15] := by decide

/-- The text of a line as bytes. -/
def text (s : String) : List Byte := s.toList.map fun c => BitVec.ofNat 8 c.toNat

/-- `C25`, `C  25`, `C 25 ` and `C 007` are accepted; `C abc`, `C`, `C 1 2` and `C 70000` are malformed (R108,
R110, R247). -/
theorem test_decode_speed :
    ["C25", "C  25", "C 25 ", "C 007", "C abc", "C", "C 1 2", "C 70000", "C 65535"].map
      (fun s => decodeLine (text s)) = [some 25#16, some 25#16, some 25#16, some 7#16, none, none, none, none,
        some 65535#16].map (fun v => .ok (.c v)) := by decide

/-- The step of R255's example: token 0 is the duration, then start and stop alternate. -/
theorem test_decode_step :
    decodeLine (text "S 4 0 255 3 4 5 6 7 8 9 10 11 12 13 14 15 16")
      = .ok (.s (some ⟨4#8, ⟨0#8, 3#8, 5#8, 7#8, 9#8, 11#8, 13#8, 15#8⟩,
          ⟨255#8, 4#8, 6#8, 8#8, 10#8, 12#8, 14#8, 16#8⟩⟩))
    ∧ decodeLine (text "S 0 0 255 3 4 5 6 7 8 9 10 11 12 13 14 15 16") = .ok (.s none)
    ∧ decodeLine (text "S 4 0 256 3 4 5 6 7 8 9 10 11 12 13 14 15 16") = .ok (.s none)
    ∧ decodeLine (text "S abc") = .ok (.s none) ∧ decodeLine (text "r") = .error .unknownLine
    ∧ decodeLine [] = .error .unknownLine := by decide

/-- `Q 240 2` (R105), and the lines the decoder refuses by name. -/
theorem test_decode_header :
    decodeLine (text "Q 240 2") = .ok (.q (some (240#16, 2#16)))
    ∧ decode Config.default (.line .wire [0x52#8, 0x0A#8]) = .error .terminatorInside
    ∧ decode Config.default (.op 8#4 []) = .error .badOperand
    ∧ decode Config.default (.op 0#4 [1#8]) = .error .badOperand
    ∧ decode Config.default (.op 15#4 [0x0A#8, 1#8]) = .ok .reserved15
    ∧ decode { Config.default with lineMax := 1 } (.line .wire (text "RR")) = .error .overlongLine := by decide

/-! ### Small states -/

/-- The state after an instruction that completes. -/
def after (i : Instr) (s : State) : Option State :=
  match exec i s with
  | .next t => some t
  | _ => none

/-- The registers after it. -/
def regsOf (i : Instr) (s : State) : Option Regs := (after i s).map State.regs

/-- A unit in Chase mode right after `START(10)` with the patterns of V20 to V27. -/
def chaseRun (role : Role) : State :=
  { State.reset with regs := { Regs.atReset with
      phase := .run, role := role, chaseValid := true, chaseLen := 3#16, chaseTab := [0xAA#8, 0x55#8, 0x0F#8],
      zcArmed := true, out := 0x55#8 } }

/-- The step `{dur 4, ch0 (0,255), others (0,0)}` of R156. -/
def ramp : DimStep := ⟨4#8, .all 0#8, ⟨255#8, 0#8, 0#8, 0#8, 0#8, 0#8, 0#8, 0#8⟩⟩

/-- A unit in Dimmer mode right after `START(10)`. -/
def dimRun (role : Role) : State :=
  { State.reset with regs := { Regs.atReset with
      phase := .run, sel := 240#8, mode := .dimmer, role := role, dimValid := true, dimLen := 2#16,
      dimTab := [ramp, ramp], zcArmed := true } }

/-- A unit in Load whose line source is the loader. -/
def loading (role : Role) : State :=
  { State.reset with regs := { Regs.atReset with
      phase := .load, sel := 240#8, mode := .dimmer, role := role, localData := true } }

/-- The same with a block of `n` steps open and `k` of them staged. -/
def filling (k n : Nat) : State :=
  { loading .master with regs := { (loading .master).regs with
      ldMatch := true, ldExpect := BitVec.ofNat 16 n, ldFill := BitVec.ofNat 16 k,
      stage := (List.range k).map fun i => (i, ramp) } }

/-- Between an accepted edge and the re-arm, with the given count and delays. -/
def held (s : State) (count : Nat) (d : Lanes Byte) (out : Byte) : State :=
  { s with regs := { s.regs with
      zcArmed := false, sliceAttached := true, sliceCount := BitVec.ofNat 16 count, delay := d, snap := d,
      out := out } }

/-- A unit in Boot with the given inputs and one sequence of each kind compiled in. -/
def booting (sel : Byte) (role : Role) (localIn : Bool) : State :=
  { State.reset with
    cfg := { Config.default with
      chaseRom := [(0#8, [0xAA#8, 0x55#8]), (239#8, [])], dimBuiltinLimit := 244, dimCap := 1,
      dimRom := [(240#8, [ramp]), (241#8, []), (242#8, [ramp, ramp])] }
    ports := ⟨10#16, sel, role, localIn⟩ }

/-- Changes to the registers of a state. -/
def withRegs (s : State) (f : Regs → Regs) : State := { s with regs := f s.regs }

/-! ### One step each -/

/-- The state of R140's example, before its tenth edge. -/
def ninth : State := withRegs (chaseRun .master) fun r => { r with tickCount := 9#16 }

/-- R140's example: the tenth edge. -/
theorem test_zcEdge_boundary :
    (regsOf .zcEdge ninth).map (fun r => (r.tickCount, r.currentStep, r.out, r.evq))
      = some (0#16, 1#16, 0xAA#8, [.step none])
    ∧ (regsOf .zcEdge ninth).map (fun r => (r.zcArmed, r.sliceAttached, r.sliceCount)) = some (false, true, 0#16) := by
  decide

/-- R156's example. -/
theorem test_zcEdge_arms :
    (regsOf .zcEdge (withRegs (dimRun .master) fun r => { r with tickCount := 1#16 })).map
      (fun r => (r.tickCount, r.delay, r.snap.c0, r.out))
    = some (2#16, ⟨128#8, 255#8, 255#8, 255#8, 255#8, 255#8, 255#8, 255#8⟩, 128#8, 0xFF#8) := by decide

/-- R180's example. -/
theorem test_sliceTick_countdown :
    (regsOf .sliceTick (held (dimRun .master) 0 ⟨2#8, 0#8, 255#8, 1#8, 255#8, 255#8, 255#8, 255#8⟩ 0xFD#8)).map
      (fun r => (r.sliceCount, r.delay, r.out))
    = some (1#16, ⟨1#8, 0#8, 254#8, 0#8, 254#8, 254#8, 254#8, 254#8⟩, 0xF5#8) := by decide

/-- V23: tick 121 re-arms and leaves a chase pattern alone. -/
theorem test_sliceTick_rearms :
    (regsOf .sliceTick (held (chaseRun .master) 120 (.all 0#8) 0x55#8)).map
      (fun r => (r.sliceCount, r.zcArmed, r.sliceAttached, r.out)) = some (0#16, true, false, 0x55#8) := by decide

/-- R245's example. -/
theorem test_recR :
    (regsOf (.recR .wire) (withRegs (chaseRun .slave) fun r =>
      { r with currentStep := 2#16, tickCount := 7#16, out := 0xF0#8 })).map
      (fun r => (r.currentStep, r.tickCount, r.out)) = some (0#16, 0#16, 0x55#8) := by decide

/-- R246: a `Step` wraps at the last index. -/
theorem test_recZ :
    (regsOf (.recZ .wire) (withRegs (chaseRun .slave) fun r => { r with currentStep := 2#16 })).map
      (fun r => (r.currentStep, r.out)) = some (0#16, 0x55#8)
    ∧ (regsOf (.recZ .wire) (chaseRun .slave)).map (fun r => (r.currentStep, r.out)) = some (1#16, 0xAA#8) := by
  decide

/-- R247's example. -/
theorem test_recC : (regsOf (.recC .wire (some 25#16)) (chaseRun .slave)).map Regs.speedParam = some 25#16 := by decide

/-- R252's example. -/
theorem test_recQ :
    (regsOf (.recQ .loader (some (240#16, 2#16))) (loading .master)).map
      (fun r => (r.ldMatch, r.ldExpect, r.ldFill)) = some (true, 2#16, 0#16) := by decide

/-- R255, R256: the second of two steps commits. -/
theorem test_recS :
    (regsOf (.recS .loader (some ramp)) (filling 1 2)).map
      (fun r => (r.dimTab, r.dimLen, r.dimValid, r.ldMatch, r.ldFill)) = some ([ramp, ramp], 2#16, true, false, 0#16) := by
  decide

/-- R270's example. -/
theorem test_reset :
    (regsOf .reset (chaseRun .master)).map (fun r => (r.phase, r.out, r.zcArmed, r.evq, r.err))
      = some (.boot, 0x00#8, false, [], .none) := by decide

/-- R271's example. -/
theorem test_bootSample :
    (regsOf .bootSample (booting 0#8 .master false)).map (fun r => (r.mode, r.phase, r.chaseValid, r.chaseLen))
      = some (.chase, .load, true, 2#16) := by decide

/-- R215's example: relayed, not matched. -/
theorem test_loadLine :
    (after (.loadLine (text "Q 241 3")) (loading .master)).map (fun t => (t.tx, t.regs.ldMatch))
      = some (text "Q 241 3\n", false) := by decide

/-- R274: no complete block was found. -/
theorem test_loadEnd :
    (regsOf .loadEnd (filling 1 2)).map (fun r => (r.err, r.phase, r.ldMatch))
      = some (.unknownSequenceId, .load, false) := by decide

/-- R275. -/
theorem test_srcAbsent :
    (regsOf .srcAbsent (loading .slave)).map (fun r => (r.err, r.phase)) = some (.configurationAbsent, .fatal) := by decide

/-- A chase unit in Load (R276). -/
def ready : State := withRegs (chaseRun .master) fun r =>
  { r with phase := .load, zcArmed := false, out := 0x00#8, speedParam := 2#16 }

/-- R276's example. -/
theorem test_start :
    (regsOf .start ready).map (fun r => (r.phase, r.out, r.speedParam, r.zcArmed)) = some (.run, 0x55#8, 10#16, true) := by
  decide

/-- R230's example, second byte. -/
theorem test_rxByte :
    (regsOf (.rxByte 0x0A#8) (withRegs (chaseRun .slave) fun r => { r with rxBuf := [0x5A#8] })).map
      (fun r => (r.rxBuf, r.currentStep, r.out)) = some ([], 1#16, 0xAA#8) := by decide

/-- R211's example. -/
theorem test_txService :
    (after .txService (withRegs (chaseRun .master) fun r => { r with evq := [.step (some 25#16)] })).map
      (fun t => (t.tx, t.regs.evq)) = some ([0x5A#8, 0x0A#8, 0x43#8, 0x20#8, 0x32#8, 0x35#8, 0x0A#8], []) := by decide

/-- R279. -/
theorem test_read :
    (after .read (chaseRun .slave)).map State.readData = some (some (chaseRun .slave).regs) := by decide

/-- R120: a reserved code changes nothing. -/
theorem test_reserved :
    after .reserved11 (chaseRun .slave) = some (chaseRun .slave) ∧ after .reserved12 (chaseRun .slave) = some (chaseRun .slave)
    ∧ after .reserved13 (chaseRun .slave) = some (chaseRun .slave) ∧ after .reserved14 (chaseRun .slave) = some (chaseRun .slave)
    ∧ after .reserved15 (chaseRun .slave) = some (chaseRun .slave) := by decide

/-- R152: 0, 63, 127, 191, 255 and the falling ramp's 192. -/
theorem test_interp :
    (List.range 5).map (fun t => interp 0#8 255#8 t 4) = [0, 63, 127, 191, 255] ∧ interp 255#8 0#8 1 4 = 192 := by decide

/-- The step fetches, decodes and performs the one presented word. -/
theorem test_step_runs_word :
    (match step ((chaseRun .master).withFetchWord 8 6) with
      | .next t => some (t.regs.tickCount, t.regs.sliceAttached, t.pending)
      | _ => none) = some (1#16, true, []) := by decide

/-! ### Witnesses: the hypotheses of every obligation that has any -/

/-- A state with one request pending. -/
def asked (s : State) (q : Request) : State := { s with pending := [q] }

theorem witness_DecodeEncodeAgree :
    Config.default.wf = true ∧ Config.default.termPlain = true
    ∧ (Instr.recS .loader (some ramp)).wellFormed Config.default = true
    ∧ (Instr.recC .wire (some 65535#16)).wellFormed Config.default = true
    ∧ (Instr.loadLine [0x53#8, 0x20#8]).wellFormed Config.default = true := by decide

/-- A decoded line; an unknown first byte; a line of `LINE_MAX` bytes and one of one more; and a value of each record
with operands. -/
theorem witness_DecodedIsWellFormed :
    decode Config.default (.line .wire (text "C 25")) = .ok (.recC .wire (some 25#16))
    ∧ 0x72#8 ∉ [0x52#8, 0x5A#8, 0x43#8, 0x51#8, 0x53#8]
    ∧ Config.default.term ∉ text "RR" ∧ { Config.default with lineMax := 1 }.lineMax < (text "RR").length
    ∧ (text "RR").length ≤ { Config.default with lineMax := 2 }.lineMax
    ∧ decodeC (text " 65535") = some 65535#16 ∧ decodeQ (text " 240 2") = some (240#16, 2#16)
    ∧ decodeS (text " 4 0 255 0 0 0 0 0 0 0 0 0 0 0 0 0 0") = some ramp := by decide

/-- The last code that names an operation and the first that names none. -/
theorem witness_OperationRequestUnique :
    decode Config.default (.op 8#4 [0x5A#8]) = .ok (.rxByte 0x5A#8) ∧ decode Config.default (.op 10#4 []) = .ok .read
    ∧ (10#4).toNat < 11 ∧ decode Config.default (.op 11#4 [1#8]) = .ok .reserved11 ∧ 11 ≤ (11#4).toNat := by decide

theorem witness_DecimalReadsBack :
    parseInt (text "007") = some 7 ∧ (dec (0#16 : Word).toNat).head? = some 0x30#8 := by decide

theorem witness_TokensCutAtSpaces :
    text "25" ≠ [] ∧ 0x20#8 ∉ text "25" ∧ text "25" ∈ tokens (text "  25 1") := by decide

theorem witness_StepRunsDecodedRequest :
    (chaseRun .master).arrivals = []
    ∧ { chaseRun .master with arrivals := [⟨⟨25#16, 0#8, .slave, false⟩, [.op 9#4 []]⟩] }.arrivals
        = ⟨⟨25#16, 0#8, .slave, false⟩, [.op 9#4 []]⟩ :: []
    ∧ pick (State.arrive (asked (chaseRun .master) (.op 6#4 []))).pending = some (.op 6#4 [], [])
    ∧ decode (asked (chaseRun .master) (.op 6#4 [])).cfg (.op 6#4 []) = .ok .zcEdge
    ∧ Instr.zcEdge.wellFormed (asked (chaseRun .master) (.op 6#4 [])).cfg = true := by decide

/-- Each clause: nothing requested, an unknown line, a line one byte over `LINE_MAX`. -/
theorem witness_StepWithoutInstruction :
    (chaseRun .slave).pending = [] ∧ (chaseRun .slave).arrivals = []
    ∧ pick (State.arrive (asked (chaseRun .slave) (.line .wire [0x58#8]))).pending = some (.line .wire [0x58#8], [])
    ∧ decode Config.default (.line .wire [0x58#8]) = .error .unknownLine
    ∧ pick (State.arrive (asked (chaseRun .slave) (.line .wire (List.replicate 129 0x52#8)))).pending
        = some (.line .wire (List.replicate 129 0x52#8), [])
    ∧ decode Config.default (.line .wire (List.replicate 129 0x52#8)) = .error .overlongLine :=
  ⟨rfl, rfl, rfl, rfl, rfl, by simp [decode, Config.default]⟩

theorem witness_PriorityOrder :
    9#4 ∉ [0#4, 6#4, 7#4]
    ∧ [Request.op 9#4 [], .op 7#4 [], .op 6#4 []] ≠ []
    ∧ pick [.op 9#4 [], .op 7#4 [], .op 6#4 []] = some (.op 6#4 [], [.op 9#4 [], .op 7#4 []]) := by decide

/-- A running master meets the invariant. -/
theorem inv_chaseRun : State.Inv (asked (chaseRun .master) (.op 6#4 [])) := by
  refine ⟨by decide, ?_⟩
  constructor
  case out_chase => exact fun _ _ => rfl
  case tick_lt => intro _ _ thr h h1; cases h; decide
  all_goals decide

/-- So does a unit that waits for its loader. -/
theorem inv_loading : State.Inv (loading .master) := by
  refine ⟨by decide, ?_⟩
  constructor
  case out_chase => intro h; cases h
  case tick_lt => intro h; cases h
  all_goals decide

theorem witness_StepKeepsInvariant :
    State.Inv (asked (chaseRun .master) (.op 6#4 []))
    ∧ (asked (chaseRun .master) (.op 6#4 [])).regs.role = .master
    ∧ Ports.speedInRange (State.arrive (asked (chaseRun .master) (.op 6#4 []))).ports
    ∧ Regs.speedInRange (asked (chaseRun .master) (.op 6#4 [])).regs
    ∧ ∃ t, step (asked (chaseRun .master) (.op 6#4 [])) = .next t :=
  ⟨inv_chaseRun, rfl, ⟨by decide, by decide⟩, ⟨by decide, by decide⟩, _, rfl⟩

/-- Both ends of the range of R10. -/
theorem test_speedInRange :
    (⟨10#16, 0#8, .slave, false⟩ : Ports).speedIn.toNat = fastest ∧ (300#16 : Word).toNat = slowest := by decide

/-- An entry nothing has written holds the named value, and writing it leaves the canonical form (assumption 9). -/
theorem test_stage_canonical :
    Stage.read State.reset.regs.stage 63 = blankStep ∧ Stage.write [(0, ramp)] 0 blankStep = []
    ∧ Stage.write [(0, ramp), (2, ramp)] 1 ramp = [(0, ramp), (1, ramp), (2, ramp)]
    ∧ State.reset.regs.stage.wf = true := by decide

theorem witness_InvariantNeverFaults :
    State.Inv (asked (chaseRun .master) (.op 6#4 [])) ∧ memReadChase (chaseRun .master).regs 2 = .ok 0x0F#8
    ∧ memReadDim (dimRun .master).regs 1 = .ok ramp := ⟨inv_chaseRun, rfl, rfl⟩

theorem witness_StepKeepsParametersAndSentBytes :
    ∃ t, step (asked (withRegs (chaseRun .master) fun r => { r with evq := [.restart] }) (.op 9#4 [])) = .next t :=
  ⟨_, rfl⟩

theorem witness_FatalHoldsEverything :
    (withRegs (chaseRun .master) fun r => { r with phase := .fatal }).regs.phase = .fatal ∧ Instr.start ≠ .reset := by
  decide

theorem witness_BootHoldsEverything :
    State.reset.regs.phase = .boot ∧ Instr.start ≠ .reset ∧ Instr.start ≠ .bootSample := by decide

theorem witness_RunKeepsTables :
    (chaseRun .master).regs.phase = .run ∧ Instr.zcEdge ≠ .reset ∧ ∃ t, exec .zcEdge (chaseRun .master) = .next t :=
  ⟨rfl, by decide, _, rfl⟩

theorem witness_ConfigurationLatchedOnce :
    Instr.bootSample ≠ .reset ∧ (Instr.bootSample = .bootSample → (loading .slave).regs.phase ≠ .boot)
    ∧ ∃ t, exec .bootSample (loading .slave) = .next t := ⟨by decide, by decide, _, rfl⟩

/-- Each of the four transitions is taken by some state. -/
theorem witness_PhaseTransitions :
    (∃ t, exec .reset (chaseRun .master) = .next t ∧ t.regs.phase ≠ (chaseRun .master).regs.phase)
    ∧ (∃ t, exec .bootSample (booting 0#8 .master false) = .next t
        ∧ t.regs.phase ≠ (booting 0#8 .master false).regs.phase)
    ∧ (∃ t, exec .start ready = .next t ∧ t.regs.phase ≠ ready.regs.phase)
    ∧ (∃ t, exec .srcAbsent (loading .slave) = .next t ∧ t.regs.phase ≠ (loading .slave).regs.phase) :=
  ⟨⟨_, rfl, by decide⟩, ⟨_, rfl, by decide⟩, ⟨_, rfl, by decide⟩, ⟨_, rfl, by decide⟩⟩

/-- A master at a step boundary with the queue full. -/
def full : State := withRegs ninth fun r => { r with evq := [.restart, .restart] }

/-- Each clause: the flag is set already, and it is set by this edge. -/
theorem witness_OverrunSticky :
    Instr.zcEdge ≠ .reset
    ∧ (∃ t, exec .zcEdge (withRegs full fun r => { r with syncOverrun := true }) = .next t)
    ∧ full.regs.syncOverrun = false ∧ ∃ t, exec .zcEdge full = .next t ∧ t.regs.syncOverrun = true :=
  ⟨by decide, ⟨_, rfl⟩, rfl, _, rfl, rfl⟩

theorem witness_EndpointNeverTouchesDelays :
    Instr.recZ .wire ≠ .reset ∧ Instr.recZ .wire ≠ .start ∧ Instr.recZ .wire ≠ .zcEdge
    ∧ Instr.recZ .wire ≠ .sliceTick ∧ (dimRun .slave).regs.phase = .run ∧ (dimRun .slave).regs.mode = .dimmer
    ∧ ∃ t, exec (.recZ .wire) (dimRun .slave) = .next t :=
  ⟨by decide, by decide, by decide, by decide, rfl, rfl, _, rfl⟩

theorem witness_RunRaisesNothing :
    (chaseRun .master).regs.phase = .run ∧ Instr.zcEdge ≠ .reset ∧ ∃ t, exec .zcEdge (chaseRun .master) = .next t :=
  ⟨rfl, by decide, _, rfl⟩

theorem witness_ServedQueueStaysSafe :
    ninth.regs.phase = .run ∧ ninth.regs.evq.length < ninth.cfg.evqDepth ∧ State.safe ninth
    ∧ ∃ t, exec .zcEdge ninth = .next t := ⟨rfl, by decide, ⟨rfl, by decide⟩, _, rfl⟩

/-- Each way of being disabled. -/
theorem witness_HandlersIgnoredWhenDisabled :
    (loading .slave).regs.phase ≠ .run ∧ (held (dimRun .master) 0 (.all 1#8) 0xFF#8).regs.zcArmed = false
    ∧ (chaseRun .master).regs.sliceAttached = false := by decide

/-- A state with the given step pointer and tick count. -/
def placed (s : State) (step tick : Nat) : State :=
  withRegs s fun r => { r with currentStep := BitVec.ofNat 16 step, tickCount := BitVec.ofNat 16 tick }

/-- Chase mode, and Dimmer mode, one tick below the threshold. -/
theorem witness_MasterEdgeWithinStep :
    ((placed (chaseRun .master) 0 8).regs.phase = .run ∧ (placed (chaseRun .master) 0 8).regs.zcArmed = true
      ∧ (placed (chaseRun .master) 0 8).regs.role = .master
      ∧ (placed (chaseRun .master) 0 8).regs.currentStep.toNat < (placed (chaseRun .master) 0 8).regs.seqLen
      ∧ (placed (chaseRun .master) 0 8).regs.readable (placed (chaseRun .master) 0 8).regs.currentStep.toNat
      ∧ 10 = (placed (chaseRun .master) 0 8).regs.speedParam.toNat ∧ (placed (chaseRun .master) 0 8).regs.mode ≠ .dimmer
      ∧ (placed (chaseRun .master) 0 8).regs.tickCount.toNat + 1 < 10)
    ∧ ((placed (dimRun .master) 1 2).regs.phase = .run ∧ (placed (dimRun .master) 1 2).regs.zcArmed = true
      ∧ (placed (dimRun .master) 1 2).regs.role = .master
      ∧ (placed (dimRun .master) 1 2).regs.currentStep.toNat < (placed (dimRun .master) 1 2).regs.seqLen
      ∧ (placed (dimRun .master) 1 2).regs.readable (placed (dimRun .master) 1 2).regs.currentStep.toNat
      ∧ (placed (dimRun .master) 1 2).regs.mode ≠ .chase
      ∧ (∃ st, memReadDim (placed (dimRun .master) 1 2).regs (placed (dimRun .master) 1 2).regs.currentStep.toNat = .ok st
        ∧ 4 = dimScale (placed (dimRun .master) 1 2).cfg st.dur (placed (dimRun .master) 1 2).regs.speedParam)
      ∧ (placed (dimRun .master) 1 2).regs.tickCount.toNat + 1 < 4) :=
  ⟨⟨rfl, rfl, rfl, by decide, ⟨_, rfl⟩, rfl, by decide, by decide⟩,
    rfl, rfl, rfl, by decide, ⟨_, rfl⟩, by decide, ⟨_, rfl, rfl⟩, by decide⟩

/-- At the threshold in Chase mode: to step 1 with room and with a full queue. -/
theorem witness_MasterEdgeAtBoundary :
    ninth.regs.phase = .run ∧ ninth.regs.zcArmed = true ∧ ninth.regs.role = .master
    ∧ ninth.regs.currentStep.toNat < ninth.regs.seqLen
    ∧ 1 = (ninth.regs.currentStep.toNat + 1) % ninth.regs.seqLen ∧ ninth.regs.readable 1
    ∧ 10 = ninth.regs.speedParam.toNat ∧ ninth.regs.mode ≠ .dimmer ∧ 10 ≤ ninth.regs.tickCount.toNat + 1
    ∧ false = (ninth.regs.speedDirty || ninth.ports.speedIn != ninth.regs.speedParam)
    ∧ ninth.regs.evq.length < ninth.cfg.evqDepth ∧ full.cfg.evqDepth ≤ full.regs.evq.length :=
  ⟨rfl, rfl, rfl, by decide, rfl, ⟨_, rfl⟩, rfl, by decide, by decide, by decide, by decide, by decide⟩

/-- At the threshold in Dimmer mode: from the last step to step 0. -/
theorem witness_MasterEdgeAtBoundary_wrap :
    (placed (dimRun .master) 1 3).regs.phase = .run ∧ (placed (dimRun .master) 1 3).regs.zcArmed = true
    ∧ (placed (dimRun .master) 1 3).regs.role = .master
    ∧ (placed (dimRun .master) 1 3).regs.currentStep.toNat < (placed (dimRun .master) 1 3).regs.seqLen
    ∧ 0 = ((placed (dimRun .master) 1 3).regs.currentStep.toNat + 1) % (placed (dimRun .master) 1 3).regs.seqLen
    ∧ (placed (dimRun .master) 1 3).regs.readable 0 ∧ (placed (dimRun .master) 1 3).regs.mode ≠ .chase
    ∧ (∃ st, memReadDim (placed (dimRun .master) 1 3).regs (placed (dimRun .master) 1 3).regs.currentStep.toNat = .ok st
      ∧ 4 = dimScale (placed (dimRun .master) 1 3).cfg st.dur (placed (dimRun .master) 1 3).regs.speedParam)
    ∧ 4 ≤ (placed (dimRun .master) 1 3).regs.tickCount.toNat + 1
    ∧ false = ((placed (dimRun .master) 1 3).regs.speedDirty
        || (placed (dimRun .master) 1 3).ports.speedIn != (placed (dimRun .master) 1 3).regs.speedParam) :=
  ⟨rfl, rfl, rfl, by decide, rfl, ⟨_, rfl⟩, by decide, ⟨_, rfl, rfl⟩, by decide, by decide⟩

theorem witness_SlaveEdge :
    (chaseRun .slave).regs.phase = .run ∧ (chaseRun .slave).regs.zcArmed = true ∧ (chaseRun .slave).regs.role = .slave
    ∧ (chaseRun .slave).regs.currentStep.toNat < (chaseRun .slave).regs.seqLen
    ∧ (chaseRun .slave).regs.readable (chaseRun .slave).regs.currentStep.toNat :=
  ⟨rfl, rfl, rfl, by decide, _, rfl⟩

/-- V29's corrupt state, for either role. -/
def corrupt (role : Role) : State := withRegs (chaseRun role) fun r => { r with currentStep := 7#16, tickCount := 5#16 }

theorem witness_CorruptStepRestarts :
    (corrupt .slave).regs.phase = .run ∧ (corrupt .slave).regs.zcArmed = true
    ∧ (corrupt .slave).regs.seqLen ≤ (corrupt .slave).regs.currentStep.toNat ∧ (corrupt .slave).regs.readable 0
    ∧ (corrupt .master).regs.seqLen ≤ (corrupt .master).regs.currentStep.toNat
    ∧ (corrupt .master).regs.readable 0 := ⟨rfl, rfl, by decide, ⟨_, rfl⟩, by decide, _, rfl⟩

theorem witness_EdgeShowsPattern :
    (chaseRun .slave).regs.phase = .run ∧ (chaseRun .slave).regs.zcArmed = true ∧ (chaseRun .slave).regs.mode = .chase
    ∧ ∃ t, exec .zcEdge (chaseRun .slave) = .next t := ⟨rfl, rfl, rfl, _, rfl⟩

/-- The four pairs of policies. -/
theorem witness_EdgeArmsChannels (p : InterpPolicy) (m : DelayMap) :
    (4#8 : Byte) ≠ 0#8 ∧ (∀ x, (4#8, 10#16, x) ∉ Config.default.dimScaleTable)
    ∧ { Config.default with dimScaleTable := [(4#8, 11#16, 7#16), (4#8, 10#16, 9#16)] }.dimScaleTable
        = [(4#8, 11#16, 7#16)] ++ (4#8, 10#16, 9#16) :: []
    ∧ (∀ y, ((4#8, 10#16, y) : Byte × Word × Word) ∉ [((4#8, 11#16, 7#16) : Byte × Word × Word)])
    ∧ (dimRun .master).regs.phase = .run ∧ (dimRun .master).regs.zcArmed = true
    ∧ (dimRun .master).regs.mode = .dimmer
    ∧ ∃ t, exec .zcEdge { dimRun .master with cfg := { Config.default with interp := p, delayMap := m } } = .next t :=
  ⟨by decide, by simp [Config.default], rfl, by simp, rfl, rfl, rfl, _, rfl⟩

theorem witness_InterpolationExact : 1 ≤ 4 ∧ 4 ≤ 4 := by decide

theorem witness_SequenceCycleRestarts :
    (chaseRun .master).regs.mode = .chase ∧ (dimRun .master).regs.mode = .dimmer
    ∧ 1 ≤ (chaseRun .master).regs.seqLen ∧ (chaseRun .master).regs.currentStep = 0#16
    ∧ 1 ≤ 2 ∧ 2 < (chaseRun .master).regs.seqLen := by decide

/-- A Dimmer unit at slice count `n` whose keep-out window is 60 to 64. -/
def keeping (n : Nat) : State :=
  { held (dimRun .master) n (.all 9#8) 0xFF#8 with cfg := { Config.default with keepout := some (60, 64) } }

/-- The last tick of the budget; and with a window, the tick before it and the tick after it. -/
theorem witness_SliceTickCountsDown :
    (held (dimRun .master) 119 (.all 9#8) 0xFF#8).regs.sliceCount.toNat + 1 ≤ Config.default.sliceBudget
    ∧ Config.default.keepout = none ∧ (keeping 58).regs.phase = .run ∧ (keeping 58).regs.sliceAttached = true
    ∧ (keeping 58).regs.mode = .dimmer ∧ (keeping 58).cfg.sliceBudget ≤ 65534
    ∧ (∀ lo hi, (keeping 58).cfg.keepout = some (lo, hi) →
        (keeping 58).regs.sliceCount.toNat + 1 < lo ∨ hi < (keeping 58).regs.sliceCount.toNat + 1)
    ∧ (∀ lo hi, (keeping 64).cfg.keepout = some (lo, hi) →
        (keeping 64).regs.sliceCount.toNat + 1 < lo ∨ hi < (keeping 64).regs.sliceCount.toNat + 1) := by
  refine ⟨by decide, rfl, rfl, rfl, rfl, by decide, ?_, ?_⟩
  · intro lo hi h; cases h; exact .inl (by decide)
  · intro lo hi h; cases h; exact .inr (by decide)

/-- The first tick of the window, the last but one, and the last. -/
theorem witness_KeepoutWindow :
    (keeping 59).regs.phase = .run ∧ (keeping 59).regs.sliceAttached = true ∧ (keeping 59).regs.mode = .dimmer
    ∧ (keeping 59).cfg.sliceBudget ≤ 65534 ∧ (keeping 59).cfg.keepout = some (60, 64)
    ∧ 60 ≤ (keeping 59).regs.sliceCount.toNat + 1 ∧ (keeping 59).regs.sliceCount.toNat + 1 < 64
    ∧ (keeping 62).regs.sliceCount.toNat + 1 < 64 ∧ (keeping 63).regs.sliceCount.toNat + 1 = 64
    ∧ (keeping 63).regs.sliceCount.toNat + 1 ≤ (keeping 63).cfg.sliceBudget := by decide

theorem witness_ChaseSliceTickCountsOnly :
    (held (chaseRun .master) 119 (.all 0#8) 0x55#8).regs.phase = .run
    ∧ (held (chaseRun .master) 119 (.all 0#8) 0x55#8).regs.sliceAttached = true
    ∧ (held (chaseRun .master) 119 (.all 0#8) 0x55#8).regs.mode = .chase
    ∧ (held (chaseRun .master) 119 (.all 0#8) 0x55#8).regs.sliceCount.toNat + 1 ≤ Config.default.sliceBudget
    ∧ Config.default.sliceBudget ≤ 65534 := by decide

theorem witness_BudgetExhausted :
    (held (dimRun .slave) 120 (.all 9#8) 0xFF#8).regs.phase = .run
    ∧ (held (dimRun .slave) 120 (.all 9#8) 0xFF#8).regs.sliceAttached = true
    ∧ Config.default.sliceBudget < (held (dimRun .slave) 120 (.all 9#8) 0xFF#8).regs.sliceCount.toNat + 1
    ∧ (held (dimRun .slave) 120 (.all 9#8) 0xFF#8).regs.zcArmed = false
    ∧ ∃ t, exec .sliceTick (held (dimRun .slave) 120 (.all 9#8) 0xFF#8) = .next t ∧ t.regs.zcArmed = true :=
  ⟨rfl, rfl, by decide, rfl, _, rfl, rfl⟩

theorem witness_HalfCycleReArms :
    Config.default.wf = true ∧ (held (dimRun .slave) 0 (.all 9#8) 0xFF#8).regs.phase = .run
    ∧ (held (dimRun .slave) 0 (.all 9#8) 0xFF#8).regs.sliceAttached = true
    ∧ (held (dimRun .slave) 0 (.all 9#8) 0xFF#8).regs.zcArmed = false
    ∧ (held (dimRun .slave) 0 (.all 9#8) 0xFF#8).regs.sliceCount = 0#16 ∧ 120 ≤ Config.default.sliceBudget := by decide

theorem witness_ChannelFiresForItsDelay :
    Config.default.wf = true ∧ Config.default.keepout = none
    ∧ (held (dimRun .slave) 0 (.all 9#8) 0xFF#8).regs.phase = .run
    ∧ (held (dimRun .slave) 0 (.all 9#8) 0xFF#8).regs.mode = .dimmer
    ∧ (held (dimRun .slave) 0 (.all 9#8) 0xFF#8).regs.sliceAttached = true
    ∧ (held (dimRun .slave) 0 (.all 9#8) 0xFF#8).regs.sliceCount = 0#16
    ∧ (held (dimRun .slave) 0 (.all 9#8) 0xFF#8).regs.out
        = nonzeroBits (held (dimRun .slave) 0 (.all 9#8) 0xFF#8).regs.delay
    ∧ 9 ≤ Config.default.sliceBudget ∧ 120 ≤ Config.default.sliceBudget := by decide

theorem witness_DelaysNeverRise :
    Config.default.keepout = none ∧ Instr.sliceTick ≠ .zcEdge ∧ Instr.sliceTick ≠ .start ∧ Instr.sliceTick ≠ .reset
    ∧ (held (dimRun .slave) 0 (.all 9#8) 0xFF#8).regs.mode = .dimmer
    ∧ ∃ t, exec .sliceTick (held (dimRun .slave) 0 (.all 9#8) 0xFF#8) = .next t ∧ chanBit t.regs.out 0 = true :=
  ⟨rfl, by decide, by decide, by decide, rfl, _, rfl, by decide⟩

theorem witness_TxServiceEmitsFrame :
    full.regs.phase = .run ∧ full.regs.role = .master ∧ full.regs.evq = .restart :: [.restart] := by decide

theorem witness_SlaveFollowsFrame :
    Config.default.wf = true ∧ Config.default.termPlain = true ∧ (chaseRun .slave).regs.phase = .run
    ∧ (chaseRun .slave).regs.role = .slave ∧ (chaseRun .slave).regs.rxBuf = [] ∧ (chaseRun .slave).regs.rxOvf = false
    ∧ ∃ r, followEvent (.step (some 25#16)) (chaseRun .slave).regs = .ok r := ⟨by decide, by decide, rfl, rfl, rfl, rfl, _, rfl⟩

/-- An over-long line, a line that is no record and one that is. -/
theorem witness_LoadLineRelaysAndConsumes :
    State.Inv (loading .master) ∧ (loading .master).regs.phase = .load
    ∧ (loading .master).regs.dimSource (loading .master).cfg = .loader
    ∧ (loading .master).cfg.lineMax < (List.replicate 129 0x52#8).length
    ∧ decodeLine (text "x") = .error .unknownLine
    ∧ (List.replicate 128 0x52#8).length ≤ (loading .master).cfg.lineMax
    ∧ decodeLine (List.replicate 128 0x52#8) = .ok .r :=
  ⟨inv_loading, rfl, rfl, by rw [List.length_replicate]; decide, rfl, by rw [List.length_replicate]; decide, rfl⟩

theorem witness_SerializedSequenceReloads :
    (loading .master).cfg.wf = true ∧ (loading .master).regs.phase = .load
    ∧ (loading .master).regs.dimSource (loading .master).cfg = .loader ∧ [ramp, ramp] ≠ []
    ∧ [ramp, ramp].length ≤ (loading .master).cfg.dimCap ∧ [ramp, ramp].length ≤ 65535
    ∧ ∀ st ∈ [ramp, ramp], st.dur ≠ 0#8 := by decide

/-- A slave in Load and in Run. -/
theorem witness_RxByteBuffers :
    (loading .slave).regs.role = .slave ∧ (loading .slave).regs.phase = .load ∧ (chaseRun .slave).regs.role = .slave
    ∧ (chaseRun .slave).regs.phase = .run ∧ 0x0B#8 ≠ (chaseRun .slave).cfg.term := by decide

/-- A slave that holds one byte of a line. -/
def hearing (b : Byte) (overflow : Bool) : State :=
  withRegs (chaseRun .slave) fun r => { r with rxBuf := [b], rxOvf := overflow }

/-- Each clause: overflow, a line that is no record, a record. -/
theorem witness_RxTerminatorProcesses :
    (hearing 0x5A#8 true).regs.role = .slave ∧ (hearing 0x5A#8 true).regs.phase = .run
    ∧ (hearing 0x5A#8 true).regs.rxOvf = true
    ∧ (hearing 0x58#8 false).regs.rxOvf = false ∧ decodeLine (hearing 0x58#8 false).regs.rxBuf = .error .unknownLine
    ∧ decodeLine (hearing 0x5A#8 false).regs.rxBuf = .ok .z := by decide

/-- Each way of being ignored. -/
theorem witness_EndpointOperationsIgnored :
    (loading .master).regs.phase ≠ .run ∧ (chaseRun .slave).regs.role = .slave ∧ (chaseRun .master).regs.evq = []
    ∧ (chaseRun .master).regs.phase ≠ .load ∧ ready.regs.dimSource ready.cfg ≠ .loader
    ∧ (chaseRun .master).regs.role = .master ∧ State.reset.regs.phase = .boot
    ∧ (withRegs (chaseRun .slave) fun r => { r with phase := .fatal }).regs.phase = .fatal := by decide

/-- `R`; `Z` below the end, at the last step, and from a corrupt step. -/
theorem witness_EventRecordsMoveStep :
    (chaseRun .slave).regs.phase = .run ∧ (chaseRun .slave).regs.role = .slave
    ∧ (chaseRun .slave).regs.readable 0
    ∧ ((1 = if (placed (chaseRun .slave) 0 5).regs.currentStep.toNat + 1 < (placed (chaseRun .slave) 0 5).regs.seqLen
        then (placed (chaseRun .slave) 0 5).regs.currentStep.toNat + 1 else 0)
      ∧ (placed (chaseRun .slave) 0 5).regs.readable 1)
    ∧ ((0 = if (placed (dimRun .slave) 1 5).regs.currentStep.toNat + 1 < (placed (dimRun .slave) 1 5).regs.seqLen
        then (placed (dimRun .slave) 1 5).regs.currentStep.toNat + 1 else 0)
      ∧ (placed (dimRun .slave) 1 5).regs.readable 0)
    ∧ (0 = if (corrupt .slave).regs.currentStep.toNat + 1 < (corrupt .slave).regs.seqLen
        then (corrupt .slave).regs.currentStep.toNat + 1 else 0)
    ∧ (corrupt .slave).regs.readable 0 :=
  ⟨rfl, rfl, ⟨_, rfl⟩, ⟨by decide, _, rfl⟩, ⟨by decide, _, rfl⟩, by decide, _, rfl⟩

theorem witness_SpeedRecord :
    (chaseRun .slave).regs.phase = .run ∧ (chaseRun .slave).regs.role = .slave := by decide

/-- Each way of being discarded. -/
theorem witness_RecordsDiscarded :
    (loading .slave).regs.phase ≠ .run ∧ (chaseRun .master).regs.role = .master
    ∧ (chaseRun .master).regs.phase ≠ .load ∧ ready.regs.mode = .chase
    ∧ (loading .slave).regs.dimSource (loading .slave).cfg ≠ viaSource .wire := by decide

/-- The header of another id, a count of 0, the largest that fits and one more. -/
theorem witness_HeaderRecord :
    (loading .slave).regs.phase = .load ∧ (loading .slave).regs.mode = .dimmer
    ∧ (loading .slave).regs.dimSource (loading .slave).cfg = viaSource .loader
    ∧ (496#16 : Word).toNat ≠ (loading .slave).regs.sel.toNat ∧ ¬ (240#16 : Word).toNat ≠ (loading .slave).regs.sel.toNat
    ∧ (0#16 : Word).toNat = 0 ∧ ¬ (loading .slave).cfg.dimCap < (64#16 : Word).toNat
    ∧ (loading .slave).cfg.dimCap < (65#16 : Word).toNat := by decide

/-- No block open, and the last step but one of a block that fills the table. -/
theorem witness_StepRecordStages :
    (filling 62 64).regs.phase = .load ∧ (filling 62 64).regs.mode = .dimmer
    ∧ (filling 62 64).regs.dimSource (filling 62 64).cfg = viaSource .loader
    ∧ (loading .master).regs.ldMatch = false ∧ (filling 62 64).regs.ldMatch = true
    ∧ (filling 62 64).regs.ldExpect.toNat ≤ (filling 62 64).cfg.dimCap
    ∧ (filling 62 64).regs.ldFill.toNat + 1 < (filling 62 64).regs.ldExpect.toNat := by decide

/-- The only step of a block of one, and the second of two. -/
theorem witness_StepRecordCommits :
    (filling 1 2).regs.phase = .load ∧ (filling 1 2).regs.mode = .dimmer
    ∧ (filling 1 2).regs.dimSource (filling 1 2).cfg = viaSource .loader ∧ (filling 1 2).regs.ldMatch = true
    ∧ (filling 1 2).regs.ldFill.toNat + 1 = (filling 1 2).regs.ldExpect.toNat
    ∧ (filling 1 2).regs.ldExpect.toNat ≤ (filling 1 2).cfg.dimCap
    ∧ (filling 0 1).regs.ldFill.toNat + 1 = (filling 0 1).regs.ldExpect.toNat := by decide

/-- Id 239, the last of the chase ids, here an empty list; an id not defined; a sequence. -/
theorem witness_BootSelectsChase :
    (booting 239#8 .master false).cfg.wf = true
    ∧ (booting 239#8 .master false).regs.phase = .boot ∧ (booting 239#8 .master false).ports.selIn.toNat < 240
    ∧ lookupId (booting 239#8 .master false).cfg.chaseRom 239#8 = some []
    ∧ lookupId (booting 1#8 .master false).cfg.chaseRom 1#8 = none
    ∧ lookupId (booting 0#8 .master false).cfg.chaseRom 0#8 = some [0xAA#8, 0x55#8] := by decide

/-- Ids 240, 241, 242 and 243: as long as the slot, empty, one step longer, undefined. -/
theorem witness_BootSelectsCompiledInDimmer :
    (∀ v, (243#8, v) ∉ (booting 240#8 .slave false).cfg.dimRom)
    ∧ (booting 240#8 .slave false).cfg.dimRom = [(240#8, [ramp])] ++ (241#8, []) :: [(242#8, [ramp, ramp])]
    ∧ (∀ w, ((241#8, w) : Byte × List DimStep) ∉ [((240#8, [ramp]) : Byte × List DimStep)])
    ∧ (booting 240#8 .slave false).cfg.wf = true
    ∧ (booting 240#8 .slave false).regs.phase = .boot ∧ 240 ≤ (booting 240#8 .slave false).ports.selIn.toNat
    ∧ (booting 242#8 .slave false).ports.selIn.toNat < (booting 242#8 .slave false).cfg.dimBuiltinLimit
    ∧ (booting 240#8 .slave false).regs.dimValid = false
    ∧ lookupId (booting 240#8 .slave false).cfg.dimRom 240#8 = some [ramp]
    ∧ [ramp].length ≤ (booting 240#8 .slave false).cfg.dimCap
    ∧ lookupId (booting 241#8 .slave false).cfg.dimRom 241#8 = some []
    ∧ lookupId (booting 242#8 .slave false).cfg.dimRom 242#8 = some [ramp, ramp]
    ∧ (booting 242#8 .slave false).cfg.dimCap < [ramp, ramp].length
    ∧ (booting 243#8 .slave false).regs.phase = .boot ∧ 240 ≤ (booting 243#8 .slave false).ports.selIn.toNat
    ∧ (booting 243#8 .slave false).ports.selIn.toNat < (booting 243#8 .slave false).cfg.dimBuiltinLimit
    ∧ (booting 243#8 .slave false).regs.dimValid = false
    ∧ lookupId (booting 243#8 .slave false).cfg.dimRom (booting 243#8 .slave false).ports.selIn = none := by
  refine ⟨by simp [booting], rfl, by simp, ?_⟩
  decide

/-- The first id past the compiled-in ones, with each line source and with none. -/
theorem witness_BootAwaitsDimmer :
    (booting 244#8 .slave false).regs.phase = .boot ∧ 240 ≤ (booting 244#8 .slave false).ports.selIn.toNat
    ∧ (booting 244#8 .slave false).cfg.dimBuiltinLimit ≤ (booting 244#8 .slave false).ports.selIn.toNat
    ∧ (booting 244#8 .slave false).ports.roleIn = .slave ∧ (booting 244#8 .master true).ports.localIn = true
    ∧ (booting 244#8 .master false).ports.localIn = false
    ∧ (booting 244#8 .master false).ports.roleIn = .master
    ∧ (chaseRun .slave).regs.mode = .chase
    ∧ (latchBoot (booting 243#8 .slave false).ports Regs.atReset).mode = .dimmer
    ∧ (latchBoot (booting 243#8 .slave false).ports Regs.atReset).sel.toNat
        < (booting 243#8 .slave false).cfg.dimBuiltinLimit
    ∧ (booting 244#8 .slave false).cfg.dimBuiltinLimit
        ≤ (latchBoot (booting 244#8 .slave false).ports Regs.atReset).sel.toNat
    ∧ (latchBoot (booting 244#8 .slave true).ports Regs.atReset).localData = true
    ∧ (latchBoot (booting 244#8 .slave false).ports Regs.atReset).localData = false
    ∧ (latchBoot (booting 244#8 .slave false).ports Regs.atReset).role = .slave
    ∧ (latchBoot (booting 244#8 .master false).ports Regs.atReset).role = .master := by decide

theorem witness_LoaderReports :
    (loading .slave).regs.phase = .load ∧ (loading .slave).regs.dimSource (loading .slave).cfg = .loader
    ∧ (chaseRun .slave).regs.phase ≠ .load ∧ ready.regs.dimSource ready.cfg ≠ .loader := by decide

/-- Accepted in Chase mode and in Dimmer mode; refused outside Load and without a sequence. -/
theorem witness_StartEntersRun :
    ready.regs.phase = .load ∧ ready.regs.readable 0 ∧ ready.regs.mode = .chase ∧ ready.regs.chaseValid = true
    ∧ (dimRun .slave).regs.readable 0 ∧ (dimRun .slave).regs.mode = .dimmer ∧ (dimRun .slave).regs.dimValid = true
    ∧ (chaseRun .master).regs.phase ≠ .load ∧ (loading .slave).regs.mode = .dimmer
    ∧ (loading .slave).regs.dimValid = false :=
  ⟨rfl, ⟨_, rfl⟩, rfl, rfl, ⟨_, rfl⟩, rfl, rfl, by decide, rfl, rfl⟩

theorem witness_BootSampledOnce : (loading .slave).regs.phase ≠ .boot := by decide

/-- The first and the last reserved code. -/
theorem witness_ReadAndReservedChangeNothing : 11 ≤ (11#4).toNat ∧ 11 ≤ (15#4).toNat := by decide

end Sys2Proof.Tests
end

section
/-! Proofs of the scope's statements: what an accepted edge shows in each mode, and the selection of a compiled-in
Dimmer sequence. -/

namespace Sys2Proof.Machine

/-! ### An accepted edge -/

/-- The two stages of an accepted edge (R140): the sequencer leads to `r1`, keeping the mode and the counters, and the
outputs are driven from `r1`. -/
theorem exec_zcEdge_accepted {s t : State} (hp : s.regs.phase = .run) (hz : s.regs.zcArmed = true)
    (h : exec .zcEdge s = .next t) :
    ∃ r1 r2, r1.mode = s.regs.mode ∧ r1.delay = s.regs.delay ∧ r1.snap = s.regs.snap
      ∧ driveEdge s.cfg r1 = .ok r2 ∧ t.regs = r2.beginHoldOff := by
  obtain ⟨hregs, -⟩ := exec_next_iff.1 h
  have ha : s.regs.acceptsEdge = true := by simp [Regs.acceptsEdge, hp, hz]
  obtain ⟨r1, r2, hseq, hdrive, ht⟩ := (zcEdgeRegs_accepted ha).1 hregs
  have hr1 := sequencer_only hseq
  exact ⟨r1, r2, (congrArg Regs.mode hr1 :), (congrArg Regs.delay hr1 :), (congrArg Regs.snap hr1 :), hdrive, ht⟩

theorem chanBit_eq_testBit (b : Byte) (c : Fin 8) : chanBit b c = b.toNat.testBit c.val := rfl

/-- Driving the outputs in Chase mode shows the complement of the current step's pattern (R158, R200). -/
theorem driveEdge_chase {cfg : Config} {r r' : Regs} (hm : r.mode = .chase) (h : driveEdge cfg r = .ok r') :
    r'.delay = r.delay ∧ r'.snap = r.snap
    ∧ ∃ p, r'.chaseTab[r'.currentStep.toNat]? = some p ∧ r'.out = ~~~p := by
  obtain ⟨hr', hchase, -⟩ := driveEdge_ok h
  obtain ⟨hdelay, hsnap, hmux⟩ := hchase hm
  obtain ⟨p, hread, hout⟩ := mux_ok.1 hmux
  have htab : r'.chaseTab = r.chaseTab := (congrArg Regs.chaseTab hr' :)
  have hstep : r'.currentStep = r.currentStep := (congrArg Regs.currentStep hr' :)
  refine ⟨hdelay, hsnap, p, ?_, hout⟩
  rw [htab, hstep]
  exact (memReadChase_ok.1 hread).2

/-- Settles O29: the sequencer touches neither counter, and the mux then drives the outputs. -/
theorem edgeShowsPattern : Obligations.EdgeShowsPattern := by
  refine ⟨chanBit_eq_testBit, fun s t hp hz hm h => ?_⟩
  obtain ⟨r1, r2, hmode, hdelay, hsnap, hdrive, ht⟩ := exec_zcEdge_accepted hp hz h
  obtain ⟨hdelay', hsnap', p, hpat, hout⟩ := driveEdge_chase (hmode.trans hm) hdrive
  rw [ht]
  refine ⟨hdelay'.trans hdelay, hsnap'.trans hsnap, p, hpat, fun c => ?_⟩
  rw [Regs.beginHoldOff_out, hout, chanBit_not]

/-! ### The delay counts of an arming -/

section
variable {cfg : Config} {st : DimStep} {t D : Nat} {c : Fin 8}

theorem armedDelays_linear_inverse (hi : cfg.interp = .linear) (hd : cfg.delayMap = .inverse) (ht : t ≤ D) :
    (((armedDelays cfg st t D).get c).toNat : Int) = 255 - interp (st.start.get c) (st.stop.get c) t D := by
  have hb := (brightness .linear (st.start.get c) (st.stop.get c) t D).isLt
  rw [armedDelays_get, hi, hd, dmap_toNat, ← brightness_linear_toNat _ _ ht]
  simp only
  omega

theorem armedDelays_linear_direct (hi : cfg.interp = .linear) (hd : cfg.delayMap = .direct) (ht : t ≤ D) :
    (((armedDelays cfg st t D).get c).toNat : Int) = interp (st.start.get c) (st.stop.get c) t D := by
  rw [armedDelays_get, hi, hd, dmap_toNat, ← brightness_linear_toNat _ _ ht]

theorem armedDelays_stepped_inverse (hi : cfg.interp = .steppedSnapshot) (hd : cfg.delayMap = .inverse) :
    ((armedDelays cfg st t D).get c).toNat = 255 - (st.start.get c).toNat := by
  rw [armedDelays_get, hi, hd, dmap_toNat]
  rfl

theorem armedDelays_stepped_direct (hi : cfg.interp = .steppedSnapshot) (hd : cfg.delayMap = .direct) :
    (armedDelays cfg st t D).get c = st.start.get c := by
  rw [armedDelays_get, hi, hd]
  rfl

end

/-- Settles O30: the outputs of an accepted edge are the arming of the step the sequencer leads to, whose counts are
known for each pair of policies. -/
theorem edgeArmsChannels : Obligations.EdgeArmsChannels := by
  refine ⟨fun cfg d v hd => ⟨dimScale_default hd, fun x a b => dimScale_listed hd⟩, fun s t hp hz hm h => ?_⟩
  obtain ⟨r1, r2, hmode, -, -, hdrive, ht⟩ := exec_zcEdge_accepted hp hz h
  obtain ⟨-, -, hdim⟩ := driveEdge_ok hdrive
  obtain ⟨st, hread, rfl⟩ := arm_ok (hdim (hmode.trans hm))
  obtain ⟨-, hst⟩ := memReadDim_ok.1 hread
  rw [ht]
  refine ⟨st, _, hst, rfl, rfl, fun c => ⟨chanBit_nonzeroBits _ c, ?_⟩⟩
  have hoff : min r1.tickCount.toNat (dimScale s.cfg st.dur r1.speedParam)
      ≤ dimScale s.cfg st.dur r1.speedParam := Nat.min_le_right _ _
  exact ⟨fun hi hd => armedDelays_linear_inverse hi hd hoff, fun hi hd => armedDelays_linear_direct hi hd hoff,
    armedDelays_stepped_inverse, armedDelays_stepped_direct⟩

/-! ### Selecting a compiled-in sequence -/

/-- What a ROM defines for an id stands in it. -/
theorem lookupId_mem {α : Type} {rom : List (Byte × α)} {id : Byte} {v : α} (h : lookupId rom id = some v) :
    (id, v) ∈ rom := by
  induction rom with
  | nil => simp [lookupId] at h
  | cons e rom ih =>
    obtain ⟨k, w⟩ := e
    rw [lookupId] at h
    split at h
    · rename_i hk
      cases h
      simp [hk]
    · exact List.mem_cons_of_mem _ (ih h)

section
variable {cfg : Config} {r : Regs}

theorem selectDimRom_undefined (h : lookupId cfg.dimRom r.sel = none) :
    selectDimRom cfg r = raise .unknownSequenceId r := by
  simp [selectDimRom, h]

theorem selectDimRom_empty (h : lookupId cfg.dimRom r.sel = some []) :
    selectDimRom cfg r = raise .zeroLengthSequence r := by
  simp [selectDimRom, h]

theorem selectDimRom_overCap {sts : List DimStep} (h : lookupId cfg.dimRom r.sel = some sts) (hne : sts ≠ [])
    (hcap : cfg.dimCap < sts.length) : selectDimRom cfg r = raise .allocationFailure r := by
  simp [selectDimRom, h, hne, hcap]

theorem selectDimRom_fits {sts : List DimStep} (h : lookupId cfg.dimRom r.sel = some sts) (hne : sts ≠ [])
    (hcap : sts.length ≤ cfg.dimCap) :
    selectDimRom cfg r = { r with dimTab := sts, dimLen := BitVec.ofNat 16 sts.length, dimValid := true } := by
  simp [selectDimRom, h, hne, hcap]

end

/-- `BOOT_SAMPLE` in Boot latches the inputs and selects (R271). -/
theorem exec_bootSample_boot {s : State} (hp : s.regs.phase = .boot) :
    exec .bootSample s = .next { s with regs := selectSequence s.cfg (latchBoot s.ports s.regs) } := by
  simp [exec, execBootSample, bootSampleRegs, hp]

theorem latchBoot_dimmer {p : Ports} (h : 240 ≤ p.selIn.toNat) (r : Regs) :
    latchBoot p r = { r with sel := p.selIn, role := p.roleIn, localData := p.localIn,
                             mode := .dimmer, phase := .load } := by
  simp [latchBoot, h]

/-- A Dimmer id below `DIM_BUILTIN_LIMIT` is selected from `DIM_ROM` (R116, R271). -/
theorem selectSequence_rom {cfg : Config} {r : Regs} (hm : r.mode = .dimmer)
    (hlim : r.sel.toNat < cfg.dimBuiltinLimit) : selectSequence cfg r = selectDimRom cfg r := by
  simp [selectSequence, Regs.dimSource, hm, hlim]

/-- Settles O55: `BOOT_SAMPLE` answers `SELECT_DIM_ROM` of the latched registers, and each case of the lookup has one
outcome. The constraint on `DIM_ROM` makes `dim_len` the list's length. -/
theorem bootSelectsCompiledInDimmer : Obligations.BootSelectsCompiledInDimmer := by
  refine ⟨fun α rom id => ⟨lookupId_undefined, ?_⟩, fun s r0 hwf hp hsel hlim hvalid hr0 => ?_⟩
  · rintro v a b rfl ha
    exact lookupId_first ha
  have hsel0 : r0.sel = s.ports.selIn := by rw [hr0]
  have hmode0 : r0.mode = .dimmer := by rw [hr0]
  have hvalid0 : r0.dimValid = false := by rw [hr0]; exact hvalid
  have hlatch : latchBoot s.ports s.regs = r0 := (latchBoot_dimmer hsel s.regs).trans hr0.symm
  rw [← hsel0] at hlim ⊢
  rw [exec_bootSample_boot hp, hlatch, selectSequence_rom hmode0 hlim]
  refine ⟨fun hnone => ?_, fun hempty => ?_, fun st sts hsome => ⟨fun hcap => ?_, fun hcap => ?_⟩⟩
  · rw [selectDimRom_undefined hnone, raise_notFatal rfl]
  · rw [selectDimRom_empty hempty, raise_fatal rfl]
  · rw [selectDimRom_overCap hsome (List.cons_ne_nil _ _) hcap, raise_fatal (by rw [hvalid0]; rfl)]
  · obtain ⟨-, -, -, -, -, -, -, -, hrom⟩ := Config.wf_bounds hwf
    have hlen : (st :: sts).length ≤ 65535 := (hrom _ (lookupId_mem hsome)).1
    refine ⟨_, rfl, ?_⟩
    rw [selectDimRom_fits hsome (List.cons_ne_nil _ _) hcap]
    exact ⟨by rw [BitVec.toNat_ofNat]; omega, rfl⟩

end Sys2Proof.Machine
end

section
/-! Proofs of the scope's statements about the state: the cycle of a sequence, what each instruction can do to the
registers and what it keeps, and the invariant of the machine. -/

namespace Sys2Proof.Machine

/-! ### The cycle of a sequence -/

/-- Advances move the step pointer round the sequence (R146). -/
theorem advances_toNat (k : Nat) {r : Regs} (h : r.currentStep.toNat < r.seqLen) :
    (advances k r).currentStep.toNat = (r.currentStep.toNat + k) % r.seqLen := by
  induction k generalizing r with
  | zero => exact (Nat.mod_eq_of_lt h).symm
  | succ k ih =>
    have hpos : 1 ≤ r.seqLen := by omega
    rw [advances, ih (nextStep_lt hpos), Regs.goTo_currentStep, Regs.seqLen_goTo, nextStep_toNat hpos, Nat.mod_add_mod]
    congr 1
    omega

/-- Settles O32: from step 0 the `k`-th advance leads to step `k mod N`. -/
theorem sequenceCycleRestarts : Obligations.SequenceCycleRestarts := by
  refine ⟨fun r => ⟨fun hm => by simp [Regs.seqLen, hm], fun hm => by simp [Regs.seqLen, hm]⟩,
    fun w => by simp [kindOf], fun r hpos h0 => ?_⟩
  have hstep : ∀ k, (advances k r).currentStep.toNat = k % r.seqLen := fun k => by
    rw [advances_toNat k (by rw [h0]; exact hpos), h0]
    simp
  have hlast : (advances r.seqLen r).currentStep.toNat = 0 := by rw [hstep, Nat.mod_self]
  refine ⟨fun k hk hlt => ?_, BitVec.eq_of_toNat_eq hlast, by rw [kindOf_eq, if_pos hlast]⟩
  have hk' : (advances k r).currentStep.toNat = k := by rw [hstep, Nat.mod_eq_of_lt hlt]
  exact ⟨hk', by rw [kindOf_eq, if_neg (by omega)]⟩

/-! ### What a step leaves to the host -/

/-- An instruction changes no parameter, and what it emits follows what was emitted. -/
theorem exec_keeps_cfg_tx {i : Instr} {s t : State} (h : exec i s = .next t) :
    t.cfg = s.cfg ∧ t.tx = s.tx ++ emitted i s.cfg s.regs := by
  obtain ⟨-, ht⟩ := exec_next_iff.1 h
  exact ⟨(congrArg State.cfg ht :), (congrArg State.tx ht :)⟩

/-- Settles O14: presenting an instant touches neither, and an instruction only appends. -/
theorem stepKeepsParametersAndSentBytes : Obligations.StepKeepsParametersAndSentBytes := by
  intro s t h
  rcases step_cases h with rfl | ⟨q, rest, -, rfl | ⟨i, -, hexec⟩⟩
  · exact ⟨s.arrive_cfg, [], by simp⟩
  · exact ⟨s.arrive_cfg, [], by simp⟩
  · obtain ⟨hcfg, htx⟩ := exec_keeps_cfg_tx hexec
    exact ⟨hcfg.trans s.arrive_cfg, _, by rw [htx, State.arrive_tx]⟩

end Sys2Proof.Machine

namespace Sys2Proof

/-! ### Durations of decoded steps -/

/-- The DimStep of an `S` record, where it has one, has a duration inside the data model. -/
def Record.stepDurOk (rec : Record) : Prop := ∀ st, rec = .s (some st) → st.dur ≠ 0#8

/-- The same of an instruction that brings a record. -/
def Instr.stepDurOk (i : Instr) : Prop := ∀ via st, i = .recS via (some st) → st.dur ≠ 0#8

theorem decodeS_dur {rest : List Byte} {st : DimStep} (h : decodeS rest = some st) : st.dur ≠ 0#8 := by
  unfold decodeS at h
  split at h
  · exact (stepOfFields_some.1 h).2
  · cases h

theorem decodeLine_stepDurOk {line : List Byte} {rec : Record} (h : decodeLine line = .ok rec) :
    rec.stepDurOk := by
  rintro st rfl
  cases line with
  | nil => cases h
  | cons k rest =>
    simp only [decodeLine] at h
    split_ifs at h
    all_goals simp only [Except.ok.injEq, reduceCtorEq, Record.s.injEq] at h
    exact decodeS_dur h

theorem noOperand_ok {i j : Instr} {operand : List Byte} (h : noOperand i operand = .ok j) : j = i := by
  cases operand <;> cases h
  rfl

/-- A request on an event port is no record. -/
theorem decodeOp_ne_recS {term : Byte} {code : BitVec 4} {operand : List Byte} {via : Via} {st : Option DimStep} :
    decodeOp term code operand ≠ .ok (.recS via st) := by
  intro h
  unfold decodeOp at h
  split at h
  case h_3 | h_9 => split at h <;> cases h
  case h_12 | h_13 | h_14 | h_15 | h_16 => cases h
  all_goals cases noOperand_ok h

theorem decode_stepDurOk {cfg : Config} {q : Request} {i : Instr} (h : decode cfg q = .ok i) : i.stepDurOk := by
  rintro via st rfl
  cases q with
  | op code operand => exact absurd h decodeOp_ne_recS
  | line via' payload =>
    simp only [decode] at h
    split_ifs at h
    split at h
    · rename_i rec hrec
      cases rec <;> cases h
      exact decodeLine_stepDurOk hrec st rfl
    · cases h

end Sys2Proof

namespace Sys2Proof.Machine

/-! ### What one instruction can do -/

/-- What one instruction can do to the registers: one case for each way in which it has an effect, with the condition
under which it has it. -/
inductive InstrEffect (i : Instr) (cfg : Config) (p : Ports) (r r' : Regs) : Prop where
  /-- It has none. -/
  | same (h : r' = r)
  /-- `RESET`. -/
  | reset (hi : i = .reset) (h : r' = .atReset)
  /-- `BOOT_SAMPLE` in Boot. -/
  | boot (hi : i = .bootSample) (hp : r.phase = .boot) (h : r' = selectSequence cfg (latchBoot p r))
  /-- `LOAD_END` in Load, the loader being the source. -/
  | loadEnd (hp : r.phase = .load)
      (h : r' = r.closeBlock ∨ r' = raise .unknownSequenceId r.closeBlock)
  /-- `SRC_ABSENT` in Load, the loader being the source. -/
  | srcAbsent (hp : r.phase = .load) (h : r' = raise .configurationAbsent r)
  /-- `START` with a valid sequence. -/
  | start (hi : i = .start) (hs : r.startable = true) (h : startRegs p.speedIn r = .ok r')
  /-- An accepted edge. -/
  | edge (hi : i = .zcEdge) (ha : r.acceptsEdge = true) (h : zcEdgeRegs cfg p.speedIn r = .ok r')
  /-- A slice tick in Run. -/
  | slice (hp : r.phase = .run) (h : r' = sliceTickRegs cfg r)
  /-- `TX_SERVICE` on a master in Run. -/
  | sent (h : r' = { r with evq := r.evq.tail })
  /-- A byte is put into the line buffer. -/
  | stored (b : Byte) (hb : b ≠ cfg.term) (hlen : r.rxBuf.length < cfg.lineMax)
      (h : r' = { r with rxBuf := r.rxBuf ++ [b] })
  /-- A byte too many is dropped. -/
  | overlong (h : r' = r.noteOverlong)
  /-- A line that is no record is discarded at its `TERM`. -/
  | cleared (h : r' = r.clearRx)
  /-- A record is applied, after its `TERM` emptied the line buffer where it came by `RX_BYTE`. -/
  | record (via : Via) (rec : Record) (hd : i.stepDurOk → rec.stepDurOk) (r0 : Regs) (h0 : r0 = r ∨ r0 = r.clearRx)
      (h : applyRecord cfg via rec r0 = .ok r')

/-- An effect under a guard happens, or the registers stay as they are. -/
theorem guarded_ok {c : Bool} {x : Except Fault Regs} {r r' : Regs} (h : (if c then x else .ok r) = .ok r') :
    r' = r ∨ c = true ∧ x = .ok r' := by
  cases c
  · exact .inl (Except.ok.inj h).symm
  · exact .inr ⟨rfl, h⟩

/-- A line is discarded or applied as the record it is classified as. -/
theorem processLine_cases {cfg : Config} {via : Via} {line : List Byte} {r r' : Regs}
    (h : processLine cfg via line r = .ok r') :
    r' = r ∨ ∃ rec : Record, rec.stepDurOk ∧ applyRecord cfg via rec r = .ok r' := by
  unfold processLine at h
  split at h
  · rename_i rec hrec
    exact .inr ⟨rec, decodeLine_stepDurOk hrec, h⟩
  · cases h
    exact .inl rfl

section
variable {i : Instr} {cfg : Config} {p : Ports} {r r' : Regs}

theorem bootSample_effect (hi : i = .bootSample) (h : bootSampleRegs cfg p r = r') : InstrEffect i cfg p r r' := by
  unfold bootSampleRegs at h
  split at h
  · rename_i hp
    exact .boot hi hp h.symm
  · exact .same h.symm

theorem consumedLine_effect {line : List Byte}
    (h : (if hearsLoader cfg r then consumeLine cfg line r else .ok r) = .ok r') : InstrEffect i cfg p r r' := by
  unfold consumeLine at h
  split_ifs at h
  · rcases processLine_cases h with hsame | ⟨rec, hd, hrec⟩
    · exact .same hsame
    · exact .record .loader rec (fun _ => hd) r (.inl rfl) hrec
  all_goals exact .same (Except.ok.inj h).symm

theorem loadEnd_effect (h : loadEndRegs cfg r = r') : InstrEffect i cfg p r r' := by
  unfold loadEndRegs at h
  split at h
  · rename_i hh
    refine .loadEnd (hearsLoader_iff.1 hh).1 ?_
    split at h
    · exact .inl h.symm
    · exact .inr h.symm
  · exact .same h.symm

theorem srcAbsent_effect (h : srcAbsentRegs cfg r = r') : InstrEffect i cfg p r r' := by
  unfold srcAbsentRegs at h
  split at h
  · rename_i hh
    exact .srcAbsent (hearsLoader_iff.1 hh).1 h.symm
  · exact .same h.symm

theorem start_effect (hi : i = .start) (h : startRegs p.speedIn r = .ok r') : InstrEffect i cfg p r r' := by
  rcases guarded_ok h with hsame | ⟨hs, -⟩
  · exact .same hsame
  · exact .start hi hs h

theorem edge_effect (hi : i = .zcEdge) (h : zcEdgeRegs cfg p.speedIn r = .ok r') : InstrEffect i cfg p r r' := by
  rcases guarded_ok h with hsame | ⟨ha, -⟩
  · exact .same hsame
  · exact .edge hi ha h

theorem sliceTick_effect (h : sliceTickRegs cfg r = r') : InstrEffect i cfg p r r' := by
  by_cases hp : r.phase = .run
  · exact .slice hp h.symm
  · exact .same (by rw [← h, sliceTickRegs]; simp [hp])

theorem rxByte_instrEffect {b : Byte} (h : rxByteRegs cfg b r = .ok r') : InstrEffect i cfg p r r' := by
  unfold rxByteRegs at h
  split_ifs at h with hl hb hovf hlen
  · cases h
    exact .cleared rfl
  · rcases processLine_cases h with hc | ⟨rec, hd, hrec⟩
    · exact .cleared hc
    · exact .record .wire rec (fun _ => hd) _ (.inr rfl) hrec
  · cases h
    exact .stored b hb hlen rfl
  · cases h
    exact .overlong rfl
  · cases h
    exact .same rfl

/-- Every instruction has one of these effects. -/
theorem regsAfter_effect (h : regsAfter i cfg p r = .ok r') : InstrEffect i cfg p r r' := by
  cases i with
  | recR via => exact .record via .r (fun _ => nofun) r (.inl rfl) h
  | recZ via => exact .record via .z (fun _ => nofun) r (.inl rfl) h
  | recC via v => exact .record via (.c v) (fun _ => nofun) r (.inl rfl) h
  | recQ via hd => exact .record via (.q hd) (fun _ => nofun) r (.inl rfl) h
  | recS via st =>
    refine .record via (.s st) (fun hdur v hv => ?_) r (.inl rfl) h
    cases hv
    exact hdur via v rfl
  | reset => exact .reset rfl (Except.ok.inj h).symm
  | bootSample => exact bootSample_effect rfl (Except.ok.inj h)
  | loadLine line => exact consumedLine_effect h
  | loadEnd => exact loadEnd_effect (Except.ok.inj h)
  | srcAbsent => exact srcAbsent_effect (Except.ok.inj h)
  | start => exact start_effect rfl h
  | zcEdge => exact edge_effect rfl h
  | sliceTick => exact sliceTick_effect (Except.ok.inj h)
  | rxByte b => exact rxByte_instrEffect h
  | txService =>
    simp only [regsAfter, Except.ok.injEq] at h
    split at h
    · exact .sent h.symm
    · exact .same h.symm
  | read | reserved11 | reserved12 | reserved13 | reserved14 | reserved15 => exact .same (Except.ok.inj h).symm

end

theorem exec_effect {i : Instr} {s t : State} (h : exec i s = .next t) :
    InstrEffect i s.cfg s.ports s.regs t.regs :=
  regsAfter_effect (exec_next_iff.1 h).1

/-! ### What the effects keep -/

section
variable (k : ErrKind) (r : Regs)

@[simp] theorem raise_sel : (raise k r).sel = r.sel := by rw [(raise_only k r).1]
@[simp] theorem raise_mode : (raise k r).mode = r.mode := by rw [(raise_only k r).1]
@[simp] theorem raise_role : (raise k r).role = r.role := by rw [(raise_only k r).1]
@[simp] theorem raise_localData : (raise k r).localData = r.localData := by rw [(raise_only k r).1]
@[simp] theorem raise_speedParam : (raise k r).speedParam = r.speedParam := by rw [(raise_only k r).1]
@[simp] theorem raise_syncOverrun : (raise k r).syncOverrun = r.syncOverrun := by rw [(raise_only k r).1]
@[simp] theorem raise_err : (raise k r).err = k := by rw [(raise_only k r).1]

end

section
variable {cfg : Config} {p : Ports} {r r' : Regs}

/-- What the selection after the latching can do (R271 to R273). -/
theorem selectSequence_cases (cfg : Config) (r : Regs) :
    selectSequence cfg r = r
    ∨ (∃ k, k ≠ .none ∧ k ≠ .malformedLine ∧ selectSequence cfg r = raise k r)
    ∨ (r.mode = .chase ∧ ∃ ps, (r.sel, ps) ∈ cfg.chaseRom ∧ ps ≠ [] ∧ selectSequence cfg r
        = { r with chaseTab := ps, chaseLen := BitVec.ofNat 16 ps.length, chaseValid := true })
    ∨ (r.mode = .dimmer ∧ ∃ sts, (r.sel, sts) ∈ cfg.dimRom ∧ sts ≠ [] ∧ sts.length ≤ cfg.dimCap
        ∧ selectSequence cfg r
          = { r with dimTab := sts, dimLen := BitVec.ofNat 16 sts.length, dimValid := true }) := by
  cases hm : r.mode
  · have hsel : selectSequence cfg r = selectChase cfg r := by simp [selectSequence, hm]
    rw [hsel, selectChase]
    split
    · exact .inr (.inl ⟨_, by decide, by decide, rfl⟩)
    · rename_i ps hlook
      split
      · exact .inr (.inl ⟨_, by decide, by decide, rfl⟩)
      · rename_i hlen
        refine .inr (.inr (.inl ⟨rfl, ps, lookupId_mem hlook, ?_, by rw [hm]⟩))
        rintro rfl
        exact hlen rfl
  · cases hsrc : r.dimSource cfg
    case rom =>
      have hsel : selectSequence cfg r = selectDimRom cfg r := by simp [selectSequence, hm, hsrc]
      rw [hsel]
      cases hlook : lookupId cfg.dimRom r.sel with
      | none => exact .inr (.inl ⟨_, by decide, by decide, selectDimRom_undefined hlook⟩)
      | some sts =>
        by_cases hne : sts = []
        · subst hne
          exact .inr (.inl ⟨_, by decide, by decide, selectDimRom_empty hlook⟩)
        · by_cases hcap : cfg.dimCap < sts.length
          · exact .inr (.inl ⟨_, by decide, by decide, selectDimRom_overCap hlook hne hcap⟩)
          · refine .inr (.inr (.inr ⟨rfl, sts, lookupId_mem hlook, hne, by omega, ?_⟩))
            rw [selectDimRom_fits hlook hne (by omega), hm]
    case absent =>
      exact .inr (.inl ⟨.configurationAbsent, by decide, by decide, by simp [selectSequence, hm, hsrc]⟩)
    all_goals exact .inl (by simp [selectSequence, hm, hsrc])

/-- The selection writes tables and raises errors only. -/
theorem selectSequence_keeps (cfg : Config) (r : Regs) :
    (selectSequence cfg r).speedParam = r.speedParam ∧ (selectSequence cfg r).syncOverrun = r.syncOverrun := by
  rcases selectSequence_cases cfg r with hs | ⟨k, -, -, hs⟩ | ⟨-, ps, -, -, hs⟩ | ⟨-, sts, -, -, -, hs⟩ <;> rw [hs]
  · exact ⟨rfl, rfl⟩
  · exact ⟨raise_speedParam k r, raise_syncOverrun k r⟩
  · exact ⟨rfl, rfl⟩
  · exact ⟨rfl, rfl⟩

/-- What an accepted `START` does (R276). -/
theorem startRegs_ok {v : Word} (hs : r.startable = true) (h : startRegs v r = .ok r') :
    r' = { freshRun v r with out := r'.out, phase := .run }
    ∧ (r.mode = .chase → mux r 0 = .ok r'.out) ∧ (r.mode = .dimmer → r'.out = 0x00#8) := by
  simp only [startRegs, hs, if_true] at h
  cases hm : r.mode <;> simp only [hm] at h
  · cases hmux : mux r 0 <;> rw [hmux] at h <;> cases h
    exact ⟨rfl, fun _ => rfl, nofun⟩
  · cases h
    exact ⟨rfl, nofun, fun _ => rfl⟩

theorem startable_iff : r.startable = true ↔ r.phase = .load
    ∧ (r.mode = .chase → r.chaseValid = true) ∧ (r.mode = .dimmer → r.dimValid = true) := by
  cases hm : r.mode <;> simp [Regs.startable, hm]

theorem acceptsEdge_iff : r.acceptsEdge = true ↔ r.phase = .run ∧ r.zcArmed = true := by
  simp [Regs.acceptsEdge]

/-- All that an accepted edge can change, with the sequencer's result. -/
theorem edge_only {v : Word} (ha : r.acceptsEdge = true) (h : zcEdgeRegs cfg v r = .ok r') :
    ∃ r1, sequencer cfg v r.acceptEdge = .ok r1
      ∧ r' = { r with
          currentStep := r1.currentStep, tickCount := r1.tickCount, speedParam := r1.speedParam,
          speedDirty := r1.speedDirty, evq := r1.evq, syncOverrun := r1.syncOverrun,
          delay := r'.delay, snap := r'.snap, out := r'.out,
          sliceCount := 0#16, zcArmed := false, sliceAttached := true }
      ∧ (r.mode = .chase → r'.delay = r.delay ∧ mux r r1.currentStep.toNat = .ok r'.out)
      ∧ (r.mode = .dimmer → r'.out = nonzeroBits r'.delay) := by
  obtain ⟨r1, r2, hseq, hdrive, rfl⟩ := (zcEdgeRegs_accepted ha).1 h
  obtain ⟨hr2, hchase, hdimmer⟩ := driveEdge_ok hdrive
  obtain ⟨d, sn, o, rfl⟩ : ∃ d sn o, r2 = { r1 with delay := d, snap := sn, out := o } := ⟨_, _, _, hr2⟩
  obtain ⟨cs, tc, sp, sd, q, ov, rfl⟩ : ∃ cs tc sp sd q ov, r1 = { r.acceptEdge with
      currentStep := cs, tickCount := tc, speedParam := sp, speedDirty := sd, evq := q, syncOverrun := ov } :=
    ⟨_, _, _, _, _, _, sequencer_only hseq⟩
  refine ⟨_, hseq, rfl, fun hm => ?_, fun hm => ?_⟩
  · obtain ⟨hdelay, -, hmux⟩ := hchase hm
    exact ⟨hdelay, hmux⟩
  · obtain ⟨st, -, harm⟩ := arm_ok (hdimmer hm)
    have hout := congrArg Regs.out harm
    have hdelay := congrArg Regs.delay harm
    exact hout.trans (congrArg nonzeroBits hdelay.symm)

end

end Sys2Proof.Machine
end

section
/-! The invariant of the machine: it holds after reset, and every instruction keeps it. -/

namespace Sys2Proof.Machine

/-- After reset, whatever the parameters: no table has an element and the phase is Boot. -/
theorem regsInv_atReset (cfg : Config) : RegsInv cfg .atReset := by
  constructor
  case mode_sel => decide
  case out_dimmer => nofun
  all_goals simp [Regs.atReset, Stage.wf, Stage.rising]

/-- Settles O12: the registers are those of `regsInv_atReset`, and every port is a register. -/
theorem resetMeetsInvariant : Obligations.ResetMeetsInvariant := by
  refine ⟨⟨by decide, regsInv_atReset _⟩, ⟨by decide, by decide⟩, fun s => ⟨rfl, rfl, rfl, ?_⟩, rfl, rfl, rfl, rfl⟩
  simp [State.fatalPort]

section
variable {cfg : Config} {r r' : Regs}

/-! ### Boot -/

theorem RegsInv.raise {k : ErrKind} (h : RegsInv cfg r) (hk : k ≠ .malformedLine) (hp : r.phase ≠ .run) :
    RegsInv cfg (raise k r) := by
  cases hf : k.isFatal r.dimValid
  · rw [raise_notFatal hf]
    exact { h with err_stored := hk }
  · rw [raise_fatal hf]
    exact { h with
      boot_empty := nofun
      run_chase := nofun
      run_dimmer := nofun
      run_step := nofun
      run_flags := nofun
      idle_flags := fun _ => ⟨rfl, rfl⟩
      idle_out := fun _ => rfl
      evq_idle := fun _ => h.evq_idle (.inl hp)
      dirty_idle := fun _ => h.dirty_idle (.inl hp)
      err_stored := hk
      out_chase := nofun
      out_dimmer := fun _ c hc => by simp at hc
      tick_lt := nofun }

/-- The latching leads to Load, where no sequence is selected yet (R271). -/
theorem RegsInv.latchBoot (h : RegsInv cfg r) (hp : r.phase = .boot) (p : Ports) :
    RegsInv cfg (latchBoot p r) := by
  have hidle : r.phase ≠ .run := by simp [hp]
  have hout : r.out = 0x00#8 := h.idle_out hidle
  exact { h with
    boot_empty := nofun
    mode_sel := by unfold Machine.latchBoot; split <;> simp_all
    dimmer_no_chase := fun _ => (h.boot_empty hp).1
    run_chase := nofun
    run_dimmer := nofun
    run_step := nofun
    run_flags := nofun
    idle_flags := fun _ => h.idle_flags hidle
    idle_out := fun _ => hout
    evq_idle := fun _ => h.evq_idle (.inl hidle)
    dirty_idle := fun _ => h.dirty_idle (.inl hidle)
    out_chase := nofun
    out_dimmer := fun _ c hc => by
      have hc' : chanBit r.out c = true := hc
      simp [hout] at hc'
    tick_lt := nofun }

theorem ofNat_length {α : Type} {l : List α} (h : l.length ≤ 65535) : (BitVec.ofNat 16 l.length).toNat = l.length := by
  rw [BitVec.toNat_ofNat]
  omega

theorem RegsInv.selectSequence (h : RegsInv cfg r) (hwf : cfg.wf = true) (hp : r.phase = .load) :
    RegsInv cfg (selectSequence cfg r) := by
  obtain ⟨-, -, -, -, -, -, -, hchase, hdim⟩ := Config.wf_bounds hwf
  have hidle : r.phase ≠ .run := by simp [hp]
  have hboot : r.phase ≠ .boot := by simp [hp]
  rcases selectSequence_cases cfg r with hs | ⟨k, -, hk, hs⟩ | ⟨hm, ps, hrom, hne, hs⟩ | ⟨hm, sts, hrom, hne, hcap, hs⟩
    <;> rw [hs]
  · exact h
  · exact h.raise hk hidle
  · have hlen := ofNat_length (hchase _ hrom)
    exact { h with
      chase_length := hlen.symm
      chase_pos := fun _ => hlen.symm ▸ List.length_pos_iff.2 hne
      boot_empty := fun hb => absurd hb hboot
      dimmer_no_chase := fun hd => absurd (hm.symm.trans hd) nofun
      run_chase := fun _ _ => rfl
      run_step := fun hr => absurd hr hidle
      out_chase := fun hr => absurd hr hidle }
  · have hlen := ofNat_length (hdim _ hrom).1
    exact { h with
      dim_length := hlen.symm
      dim_pos := fun _ => hlen.symm ▸ ⟨List.length_pos_iff.2 hne, hcap⟩
      dim_dur := (hdim _ hrom).2
      boot_empty := fun hb => absurd hb hboot
      run_dimmer := fun _ _ => rfl
      run_step := fun hr => absurd hr hidle
      tick_lt := fun hr => absurd hr hidle }

/-! ### Load -/

theorem RegsInv.closeBlock (h : RegsInv cfg r) : RegsInv cfg r.closeBlock :=
  { h with block_open := nofun, block_closed := fun _ => ⟨rfl, rfl⟩ }

theorem RegsInv.qLine (h : RegsInv cfg r) (hp : r.phase = .load) (id n : Word) : RegsInv cfg (qLine cfg id n r) := by
  have hidle : r.closeBlock.phase ≠ .run := by simp [hp]
  rcases qLine_cases cfg id n r with hq | ⟨-, -, hq⟩ | ⟨-, -, hq⟩ | ⟨-, hn, hcap, hq⟩ <;> rw [hq]
  · exact h.closeBlock
  · exact h.closeBlock.raise (by decide) hidle
  · exact h.closeBlock.raise (by decide) hidle
  · have hpos : 0 < n.toNat := Nat.pos_of_ne_zero fun e => hn (BitVec.eq_of_toNat_eq e)
    exact { h.closeBlock with
      block_open := fun _ => ⟨hpos, hcap, fun i hi => absurd hi (Nat.not_lt_zero i)⟩
      block_closed := nofun }

theorem Stage.write_dur {st : Stage} {v : DimStep} (n : Nat) (h : ∀ e ∈ st, e.2.dur ≠ 0#8) (hv : v.dur ≠ 0#8) :
    ∀ e ∈ st.write n v, e.2.dur ≠ 0#8 := by
  intro e he
  rcases Stage.mem_write he with rfl | he
  · exact hv
  · exact h e he

/-- One more entry of the open block is written. -/
theorem Stage.written_succ {st : Stage} {v : DimStep} {n : Nat} (h : ∀ i, i < n → (st.read i).dur ≠ 0#8)
    (hv : v.dur ≠ 0#8) : ∀ i, i < n + 1 → ((st.write n v).read i).dur ≠ 0#8 := by
  intro i hi
  rw [Stage.read_write]
  split
  · exact hv
  · exact h i (by omega)

theorem RegsInv.sLine {st : DimStep} (h : RegsInv cfg r) (hp : r.phase = .load) (hst : st.dur ≠ 0#8)
    (hs : sLine cfg st r = .ok r') : RegsInv cfg r' := by
  have hidle : r.phase ≠ .run := by simp [hp]
  have hboot : r.phase ≠ .boot := by simp [hp]
  rcases sLine_ok hs with ⟨-, rfl⟩ | ⟨hm, -, hcase⟩
  · exact h
  obtain ⟨hfill, hcap, hwritten⟩ := h.block_open hm
  have hwritten' := Stage.written_succ hwritten hst
  have hwf := Stage.write_wf r.ldFill.toNat st h.stage_wf
  have hdur := Stage.write_dur r.ldFill.toNat h.stage_dur hst
  rcases hcase with ⟨hn, rfl⟩ | ⟨hn, rfl⟩
  · have hnext : (BitVec.ofNat 16 (r.ldFill.toNat + 1)).toNat = r.ldFill.toNat + 1 := by
      have := r.ldExpect.isLt
      rw [BitVec.toNat_ofNat]
      omega
    exact { h with
      stage_wf := hwf
      stage_dur := hdur
      block_open := fun _ => hnext.symm ▸ ⟨by show r.ldFill.toNat + 1 < r.ldExpect.toNat; omega, hcap, hwritten'⟩
      block_closed := fun hc => absurd (hm.symm.trans hc) nofun }
  · exact { h with
      dim_length := readStage_length _ _
      dim_pos := fun _ => ⟨by show 1 ≤ r.ldExpect.toNat; omega, hcap⟩
      dim_dur := fun v hv => by
        obtain ⟨i, hi, rfl⟩ := readStage_mem hv
        exact hwritten' i (by omega)
      stage_wf := hwf
      stage_dur := hdur
      boot_empty := fun hb => absurd hb hboot
      run_dimmer := fun _ _ => rfl
      run_step := fun hr => absurd hr hidle
      block_open := nofun
      block_closed := fun _ => ⟨rfl, rfl⟩
      tick_lt := fun hr => absurd hr hidle }

/-- A valid sequence of the mode has a first step. -/
theorem RegsInv.seqLen_pos (h : RegsInv cfg r) (hc : r.mode = .chase → r.chaseValid = true)
    (hd : r.mode = .dimmer → r.dimValid = true) : 0 < r.seqLen := by
  cases hm : r.mode <;> simp only [Regs.seqLen, hm]
  · exact h.chase_pos (hc hm)
  · exact (h.dim_pos (hd hm)).1

theorem RegsInv.start {v : Word} (h : RegsInv cfg r) (hs : r.startable = true) (hr : startRegs v r = .ok r') :
    RegsInv cfg r' := by
  obtain ⟨-, hchase, hdimmer⟩ := startable_iff.1 hs
  obtain ⟨heq, houtc, houtd⟩ := startRegs_ok hs hr
  obtain ⟨o, rfl⟩ : ∃ o, r' = { freshRun v r with out := o, phase := .run } := ⟨_, heq⟩
  exact { h with
    boot_empty := nofun
    run_chase := fun _ => hchase
    run_dimmer := fun _ => hdimmer
    run_step := fun _ => h.seqLen_pos hchase hdimmer
    run_flags := fun _ => rfl
    idle_flags := fun hp => absurd rfl hp
    idle_out := fun hp => absurd rfl hp
    slice_le := Nat.zero_le _
    evq_le := Nat.zero_le _
    evq_idle := fun _ => rfl
    dirty_idle := fun _ => rfl
    block_open := nofun
    block_closed := fun _ => ⟨rfl, rfl⟩
    out_chase := fun _ => houtc
    out_dimmer := fun hm c hc => by
      have hc' : chanBit o c = true := hc
      rw [show o = 0x00#8 from houtd hm] at hc'
      simp at hc'
    tick_lt := fun _ _ _ _ hthr => hthr }

/-! ### Received bytes and records -/

theorem RegsInv.clearRx (h : RegsInv cfg r) : RegsInv cfg r.clearRx :=
  { h with rx_le := Nat.zero_le _, rx_term := List.not_mem_nil }

theorem RegsInv.noteOverlong (h : RegsInv cfg r) : RegsInv cfg r.noteOverlong := { h with }

theorem RegsInv.storeByte {b : Byte} (h : RegsInv cfg r) (hb : b ≠ cfg.term) (hlen : r.rxBuf.length < cfg.lineMax) :
    RegsInv cfg { r with rxBuf := r.rxBuf ++ [b] } :=
  { h with
    rx_le := by simpa using hlen
    rx_term := by simpa using ⟨h.rx_term, hb.symm⟩ }

/-- An event moves the step pointer of a slave inside the sequence and shows the step (R245, R246). -/
theorem RegsInv.showStep_goTo {w : Word} (h : RegsInv cfg r) (hp : r.phase = .run) (hr : r.role = .slave)
    (hw : w.toNat < r.seqLen) (hs : showStep (r.goTo w) = .ok r') : RegsInv cfg r' := by
  obtain ⟨heq, hchase, hdimmer⟩ := showStep_ok hs
  obtain ⟨o, rfl⟩ : ∃ o, r' = { r.goTo w with out := o } := ⟨_, heq⟩
  exact { h with
    run_step := fun _ => hw
    idle_out := fun hi => absurd hp hi
    out_chase := fun _ => hchase
    out_dimmer := fun hm c hc => by
      have ho : o = r.out := congrArg Regs.out (hdimmer hm)
      exact h.out_dimmer hm c (ho ▸ hc)
    tick_lt := fun _ hm => absurd (hr.symm.trans hm) nofun }

theorem RegsInv.applyRestart (h : RegsInv cfg r) (hp : r.phase = .run) (hr : r.role = .slave)
    (ha : applyRestart r = .ok r') : RegsInv cfg r' :=
  h.showStep_goTo (w := 0#16) hp hr (Nat.zero_lt_of_lt (h.run_step hp)) ha

theorem RegsInv.applyStep (h : RegsInv cfg r) (hp : r.phase = .run) (hr : r.role = .slave)
    (ha : applyStep r = .ok r') : RegsInv cfg r' := by
  refine h.showStep_goTo hp hr ?_ ha
  have := h.run_step hp
  rw [stepTarget_toNat]
  split <;> omega

theorem RegsInv.applySetSpeed (h : RegsInv cfg r) (hr : r.role = .slave) (v : Word) :
    RegsInv cfg (applySetSpeed v r) :=
  { h with tick_lt := fun _ hm => absurd (hr.symm.trans hm) nofun }

theorem RegsInv.applyRecord {via : Via} {rec : Record} (h : RegsInv cfg r) (hd : rec.stepDurOk)
    (ha : applyRecord cfg via rec r = .ok r') : RegsInv cfg r' := by
  cases rec with
  | r =>
    rcases guarded_ok ha with rfl | ⟨hh, ha⟩
    · exact h
    · obtain ⟨hp, hr, -⟩ := hearsEvents_iff.1 hh
      exact h.applyRestart hp hr ha
  | z =>
    rcases guarded_ok ha with rfl | ⟨hh, ha⟩
    · exact h
    · obtain ⟨hp, hr, -⟩ := hearsEvents_iff.1 hh
      exact h.applyStep hp hr ha
  | c value =>
    cases value with
    | none => exact Except.ok.inj ha ▸ h
    | some v =>
      rcases guarded_ok ha with rfl | ⟨hh, ha⟩
      · exact h
      · obtain ⟨-, hr, -⟩ := hearsEvents_iff.1 hh
        exact Except.ok.inj ha ▸ h.applySetSpeed hr v
  | q header =>
    cases header with
    | none => exact Except.ok.inj ha ▸ h
    | some idn =>
      rcases guarded_ok ha with rfl | ⟨hh, ha⟩
      · exact h
      · obtain ⟨hp, -, -⟩ := hearsSequence_iff.1 hh
        exact Except.ok.inj ha ▸ h.qLine hp _ _
  | s step =>
    cases step with
    | none => exact Except.ok.inj ha ▸ h
    | some st =>
      rcases guarded_ok ha with rfl | ⟨hh, ha⟩
      · exact h
      · obtain ⟨hp, -, -⟩ := hearsSequence_iff.1 hh
        exact h.sLine hp (hd st rfl) ha

/-! ### The event queue -/

theorem RegsInv.sent (h : RegsInv cfg r) : RegsInv cfg { r with evq := r.evq.tail } :=
  { h with
    evq_le := by have := h.evq_le; simp only [List.length_tail]; omega
    evq_idle := fun hi => by simp [h.evq_idle hi] }

theorem boundary_evq_le {v : Word} {kind : StepKind} (h : r.evq.length ≤ cfg.evqDepth) :
    (boundary cfg v kind r).evq.length ≤ cfg.evqDepth := by
  rcases Nat.lt_or_ge r.evq.length cfg.evqDepth with hroom | hfull
  · rw [boundary_room hroom]
    simpa using hroom
  · rw [boundary_full hfull]
    exact h

/-! ### Edge -/

/-- The part of the invariant that speaks of what the sequencer writes, for a unit in Run. -/
structure SequencerInv (cfg : Config) (r : Regs) : Prop where
  step_lt : r.currentStep.toNat < r.seqLen
  evq_le : r.evq.length ≤ cfg.evqDepth
  slave_evq : r.role = .slave → r.evq = []
  slave_dirty : r.role = .slave → r.speedDirty = false
  tick_lt : r.role = .master → ∀ thr, threshold cfg r = .ok thr → 1 ≤ thr → r.tickCount.toNat < thr

theorem RegsInv.sequencerInv (h : RegsInv cfg r) (hp : r.phase = .run) : SequencerInv cfg r.acceptEdge where
  step_lt := h.run_step hp
  evq_le := h.evq_le
  slave_evq := fun hr => h.evq_idle (.inr hr)
  slave_dirty := fun hr => h.dirty_idle (.inr hr)
  tick_lt := h.tick_lt hp

/-- A boundary starts a step inside the sequence with the tick count 0. -/
theorem SequencerInv.boundary {v w : Word} {kind : StepKind} (h : SequencerInv cfg r) (hr : r.role = .master)
    (hw : w.toNat < r.seqLen) : SequencerInv cfg (boundary cfg v kind (r.goTo w)) := by
  have hle : (Machine.boundary cfg v kind (r.goTo w)).evq.length ≤ cfg.evqDepth := boundary_evq_le h.evq_le
  rw [boundary_only]
  exact {
    step_lt := hw
    evq_le := hle
    slave_evq := fun hs => absurd (hr.symm.trans hs) nofun
    slave_dirty := fun hs => absurd (hr.symm.trans hs) nofun
    tick_lt := fun _ _ _ hthr => hthr }

theorem SequencerInv.seqMaster {v : Word} (h : SequencerInv cfg r) (hr : r.role = .master)
    (hs : seqMaster cfg v r = .ok r') : SequencerInv cfg r' := by
  have hpos : 0 < r.seqLen := Nat.zero_lt_of_lt h.step_lt
  rcases seqMaster_ok hs with ⟨-, rfl⟩ | ⟨-, thr, hthr, ⟨-, rfl⟩ | ⟨hlt, rfl⟩⟩
  · exact h.boundary hr hpos
  · exact h.boundary hr (nextStep_lt hpos)
  · exact { h with
      tick_lt := fun _ thr' hthr' _ => by
        obtain rfl : thr = thr' := Except.ok.inj (hthr.symm.trans hthr')
        rw [BitVec.toNat_ofNat]
        exact lt_of_le_of_lt (Nat.mod_le _ _) hlt }

theorem SequencerInv.seqSlave (h : SequencerInv cfg r) (hr : r.role = .slave) : SequencerInv cfg (seqSlave r) := by
  have hguard : ¬ r.seqLen ≤ r.currentStep.toNat := Nat.not_le.2 h.step_lt
  rw [Machine.seqSlave, if_neg hguard]
  exact { h with tick_lt := fun hm => absurd (hr.symm.trans hm) nofun }

theorem SequencerInv.sequencer {v : Word} (h : SequencerInv cfg r) (hs : sequencer cfg v r = .ok r') :
    SequencerInv cfg r' := by
  cases hr : r.role <;> simp only [Machine.sequencer, hr] at hs
  · exact h.seqMaster hr hs
  · cases hs
    exact h.seqSlave hr

theorem RegsInv.edge {v : Word} (h : RegsInv cfg r) (ha : r.acceptsEdge = true) (he : zcEdgeRegs cfg v r = .ok r') :
    RegsInv cfg r' := by
  obtain ⟨hp, -⟩ := acceptsEdge_iff.1 ha
  obtain ⟨r1, hseq, heq, hchase, hdimmer⟩ := edge_only ha he
  have hinv := (h.sequencerInv hp).sequencer hseq
  have hr1 := sequencer_only hseq
  generalize r1.currentStep = cs, r1.tickCount = tc, r1.speedParam = sp, r1.speedDirty = sd, r1.evq = q,
    r1.syncOverrun = ov at heq hr1 hchase
  subst hr1
  generalize r'.delay = d, r'.snap = sn, r'.out = o at heq hchase hdimmer
  subst heq
  exact { h with
    run_step := fun _ => hinv.step_lt
    run_flags := fun _ => rfl
    idle_flags := fun hi => absurd hp hi
    idle_out := fun hi => absurd hp hi
    slice_le := Nat.zero_le _
    evq_le := hinv.evq_le
    evq_idle := fun hi => hinv.slave_evq (hi.resolve_left fun hne => hne hp)
    dirty_idle := fun hi => hinv.slave_dirty (hi.resolve_left fun hne => hne hp)
    out_chase := fun _ hm => (hchase hm).2
    out_dimmer := fun hm c hc => by
      have hc' : chanBit o c = true := hc
      rw [hdimmer hm] at hc'
      simpa using hc'
    tick_lt := fun _ => hinv.tick_lt }

/-! ### Slice tick -/

theorem RegsInv.endHalfCycle (h : RegsInv cfg r) (hp : r.phase = .run) : RegsInv cfg (endHalfCycle r) := by
  have hrearm : RegsInv cfg r.rearm :=
    { h with run_flags := fun _ => rfl, idle_flags := fun hi => absurd hp hi, slice_le := Nat.zero_le _ }
  cases hm : r.mode <;> simp only [Machine.endHalfCycle, hm]
  · exact hrearm
  · exact { hrearm with
      idle_out := fun _ => rfl
      out_chase := fun _ hc => absurd (hm.symm.trans hc) nofun
      out_dimmer := fun _ c hc => by simp at hc }

/-- In Dimmer mode in Run only channels whose counter is not 0 may be asserted (R187). -/
theorem RegsInv.setDelayOut {d : Lanes Byte} {o : Byte} (h : RegsInv cfg r) (hp : r.phase = .run)
    (hm : r.mode = .dimmer) (ho : ∀ c, chanBit o c = true → d.get c ≠ 0#8) :
    RegsInv cfg { r with delay := d, out := o } :=
  { h with
    idle_out := fun hi => absurd hp hi
    out_chase := fun _ hc => absurd (hm.symm.trans hc) nofun
    out_dimmer := fun _ => ho }

theorem RegsInv.sliceWork (h : RegsInv cfg r) (hp : r.phase = .run) (n : Nat) : RegsInv cfg (sliceWork cfg n r) := by
  cases hm : r.mode <;> simp only [Machine.sliceWork, hm]
  · exact h
  · split_ifs
    · exact h.setDelayOut hp hm fun c hc => by simpa using hc
    · exact h
    · exact h.setDelayOut hp hm fun c hc => by
        rw [chanBit_and, chanBit_nonzeroBits, Bool.and_eq_true] at hc
        simpa using hc.2

theorem RegsInv.sliceTick (h : RegsInv cfg r) (hp : r.phase = .run) : RegsInv cfg (sliceTickRegs cfg r) := by
  unfold sliceTickRegs
  split
  · simp only
    split
    · exact h.endHalfCycle hp
    · rename_i hb
      have hcount : RegsInv cfg { r with sliceCount := BitVec.ofNat 16 (r.sliceCount.toNat + 1) } :=
        { h with
          slice_le := by
            rw [BitVec.toNat_ofNat]
            exact (Nat.mod_le _ _).trans (Nat.not_lt.1 hb) }
      exact hcount.sliceWork hp _
  · exact h

/-! ### Every instruction -/

theorem InstrEffect.regsInv {i : Instr} {p : Ports} (he : InstrEffect i cfg p r r') (hwf : cfg.wf = true)
    (hd : i.stepDurOk) (h : RegsInv cfg r) : RegsInv cfg r' := by
  cases he with
  | same hr => exact hr ▸ h
  | reset _ hr => exact hr ▸ regsInv_atReset cfg
  | boot _ hp hr => exact hr ▸ (h.latchBoot hp p).selectSequence hwf rfl
  | loadEnd hp hr =>
    rcases hr with rfl | rfl
    · exact h.closeBlock
    · exact h.closeBlock.raise (by decide) (by simp [hp])
  | srcAbsent hp hr => exact hr ▸ h.raise (by decide) (by simp [hp])
  | start _ hs hr => exact h.start hs hr
  | edge _ ha hr => exact h.edge ha hr
  | slice hp hr => exact hr ▸ h.sliceTick hp
  | sent hr => exact hr ▸ h.sent
  | stored b hb hlen hr => exact hr ▸ h.storeByte hb hlen
  | overlong hr => exact hr ▸ h.noteOverlong
  | cleared hr => exact hr ▸ h.clearRx
  | record via rec hrec r0 h0 hr =>
    have hr0 : RegsInv cfg r0 := by
      rcases h0 with rfl | rfl
      · exact h
      · exact h.clearRx
    exact hr0.applyRecord (hrec hd) hr

end

/-- An instruction whose step, where it brings one, has a duration keeps the invariant. -/
theorem exec_keeps_inv {i : Instr} {s t : State} (hd : i.stepDurOk) (h : exec i s = .next t) (hinv : s.Inv) :
    t.Inv := by
  obtain ⟨hcfg, -⟩ := exec_keeps_cfg_tx h
  refine ⟨hcfg ▸ hinv.cfg_wf, ?_⟩
  rw [hcfg]
  exact (exec_effect h).regsInv hinv.cfg_wf hd hinv.regs

end Sys2Proof.Machine
end

section
/-! What every instruction keeps: the latched configuration, the phase but for its transitions, the overrun flag, and
a master's speed; and with these the statements about every step. -/

namespace Sys2Proof.Machine

/-- What a record can do, when the line buffer was emptied before it. -/
theorem record_effect {cfg : Config} {via : Via} {rec : Record} {r r0 r' : Regs}
    (h0 : r0 = r ∨ r0 = r.clearRx) (h : applyRecord cfg via rec r0 = .ok r') :
    RecordEffect cfg r r' ∨ RecordEffect cfg r.clearRx r' := by
  rcases h0 with rfl | rfl
  · exact .inl (applyRecord_effect h)
  · exact .inr (applyRecord_effect h)

/-! ### The latched configuration -/

/-- The registers `sel`, `mode`, `role` and `local_data` are the same (R31 to R34). -/
def SameConfig (r r' : Regs) : Prop :=
  r'.sel = r.sel ∧ r'.mode = r.mode ∧ r'.role = r.role ∧ r'.localData = r.localData

section
variable {cfg : Config} {p : Ports} {r r' : Regs}

theorem RecordEffect.sameConfig (h : RecordEffect cfg r r') : SameConfig r r' := by
  obtain ⟨hsel, hmode, hrole, hlocal, -⟩ := h.keeps
  exact ⟨hsel, hmode, hrole, hlocal⟩

theorem sameConfig_raise (k : ErrKind) (r : Regs) : SameConfig r (raise k r) := by
  simp [SameConfig]

theorem InstrEffect.sameConfig {i : Instr} (he : InstrEffect i cfg p r r') (hreset : i ≠ .reset)
    (hboot : i = .bootSample → r.phase ≠ .boot) : SameConfig r r' := by
  cases he with
  | same h | sent h | stored _ _ _ h | overlong h | cleared h => subst h; exact ⟨rfl, rfl, rfl, rfl⟩
  | reset hi => exact absurd hi hreset
  | boot hi hp => exact absurd hp (hboot hi)
  | loadEnd _ h =>
    rcases h with rfl | rfl
    · exact ⟨rfl, rfl, rfl, rfl⟩
    · exact sameConfig_raise _ r.closeBlock
  | srcAbsent _ h => exact h ▸ sameConfig_raise _ r
  | start _ hs h => rw [(startRegs_ok hs h).1]; exact ⟨rfl, rfl, rfl, rfl⟩
  | edge _ ha h =>
    obtain ⟨_, -, heq, -⟩ := edge_only ha h
    rw [heq]; exact ⟨rfl, rfl, rfl, rfl⟩
  | slice _ h => rw [h, sliceTickRegs_only]; exact ⟨rfl, rfl, rfl, rfl⟩
  | record _ _ _ _ h0 h => exact (record_effect h0 h).elim RecordEffect.sameConfig RecordEffect.sameConfig

end

/-- Settles O18: only two of the effects write the configuration. -/
theorem configurationLatchedOnce : Obligations.ConfigurationLatchedOnce :=
  fun _ _ _ hreset hboot h => (exec_effect h).sameConfig hreset hboot

/-! ### The phase -/

/-- The state in which a fatal error leaves the block (R296). -/
def Regs.failed (r : Regs) : Prop :=
  r.phase = .fatal ∧ r.err ≠ .none ∧ r.out = 0x00#8 ∧ r.zcArmed = false ∧ r.sliceAttached = false

section
variable {cfg : Config} {p : Ports} {r r' : Regs}

theorem raise_phase {k : ErrKind} (hk : k ≠ .none) (r : Regs) :
    (raise k r).phase = r.phase ∨ (raise k r).failed := by
  rcases (raise_only k r).2 with ⟨hp, -⟩ | ⟨hp, ho, hz, hs⟩
  · exact .inl hp
  · exact .inr ⟨hp, (raise_err k r).symm ▸ hk, ho, hz, hs⟩

theorem selectSequence_phase (cfg : Config) (r : Regs) :
    (selectSequence cfg r).phase = r.phase ∨ (selectSequence cfg r).failed := by
  rcases selectSequence_cases cfg r with hs | ⟨k, hk, -, hs⟩ | ⟨-, ps, -, -, hs⟩ | ⟨-, sts, -, -, -, hs⟩ <;> rw [hs]
  · exact .inl rfl
  · exact raise_phase hk r
  · exact .inl rfl
  · exact .inl rfl

/-- A record changes the phase only by a fatal error, in Load. -/
theorem RecordEffect.phase (h : RecordEffect cfg r r') : r'.phase = r.phase ∨ r.phase = .load ∧ r'.failed := by
  cases h with
  | same h => exact .inl (h ▸ rfl)
  | restart _ _ h => exact .inl (congrArg Regs.phase (applyRestart_ok h).1 :)
  | step _ _ h => exact .inl (congrArg Regs.phase (applyStep_ok h).1 :)
  | speed _ _ v h => exact .inl (h ▸ rfl)
  | header hp _ id n h =>
    subst h
    rcases qLine_cases cfg id n r with hq | ⟨-, -, hq⟩ | ⟨-, -, hq⟩ | ⟨-, -, -, hq⟩ <;> rw [hq]
    · exact .inl rfl
    · exact (raise_phase (by decide) r.closeBlock).imp_right fun hf => ⟨hp, hf⟩
    · exact (raise_phase (by decide) r.closeBlock).imp_right fun hf => ⟨hp, hf⟩
    · exact .inl rfl
  | stepLine _ _ st h =>
    rcases sLine_ok h with ⟨-, rfl⟩ | ⟨-, -, ⟨-, rfl⟩ | ⟨-, rfl⟩⟩ <;> exact .inl rfl

/-- What an instruction can do to the phase (R35). -/
theorem InstrEffect.phase {i : Instr} (he : InstrEffect i cfg p r r') :
    r'.phase = r.phase
    ∨ (i = .reset ∧ r'.phase = .boot)
    ∨ (i = .bootSample ∧ r.phase = .boot ∧ r'.phase = .load)
    ∨ (i = .start ∧ r.phase = .load ∧ r'.phase = .run)
    ∨ ((r.phase = .boot ∨ r.phase = .load) ∧ r'.failed) := by
  cases he with
  | same h | sent h | stored _ _ _ h | overlong h | cleared h => exact .inl (h ▸ rfl)
  | reset hi h => exact .inr (.inl ⟨hi, h ▸ rfl⟩)
  | boot hi hp h =>
    subst h
    rcases selectSequence_phase cfg (latchBoot p r) with hs | hf
    · exact .inr (.inr (.inl ⟨hi, hp, hs⟩))
    · exact .inr (.inr (.inr (.inr ⟨.inl hp, hf⟩)))
  | loadEnd hp h =>
    rcases h with rfl | rfl
    · exact .inl rfl
    · exact (raise_phase (by decide) r.closeBlock).imp_right fun hf => .inr (.inr (.inr ⟨.inr hp, hf⟩))
  | srcAbsent hp h =>
    subst h
    exact (raise_phase (by decide) r).imp_right fun hf => .inr (.inr (.inr ⟨.inr hp, hf⟩))
  | start hi hs h =>
    exact .inr (.inr (.inr (.inl ⟨hi, (startable_iff.1 hs).1, (congrArg Regs.phase (startRegs_ok hs h).1 :)⟩)))
  | edge _ ha h =>
    obtain ⟨_, -, heq, -⟩ := edge_only ha h
    exact .inl (congrArg Regs.phase heq :)
  | slice _ h => exact .inl (by rw [h, sliceTickRegs_only])
  | record _ _ _ _ h0 h =>
    rcases record_effect h0 h with hrec | hrec <;>
      exact hrec.phase.imp_right fun ⟨hp, hf⟩ => .inr (.inr (.inr ⟨.inr hp, hf⟩))

end

/-- Settles O19: what an instruction can do to the phase, with the first case excluded. -/
theorem phaseTransitions : Obligations.PhaseTransitions := by
  intro i s t h hne
  rcases (exec_effect h).phase with hsame | hreset | hboot | hstart | ⟨hp, hfatal, herr, hout, hz, hs⟩
  · exact absurd hsame hne
  · exact .inl hreset
  · exact .inr (.inl hboot)
  · exact .inr (.inr (.inl hstart))
  · exact .inr (.inr (.inr ⟨hfatal, hp, herr, hout, hz, hs⟩))

/-! ### The overrun flag -/

section
variable {cfg : Config} {p : Ports} {r r' : Regs}

/-- A boundary sets the flag exactly where the queue is full (R210). -/
theorem boundary_syncOverrun (cfg : Config) (v : Word) (kind : StepKind) (r : Regs) :
    (boundary cfg v kind r).syncOverrun = r.syncOverrun
    ∨ cfg.evqDepth ≤ r.evq.length ∧ (boundary cfg v kind r).syncOverrun = true := by
  rcases Nat.lt_or_ge r.evq.length cfg.evqDepth with hroom | hfull
  · exact .inl (by rw [boundary_room hroom])
  · exact .inr ⟨hfull, by rw [boundary_full hfull]⟩

theorem sequencer_syncOverrun {v : Word} (h : sequencer cfg v r = .ok r') :
    r'.syncOverrun = r.syncOverrun
    ∨ r.role = .master ∧ cfg.evqDepth ≤ r.evq.length ∧ r'.syncOverrun = true := by
  cases hr : r.role <;> simp only [sequencer, hr] at h
  · rcases seqMaster_ok h with ⟨-, rfl⟩ | ⟨-, thr, -, ⟨-, rfl⟩ | ⟨-, rfl⟩⟩
    · exact (boundary_syncOverrun cfg v _ (r.goTo _)).imp_right fun hfull => ⟨rfl, hfull⟩
    · exact (boundary_syncOverrun cfg v _ (r.goTo _)).imp_right fun hfull => ⟨rfl, hfull⟩
    · exact .inl rfl
  · cases h
    exact .inl (by rw [seqSlave_only])

theorem RecordEffect.syncOverrun (h : RecordEffect cfg r r') : r'.syncOverrun = r.syncOverrun := by
  obtain ⟨-, -, -, -, -, -, -, -, hflag, -⟩ := h.keeps
  exact hflag

/-- An instruction other than `RESET` leaves the flag, or is a master's edge that sets it (R28). -/
theorem InstrEffect.syncOverrun {i : Instr} (he : InstrEffect i cfg p r r') (hreset : i ≠ .reset) :
    r'.syncOverrun = r.syncOverrun
    ∨ i = .zcEdge ∧ r.role = .master ∧ cfg.evqDepth ≤ r.evq.length ∧ r'.syncOverrun = true := by
  cases he with
  | same h | sent h | stored _ _ _ h | overlong h | cleared h => exact .inl (h ▸ rfl)
  | reset hi => exact absurd hi hreset
  | boot _ _ h => exact .inl (h ▸ (selectSequence_keeps cfg (latchBoot p r)).2)
  | loadEnd _ h =>
    rcases h with rfl | rfl
    · exact .inl rfl
    · exact .inl (raise_syncOverrun _ r.closeBlock)
  | srcAbsent _ h => exact .inl (h ▸ raise_syncOverrun _ r)
  | start _ hs h => exact .inl (congrArg Regs.syncOverrun (startRegs_ok hs h).1 :)
  | edge hi ha h =>
    obtain ⟨r1, hseq, heq, -⟩ := edge_only ha h
    have hr1 : r'.syncOverrun = r1.syncOverrun := (congrArg Regs.syncOverrun heq :)
    rw [hr1]
    exact (sequencer_syncOverrun hseq).imp_right fun hfull => ⟨hi, hfull⟩
  | slice _ h => exact .inl (by rw [h, sliceTickRegs_only])
  | record _ _ _ _ h0 h =>
    rcases record_effect h0 h with hrec | hrec <;> exact .inl hrec.syncOverrun

end

/-- Settles O20: no effect but `RESET` clears the flag, and only a master's edge with the queue full sets it. -/
theorem overrunSticky : Obligations.OverrunSticky := by
  intro i s t hreset h
  rcases (exec_effect h).syncOverrun hreset with hsame | ⟨hi, hrole, hfull, hset⟩
  · exact ⟨fun hs => hsame.trans hs, fun hs ht => absurd (hsame.symm.trans ht) (by simp [hs])⟩
  · exact ⟨fun _ => hset, fun _ _ => ⟨hi, hrole, hfull⟩⟩

/-- Settles O23: the flag is set only with the queue full (O20), and Fatal is entered only from Boot and Load (O19). -/
theorem servedQueueStaysSafe : Obligations.ServedQueueStaysSafe := by
  rintro i s t hp hroom ⟨hflag, -⟩ h
  constructor
  · by_cases hi : i = .reset
    · subst hi
      cases h
      rfl
    · obtain ⟨-, hset⟩ := overrunSticky i s t hi h
      by_contra hne
      obtain ⟨-, -, hfull⟩ := hset hflag (by simpa using hne)
      omega
  · intro hfatal
    have hne : t.regs.phase ≠ s.regs.phase := by simp [hfatal, hp]
    rcases phaseTransitions i s t h hne with ⟨-, ht⟩ | ⟨-, -, ht⟩ | ⟨-, -, ht⟩ | ⟨-, hs, -⟩
    · simp [hfatal] at ht
    · simp [hfatal] at ht
    · simp [hfatal] at ht
    · simp [hp] at hs

/-! ### The speed of a master -/

section
variable {cfg : Config} {p : Ports} {r r' : Regs}

theorem sequencer_speedParam {v : Word} (h : sequencer cfg v r = .ok r') :
    r'.speedParam = r.speedParam ∨ r'.speedParam = v := by
  cases hr : r.role <;> simp only [sequencer, hr] at h
  · rcases seqMaster_ok h with ⟨-, rfl⟩ | ⟨-, thr, -, ⟨-, rfl⟩ | ⟨-, rfl⟩⟩
    · exact .inr (by rw [boundary_only])
    · exact .inr (by rw [boundary_only])
    · exact .inl rfl
  · cases h
    exact .inl (by rw [seqSlave_only])

/-- Only events, which a slave alone applies, write the speed from a line. -/
theorem RecordEffect.speedParam (h : RecordEffect cfg r r') (hr : r.role = .master) :
    r'.speedParam = r.speedParam := by
  have hslave : r.role ≠ .slave := by simp [hr]
  cases h with
  | same h => rw [h]
  | restart _ hs | step _ hs | speed _ hs => exact absurd hs hslave
  | header _ _ id n h =>
    rw [h]
    rcases qLine_cases cfg id n r with hq | ⟨-, -, hq⟩ | ⟨-, -, hq⟩ | ⟨-, -, -, hq⟩ <;> rw [hq] <;> simp
  | stepLine _ _ st h =>
    rcases sLine_ok h with ⟨-, rfl⟩ | ⟨-, -, ⟨-, rfl⟩ | ⟨-, rfl⟩⟩ <;> rfl

/-- On a master the speed stays, is sampled from `SPEED_IN`, or is that of reset (R24). -/
theorem InstrEffect.speedParam {i : Instr} (he : InstrEffect i cfg p r r') (hr : r.role = .master) :
    r'.speedParam = r.speedParam ∨ r'.speedParam = p.speedIn ∨ r' = .atReset := by
  cases he with
  | same h | sent h | stored _ _ _ h | overlong h | cleared h => exact .inl (h ▸ rfl)
  | reset _ h => exact .inr (.inr h)
  | boot _ _ h => exact .inl (h ▸ (selectSequence_keeps cfg (latchBoot p r)).1)
  | loadEnd _ h =>
    rcases h with rfl | rfl
    · exact .inl rfl
    · exact .inl (raise_speedParam _ r.closeBlock)
  | srcAbsent _ h => exact .inl (h ▸ raise_speedParam _ r)
  | start _ hs h => exact .inr (.inl (congrArg Regs.speedParam (startRegs_ok hs h).1 :))
  | edge _ ha h =>
    obtain ⟨r1, hseq, heq, -⟩ := edge_only ha h
    have hr1 : r'.speedParam = r1.speedParam := (congrArg Regs.speedParam heq :)
    rw [hr1]
    exact (sequencer_speedParam hseq).imp_right .inl
  | slice _ h => exact .inl (by rw [h, sliceTickRegs_only])
  | record _ _ _ _ h0 h =>
    rcases record_effect h0 h with hrec | hrec <;> exact .inl (hrec.speedParam hr)

theorem InstrEffect.speedInRange {i : Instr} (he : InstrEffect i cfg p r r') (hr : r.role = .master)
    (hports : p.speedInRange) (h : r.speedInRange) : r'.speedInRange := by
  rcases he.speedParam hr with hs | hs | rfl
  · unfold Regs.speedInRange; rw [hs]; exact h
  · unfold Regs.speedInRange; rw [hs]; exact hports
  · exact ⟨by decide, by decide⟩

end

/-! ### Every step -/

/-- Settles O11: a step performs at most one instruction, decoded from a request, on registers that presenting the
instant left alone; every effect of an instruction keeps the invariant. -/
theorem stepKeepsInvariant : Obligations.StepKeepsInvariant := by
  intro s t h
  have harrive : s.Inv → ∀ pending, State.Inv { s.arrive with pending := pending } := fun hinv pending =>
    ⟨by simpa using hinv.cfg_wf, by simpa using hinv.regs⟩
  rcases step_cases h with rfl | ⟨q, rest, -, rfl | ⟨i, hdec, hexec⟩⟩
  · exact ⟨fun hinv => harrive hinv _, fun _ _ hs => by simpa using hs⟩
  · exact ⟨fun hinv => harrive hinv _, fun _ _ hs => by simpa using hs⟩
  · refine ⟨fun hinv => exec_keeps_inv (decode_stepDurOk hdec) hexec (harrive hinv rest), fun hr hports hs => ?_⟩
    exact (exec_effect hexec).speedInRange (by simpa using hr) hports (by simpa using hs)

end Sys2Proof.Machine
end

section
/-! The schedule and the step: which request is performed, what the step does with it, and what no operation does in
Run or from a state of the invariant: it writes no table (R90), and it presents no table index that does not exist
(R73). -/

namespace Sys2Proof.Machine

/-! ### The environment and the schedule -/

theorem State.arrive_nil {s : State} (h : s.arrivals = []) : s.arrive = s := by
  simp only [State.arrive, h]

theorem State.arrive_cons {s : State} {n : Instant} {later : List Instant} (h : s.arrivals = n :: later) :
    s.arrive = { s with ports := n.ports, pending := s.pending ++ n.requests, arrivals := later } := by
  simp only [State.arrive, h]

theorem step_of_pick {s : State} {q : Request} {rest : List Request} (h : pick s.arrive.pending = some (q, rest)) :
    step s = perform q { s.arrive with pending := rest } := by
  simp only [step, h]

theorem perform_of_decode {s : State} {q : Request} {i : Instr} (h : decode s.cfg q = .ok i) :
    perform q s = exec i s := by
  simp only [perform, h]

/-- Settles O8: presenting an instant leaves the parameters, by which the picked request is decoded. -/
theorem stepRunsDecodedRequest : Obligations.StepRunsDecodedRequest := by
  refine fun s => ⟨State.arrive_nil, fun _ _ => State.arrive_cons, fun q rest i hpick hdec _ => ?_⟩
  have hdec' : decode s.arrive.cfg q = .ok i := s.arrive_cfg.symm ▸ hdec
  exact (step_of_pick hpick).trans (perform_of_decode hdec')

/-- Every operation but `RESET`, `ZC_EDGE` and `SLICE_TICK` is of the main-loop class (R300). -/
theorem Request.priority_mainLoop {code : BitVec 4} (operand : List Byte) (h : code ∉ [0#4, 6#4, 7#4]) :
    Request.priority (.op code operand) = 3 := by
  simp only [List.mem_cons, List.not_mem_nil, or_false, not_or] at h
  obtain ⟨hreset, hedge, hslice⟩ := h
  rw [Request.priority, if_neg hreset, if_neg hedge, if_neg hslice]

/-- Settles O10: `pick` takes the first request of the highest class (`pick_some`), and answers on every list that is
not empty (`pick_none`). -/
theorem priorityOrder : Obligations.PriorityOrder := by
  refine ⟨fun _ => rfl, fun _ => rfl, fun _ => rfl, fun _ operand => Request.priority_mainLoop operand,
    fun _ _ => rfl, fun l hne => ?_⟩
  cases hpick : pick l with
  | none => exact absurd (pick_none hpick) hne
  | some picked =>
    obtain ⟨q, rest⟩ := picked
    obtain ⟨a, b, hl, rfl, hfirst, hhighest⟩ := pick_some hpick
    exact ⟨a, b, q, hl, rfl, hhighest, hfirst⟩

/-! ### The tables in Run -/

/-- The sequence tables, their lengths and marks, and the staging table are the same (R48, R52, R53). -/
def SameTables (r r' : Regs) : Prop :=
  r'.chaseTab = r.chaseTab ∧ r'.chaseLen = r.chaseLen ∧ r'.chaseValid = r.chaseValid
  ∧ r'.dimTab = r.dimTab ∧ r'.dimLen = r.dimLen ∧ r'.dimValid = r.dimValid ∧ r'.stage = r.stage

section
variable {cfg : Config} {p : Ports} {r r' : Regs}

theorem RecordEffect.sameTables (h : RecordEffect cfg r r') (hp : r.phase = .run) : SameTables r r' := by
  rw [h.run hp]
  exact ⟨rfl, rfl, rfl, rfl, rfl, rfl, rfl⟩

/-- What an instruction other than `RESET` does in Run leaves the tables; what would write them is of Boot or Load. -/
theorem InstrEffect.sameTables {i : Instr} (he : InstrEffect i cfg p r r') (hreset : i ≠ .reset)
    (hp : r.phase = .run) : SameTables r r' := by
  have hload : r.phase ≠ .load := by simp [hp]
  cases he with
  | same h | sent h | stored _ _ _ h | overlong h | cleared h => subst h; exact ⟨rfl, rfl, rfl, rfl, rfl, rfl, rfl⟩
  | reset hi => exact absurd hi hreset
  | boot _ hboot => simp [hp] at hboot
  | loadEnd hl | srcAbsent hl => exact absurd hl hload
  | start _ hs => exact absurd (startable_iff.1 hs).1 hload
  | edge _ ha h =>
    obtain ⟨_, -, heq, -⟩ := edge_only ha h
    rw [heq]; exact ⟨rfl, rfl, rfl, rfl, rfl, rfl, rfl⟩
  | slice _ h => rw [h, sliceTickRegs_only]; exact ⟨rfl, rfl, rfl, rfl, rfl, rfl, rfl⟩
  | record _ _ _ _ h0 h =>
    exact (record_effect h0 h).elim (fun hrec => hrec.sameTables hp) (fun hrec => hrec.sameTables (r := r.clearRx) hp)

end

/-- Settles O17: no effect of an instruction in Run but that of `RESET` writes a table. -/
theorem runKeepsTables : Obligations.RunKeepsTables :=
  fun _ _ _ hp hreset h => (exec_effect h).sameTables hreset hp

/-! ### Indices that exist -/

section
variable {cfg : Config} {r : Regs}

/-- Under the invariant every element below the length of the active sequence can be read (R71, R72). -/
theorem RegsInv.readable (h : RegsInv cfg r) {i : Nat} (hi : i < r.seqLen) : r.readable i := by
  cases hm : r.mode <;> simp only [Regs.seqLen, Regs.readable, hm] at hi ⊢
  · exact memReadChase_total h.chase_length hi
  · obtain ⟨st, hst, -⟩ := memReadDim_total h.dim_length hi
    exact ⟨st, hst⟩

theorem mux_total {i : Nat} (hm : r.mode = .chase) (h : r.readable i) : ∃ o, mux r i = .ok o := by
  simp only [Regs.readable, hm] at h
  obtain ⟨p, hp⟩ := h
  exact ⟨~~~p, mux_ok.2 ⟨p, hp, rfl⟩⟩

theorem threshold_total (h : r.readable r.currentStep.toNat) : ∃ thr, threshold cfg r = .ok thr := by
  cases hm : r.mode
  · exact ⟨_, threshold_chase hm⟩
  · simp only [Regs.readable, hm] at h
    obtain ⟨st, hst⟩ := h
    exact ⟨_, threshold_dimmer hm hst⟩

/-- An effect under a guard answers where it answers whenever the guard holds. -/
theorem guarded_total {c : Bool} {x : Except Fault Regs} (h : c = true → ∃ r', x = .ok r') :
    ∃ r', (if c then x else .ok r) = .ok r' := by
  cases c
  · exact ⟨r, rfl⟩
  · exact h rfl

/-! ### Records and lines -/

theorem showStep_goTo_total {w : Word} (h : RegsInv cfg r) (hw : w.toNat < r.seqLen) :
    ∃ r', showStep (r.goTo w) = .ok r' :=
  have hread : (r.goTo w).readable w.toNat := readable_congr rfl rfl rfl rfl rfl (h.readable hw)
  showStep_total fun hm => mux_total hm hread

theorem applyRestart_total (h : RegsInv cfg r) (hp : r.phase = .run) : ∃ r', applyRestart r = .ok r' :=
  showStep_goTo_total (w := 0#16) h (Nat.zero_lt_of_lt (h.run_step hp))

theorem applyStep_total (h : RegsInv cfg r) (hp : r.phase = .run) : ∃ r', applyStep r = .ok r' := by
  refine showStep_goTo_total h ?_
  have := h.run_step hp
  rw [stepTarget_toNat]
  split <;> omega

/-- The entry an open block writes next lies inside the staging table (R74). -/
theorem sLine_total (h : RegsInv cfg r) (st : DimStep) : ∃ r', sLine cfg st r = .ok r' := by
  cases hm : r.ldMatch
  · exact ⟨r, by simp [sLine, hm]⟩
  · obtain ⟨hfill, hcap, -⟩ := h.block_open hm
    have hindex : r.ldFill.toNat < cfg.dimCap := by omega
    by_cases hn : r.ldFill.toNat + 1 = r.ldExpect.toNat
    · exact ⟨_, sLine_commit hm hindex hn⟩
    · exact ⟨_, sLine_stage hm hindex hn⟩

theorem applyRecord_total (h : RegsInv cfg r) (via : Via) (rec : Record) :
    ∃ r', applyRecord cfg via rec r = .ok r' := by
  cases rec with
  | r => exact guarded_total fun hh => applyRestart_total h (hearsEvents_iff.1 hh).1
  | z => exact guarded_total fun hh => applyStep_total h (hearsEvents_iff.1 hh).1
  | c value =>
    cases value with
    | none => exact ⟨r, rfl⟩
    | some v => exact guarded_total fun _ => ⟨_, rfl⟩
  | q header =>
    cases header with
    | none => exact ⟨r, rfl⟩
    | some idn => exact guarded_total fun _ => ⟨_, rfl⟩
  | s step =>
    cases step with
    | none => exact ⟨r, rfl⟩
    | some st => exact guarded_total fun _ => sLine_total h st

theorem processLine_total (h : RegsInv cfg r) (via : Via) (line : List Byte) :
    ∃ r', processLine cfg via line r = .ok r' := by
  unfold processLine
  split
  · exact applyRecord_total h via _
  · exact ⟨r, rfl⟩

theorem consumeLine_total (h : RegsInv cfg r) (line : List Byte) : ∃ r', consumeLine cfg line r = .ok r' := by
  unfold consumeLine
  split
  · exact processLine_total h .loader line
  · exact ⟨r, rfl⟩

theorem rxByteRegs_total (h : RegsInv cfg r) (b : Byte) : ∃ r', rxByteRegs cfg b r = .ok r' := by
  unfold rxByteRegs
  split_ifs
  case neg => exact processLine_total h.clearRx .wire r.rxBuf
  all_goals exact ⟨_, rfl⟩

/-! ### Start and edge -/

theorem startRegs_total (h : RegsInv cfg r) (v : Word) : ∃ r', startRegs v r = .ok r' := by
  refine guarded_total fun hs => ?_
  obtain ⟨-, hchase, hdimmer⟩ := startable_iff.1 hs
  have hread := h.readable (h.seqLen_pos hchase hdimmer)
  cases hm : r.mode
  · obtain ⟨o, ho⟩ := mux_total hm hread
    simp only [ho]
    exact ⟨_, rfl⟩
  · exact ⟨_, rfl⟩

theorem seqMaster_total (v : Word) (h : r.readable r.currentStep.toNat) : ∃ r', seqMaster cfg v r = .ok r' := by
  obtain ⟨thr, hthr⟩ := threshold_total (cfg := cfg) h
  simp only [seqMaster, hthr]
  split_ifs <;> exact ⟨_, rfl⟩

theorem sequencer_total (v : Word) (h : r.readable r.currentStep.toNat) : ∃ r', sequencer cfg v r = .ok r' := by
  cases hr : r.role <;> simp only [sequencer, hr]
  · exact seqMaster_total v h
  · exact ⟨_, rfl⟩

/-- The step a sequencer leads to can be read: it is inside the sequence, and the tables are those before. -/
theorem sequencer_readable {r1 : Regs} {v : Word} (h : RegsInv cfg r) (hp : r.phase = .run)
    (hs : sequencer cfg v r.acceptEdge = .ok r1) : r1.readable r1.currentStep.toNat := by
  have hlt := ((h.sequencerInv hp).sequencer hs).step_lt
  have hr1 := sequencer_only hs
  have hmode : r1.mode = r.mode := (congrArg Regs.mode hr1 :)
  have hchaseLen : r1.chaseLen = r.chaseLen := (congrArg Regs.chaseLen hr1 :)
  have hchaseTab : r1.chaseTab = r.chaseTab := (congrArg Regs.chaseTab hr1 :)
  have hdimLen : r1.dimLen = r.dimLen := (congrArg Regs.dimLen hr1 :)
  have hdimTab : r1.dimTab = r.dimTab := (congrArg Regs.dimTab hr1 :)
  rw [seqLen_congr hmode hdimLen hchaseLen] at hlt
  exact readable_congr hmode hchaseLen hchaseTab hdimLen hdimTab (h.readable hlt)

theorem zcEdgeRegs_total (h : RegsInv cfg r) (v : Word) : ∃ r', zcEdgeRegs cfg v r = .ok r' := by
  by_cases ha : r.acceptsEdge = true
  · obtain ⟨hp, -⟩ := acceptsEdge_iff.1 ha
    have hread : r.acceptEdge.readable r.acceptEdge.currentStep.toNat :=
      readable_congr rfl rfl rfl rfl rfl (h.readable (h.run_step hp))
    obtain ⟨r1, hseq⟩ := sequencer_total (cfg := cfg) v hread
    obtain ⟨r2, hdrive⟩ := driveEdge_total (cfg := cfg) (sequencer_readable h hp hseq)
    exact ⟨_, (zcEdgeRegs_accepted ha).2 ⟨r1, r2, hseq, hdrive, rfl⟩⟩
  · exact ⟨r, if_neg ha⟩

/-! ### Every instruction and the step -/

/-- From registers of the invariant every instruction answers. -/
theorem regsAfter_total (h : RegsInv cfg r) (i : Instr) (p : Ports) : ∃ r', regsAfter i cfg p r = .ok r' := by
  cases i with
  | recR via => exact applyRecord_total h via .r
  | recZ via => exact applyRecord_total h via .z
  | recC via value => exact applyRecord_total h via (.c value)
  | recQ via header => exact applyRecord_total h via (.q header)
  | recS via step => exact applyRecord_total h via (.s step)
  | loadLine line => exact guarded_total fun _ => consumeLine_total h line
  | start => exact startRegs_total h p.speedIn
  | zcEdge => exact zcEdgeRegs_total h p.speedIn
  | rxByte b => exact rxByteRegs_total h b
  | reset | bootSample | loadEnd | srcAbsent | sliceTick | txService | read => exact ⟨_, rfl⟩
  | reserved11 | reserved12 | reserved13 | reserved14 | reserved15 => exact ⟨r, rfl⟩

end

theorem exec_not_fault {s : State} (h : s.Inv) (i : Instr) (f : Fault) : exec i s ≠ .fault f := by
  intro hf
  obtain ⟨r', hr'⟩ := regsAfter_total h.regs i s.ports
  exact nomatch hr'.symm.trans (exec_fault_iff.1 hf)

/-- A request that is no instruction is discarded or refused. -/
theorem disposeOf_not_fault (e : DecodeError) (s : State) (f : Fault) : disposeOf e s ≠ .fault f := by
  cases e <;> nofun

theorem perform_not_fault {s : State} (h : s.Inv) (q : Request) (f : Fault) : perform q s ≠ .fault f := by
  unfold perform
  split
  · exact exec_not_fault h _ f
  · exact disposeOf_not_fault _ s f

/-- Presenting an instant and taking a request off the list leave what the invariant speaks of. -/
theorem State.Inv.arrive {s : State} (h : s.Inv) (pending : List Request) :
    State.Inv { s.arrive with pending := pending } :=
  ⟨by simpa using h.cfg_wf, by simpa using h.regs⟩

/-- Settles O13: the reads answer as `memReadChase_ok` and `memReadDim_ok` say; a step performs one request at most, on
registers that meet the invariant, from which every instruction answers (`regsAfter_total`). -/
theorem invariantNeverFaults : Obligations.InvariantNeverFaults := by
  refine ⟨fun _ _ _ => memReadChase_ok, fun _ _ _ => memReadDim_ok, fun s f hinv => ?_⟩
  cases hpick : pick s.arrive.pending with
  | none => simp [step, hpick]
  | some picked =>
    obtain ⟨q, rest⟩ := picked
    rw [step_of_pick hpick]
    exact perform_not_fault (hinv.arrive rest) q f

end Sys2Proof.Machine
end

section
/-! Proofs of the scope's statements about the encodings: tokens and decimal spelling, the canonical records, the
operations, and what the decoder answers and accepts. -/

namespace Sys2Proof

/-! ### Tokens and decimal spelling -/

/-- Settles O6: `tokensFrom` cuts at an `SP` wherever it stands, and what it gathers in between holds none. -/
theorem tokensCutAtSpaces : Obligations.TokensCutAtSpaces := by
  refine ⟨rfl, fun a b => tokensFrom_append_space a b [], fun a hne hsp => ?_, fun a t ht => ?_⟩
  · rw [tokens, tokensFrom_no_space hsp]
    simp [hne]
  · exact tokensFrom_mem ht List.not_mem_nil

/-- A digit string spells the sum of its digits, each times the power of ten of its place. -/
theorem digitsValue_eq_sum (a : List Byte) :
    digitsValue a
      = (Finset.range a.length).sum fun k => ((a.getD k 0#8).toNat - 0x30) * 10 ^ (a.length - 1 - k) := by
  induction a using List.reverseRecOn with
  | nil => rfl
  | append_singleton a b ih =>
    rw [digitsValue_append_one, ih, List.length_append, List.length_singleton, Finset.sum_range_succ, Finset.sum_mul]
    congr 1
    · refine Finset.sum_congr rfl fun k hk => ?_
      have hk : k < a.length := Finset.mem_range.1 hk
      rw [List.getD_append _ _ _ _ hk, mul_assoc, ← pow_succ]
      congr 2
      omega
    · simp

theorem isDigit_iff {b : Byte} : isDigit b = true ↔ 0x30 ≤ b.toNat ∧ b.toNat ≤ 0x39 := by
  simp [isDigit]

/-- When a token is an `int`, and of which value (R110). -/
theorem parseInt_some {a : List Byte} {n : Nat} :
    parseInt a = some n ↔ a ≠ [] ∧ (∀ b ∈ a, isDigit b = true) ∧ n = digitsValue a := by
  unfold parseInt
  split_ifs with hempty hall
  · simp [List.isEmpty_iff.1 hempty]
  · rw [List.all_eq_true] at hall
    rw [List.isEmpty_iff] at hempty
    exact ⟨fun h => ⟨hempty, hall, (Option.some.inj h).symm⟩, fun ⟨_, _, hn⟩ => congrArg some hn.symm⟩
  · rw [List.all_eq_true] at hall
    exact ⟨nofun, fun ⟨_, hdigits, _⟩ => absurd hdigits hall⟩

theorem Word.toNat_le (v : Word) : v.toNat ≤ 65535 := Nat.le_of_lt_succ v.isLt

/-- Settles O5: an `int` is judged digit by digit, and `dec_spec` says what spelling a value answers. -/
theorem decimalReadsBack : Obligations.DecimalReadsBack := by
  refine ⟨fun a n => ?_, fun v => ?_⟩
  · simp only [parseInt_some, isDigit_iff, digitsValue_eq_sum]
  · have hv := Word.toNat_le v
    obtain ⟨-, hlen, -, -, hzero⟩ := dec_spec hv
    refine ⟨parseWord_dec v, parseInt_dec hv, hlen, fun h0 => ?_⟩
    obtain ⟨hv0, hdec⟩ := hzero h0
    exact ⟨BitVec.eq_of_toNat_eq hv0, hdec⟩

/-! ### Canonical records -/

/-- The fields of a step are its duration and then start and stop of each channel in turn (R106). -/
theorem DimStep.fields_eq_flatMap (st : DimStep) :
    st.fields = st.dur :: (List.finRange 8).flatMap fun c => [st.start.get c, st.stop.get c] := rfl

/-- A step all of whose fields are spelled with three digits. -/
def longestStep : DimStep := ⟨255#8, .all 255#8, .all 255#8⟩

theorem longestStep_payload_length : (Record.s (some longestStep)).payload.length = 69 := by decide

/-- Settles O7: each spelling is the definition of `Record.payload`, and `payload_length_le` bounds them all. -/
theorem canonicalRecordFits : Obligations.CanonicalRecordFits := by
  refine ⟨rfl, rfl, fun v => rfl, fun id n => ?_, fun st => ?_, payload_length_le,
    longestStep, longestStep_payload_length⟩
  · simp [Record.payload, byteQ, byteSP]
  · rw [← DimStep.fields_eq_flatMap]
    rfl

/-! ### Operations -/

theorem noOperand_encode {i j : Instr} {code : BitVec 4} {operand : List Byte} (h : noOperand i operand = .ok j)
    (hi : encode i = .op code []) : encode j = .op code operand := by
  cases operand <;> cases h
  exact hi

theorem decodeOp_loadLine_ok {term : Byte} {operand : List Byte} {i : Instr} :
    decodeOp term 2#4 operand = .ok i ↔ term ∉ operand ∧ i = .loadLine operand := by
  by_cases h : term ∈ operand <;> simp [decodeOp, h, eq_comm]

theorem decodeOp_rxByte_ok {term : Byte} {operand : List Byte} {i : Instr} :
    decodeOp term 8#4 operand = .ok i ↔ ∃ b, operand = [b] ∧ i = .rxByte b := by
  match operand with
  | [] | _ :: _ :: _ => simp [decodeOp]
  | [b] => simp [decodeOp, eq_comm]

/-- The encoder writes an operation exactly as it was requested (R120). -/
theorem encode_of_decodeOp {term : Byte} {code : BitVec 4} {operand : List Byte} {i : Instr}
    (h : decodeOp term code operand = .ok i) (hcode : code.toNat < 11) : encode i = .op code operand := by
  obtain ⟨n, hn⟩ := code
  change n < 11 at hcode
  interval_cases n
  -- All but `LOAD_LINE` and `RX_BYTE` take no operand.
  any_goals exact noOperand_encode h rfl
  · obtain ⟨-, rfl⟩ := decodeOp_loadLine_ok.1 h
    rfl
  · obtain ⟨b, rfl, rfl⟩ := decodeOp_rxByte_ok.1 h
    rfl

/-- A reserved code names no operation: whatever bytes came with it, the encoder writes the code alone (R120). -/
theorem encode_of_decodeOp_reserved {term : Byte} {code : BitVec 4} {operand : List Byte} {i : Instr}
    (h : decodeOp term code operand = .ok i) (hcode : 11 ≤ code.toNat) : encode i = .op code [] := by
  obtain ⟨n, hn⟩ := code
  change 11 ≤ n at hcode
  interval_cases n <;> cases h <;> rfl

/-- Settles O4: a request with a code below 11 is what the encoder writes, and a reserved code takes any operand. -/
theorem operationRequestUnique : Obligations.OperationRequestUnique :=
  fun _ _ _ _ h => ⟨encode_of_decodeOp h, encode_of_decodeOp_reserved h⟩

/-! ### Lines -/

section
variable {cfg : Config} {via : Via} {payload : List Byte}

theorem decode_line_overlong (hterm : cfg.term ∉ payload) (hlen : cfg.lineMax < payload.length) :
    decode cfg (.line via payload) = .error .overlongLine := by
  simp [decode, hterm, hlen]

theorem decode_line_ok {rec : Record} (hterm : cfg.term ∉ payload) (hlen : payload.length ≤ cfg.lineMax)
    (h : decodeLine payload = .ok rec) : decode cfg (.line via payload) = .ok (rec.toInstr via) := by
  simp [decode, hterm, Nat.not_lt.2 hlen, h]

theorem decode_line_error {e : DecodeError} (hterm : cfg.term ∉ payload) (hlen : payload.length ≤ cfg.lineMax)
    (h : decodeLine payload = .error e) : decode cfg (.line via payload) = .error e := by
  simp [decode, hterm, Nat.not_lt.2 hlen, h]

end

/-- A record, with a duration inside the data model where it has one, is read back from what the encoder writes for it. -/
theorem decode_encode_toInstr {cfg : Config} {rec : Record} (via : Via) (hwf : cfg.wf = true)
    (hterm : cfg.termPlain = true) (hdur : rec.stepDurOk) :
    decode cfg (encode (rec.toInstr via)) = .ok (rec.toInstr via) := by
  obtain ⟨-, -, -, -, hmax, -⟩ := Config.wf_bounds hwf
  have hencode : encode (rec.toInstr via) = .line via rec.payload := by cases rec <;> rfl
  rw [hencode]
  exact decode_line_ok (term_notin_payload hterm rec) ((payload_length_le rec).trans hmax) (decodeLine_payload hdur)

theorem Instr.wellFormed_loadLine {cfg : Config} {line : List Byte} :
    (Instr.loadLine line).wellFormed cfg = true ↔ cfg.term ∉ line := by
  simp [Instr.wellFormed]

theorem Instr.wellFormed_recS {cfg : Config} {via : Via} {st : DimStep} :
    (Instr.recS via (some st)).wellFormed cfg = true ↔ st.dur ≠ 0#8 := durOk_iff

/-- Settles O2: a record is read back from its canonical payload (`decode_encode_toInstr`), an operation from its
code. -/
theorem decodeEncodeAgree : Obligations.DecodeEncodeAgree := by
  intro cfg i hwf hterm hi
  cases i with
  | recR via => exact decode_encode_toInstr (rec := .r) via hwf hterm nofun
  | recZ via => exact decode_encode_toInstr (rec := .z) via hwf hterm nofun
  | recC via value => exact decode_encode_toInstr (rec := .c value) via hwf hterm nofun
  | recQ via header => exact decode_encode_toInstr (rec := .q header) via hwf hterm nofun
  | recS via step =>
    refine decode_encode_toInstr (rec := .s step) via hwf hterm ?_
    rintro st ⟨⟩
    exact Instr.wellFormed_recS.1 hi
  | loadLine line =>
    have hline : cfg.term ∉ line := Instr.wellFormed_loadLine.1 hi
    simp [encode, decode, decodeOp, hline]
  | rxByte b => rfl
  | reset | bootSample | loadEnd | srcAbsent | start | zcEdge | sliceTick | txService | read => rfl
  | reserved11 | reserved12 | reserved13 | reserved14 | reserved15 => rfl

/-! ### What the decoder answers and accepts -/

/-- A `LOAD_LINE` that the decoder answers holds no `TERM`. -/
theorem decode_loadLine {cfg : Config} {q : Request} {line : List Byte} (h : decode cfg q = .ok (.loadLine line)) :
    cfg.term ∉ line := by
  cases q with
  | op code operand =>
    have hop : decodeOp cfg.term code operand = .ok (.loadLine line) := h
    rcases Nat.lt_or_ge code.toNat 11 with hcode | hcode
    · cases encode_of_decodeOp hop hcode
      exact (decodeOp_loadLine_ok.1 hop).1
    · cases encode_of_decodeOp_reserved hop hcode
      exact absurd hcode (by decide)
  | line via payload =>
    simp only [decode] at h
    split_ifs at h
    split at h
    · rename_i rec _
      cases rec <;> cases h
    · cases h

/-- Whatever the decoder answers is well formed. -/
theorem wellFormed_of_decode {cfg : Config} {q : Request} {i : Instr} (h : decode cfg q = .ok i) :
    i.wellFormed cfg = true := by
  cases i with
  | loadLine line => exact Instr.wellFormed_loadLine.2 (decode_loadLine h)
  | recS via step =>
    cases step with
    | none => rfl
    | some st => exact Instr.wellFormed_recS.2 (decode_stepDurOk h via st rfl)
  | _ => rfl

theorem decodeLine_unknown {k : Byte} (h : k ∉ [byteR, byteZ, byteC, byteQ, byteS]) (rest : List Byte) :
    decodeLine (k :: rest) = .error .unknownLine := by
  simp only [List.mem_cons, List.not_mem_nil, or_false, not_or] at h
  simp [decodeLine, h]

/-- The "Accepted" clause of a `C` record (R104). -/
theorem decodeC_some {rest : List Byte} {v : Word} :
    decodeC rest = some v ↔ ∃ a, tokens rest = [a] ∧ parseInt a = some v.toNat := by
  simp only [← parseWord_some]
  constructor
  · intro h
    unfold decodeC at h
    split at h
    · rename_i a ha
      exact ⟨a, ha, h⟩
    · cases h
  · rintro ⟨a, ha, hv⟩
    simp only [decodeC, ha, hv]

/-- The "Accepted" clause of a `Q` record (R105). -/
theorem decodeQ_some {rest : List Byte} {id n : Word} :
    decodeQ rest = some (id, n) ↔
      ∃ a b, tokens rest = [a, b] ∧ parseInt a = some id.toNat ∧ parseInt b = some n.toNat := by
  simp only [← parseWord_some]
  constructor
  · intro h
    unfold decodeQ at h
    split at h
    · rename_i a b hab
      split at h <;> cases h
      rename_i hid hn
      exact ⟨a, b, hab, hid, hn⟩
    · cases h
  · rintro ⟨a, b, hab, hid, hn⟩
    simp only [decodeQ, hab, hid, hn]

/-- When tokens are read as the given bytes, in the terms of the "Accepted" clauses: as many, and each an `int` of its
value. -/
theorem map_parseByte_eq {ts : List (List Byte)} {vs : List Byte} :
    ts.map parseByte = vs.map some ↔
      ts.length = vs.length ∧ ∀ (k : Nat) (v : Byte), vs[k]? = some v → (ts[k]?).bind parseInt = some v.toNat := by
  have hentry (k : Nat) (v : Byte) :
      (ts[k]?).bind parseInt = some v.toNat ↔ (ts.map parseByte)[k]? = some (some v) := by
    rw [List.getElem?_map]
    cases ts[k]? <;> simp [parseByte_some]
  simp only [hentry]
  constructor
  · intro h
    refine ⟨by simpa using congrArg List.length h, fun k v hv => ?_⟩
    rw [h, List.getElem?_map, hv]
    rfl
  · rintro ⟨hlen, h⟩
    refine List.ext_getElem (by simpa using hlen) fun k hk hk' => ?_
    rw [List.length_map] at hk'
    have hv := h k vs[k] (List.getElem?_eq_getElem hk')
    rw [List.getElem?_eq_getElem hk] at hv
    simpa using hv

/-- An `S` record is accepted when its tokens are read as the fields of a step inside the data model. -/
theorem decodeS_eq_some {rest : List Byte} {st : DimStep} :
    decodeS rest = some st ↔ (tokens rest).map parseByte = st.fields.map some ∧ st.dur ≠ 0#8 := by
  rw [← parseBytes_some]
  unfold decodeS
  split
  · rename_i vs hvs
    simp [hvs, stepOfFields_some]
  · rename_i h
    simp [h]

/-- Where start and stop of a channel stand among the fields (R106). -/
theorem DimStep.fields_getElem? (st : DimStep) (c : Fin 8) :
    st.fields[1 + 2 * c.val]? = some (st.start.get c) ∧ st.fields[2 + 2 * c.val]? = some (st.stop.get c) := by
  fin_cases c <;> exact ⟨rfl, rfl⟩

/-- Every place of a field is that of the duration or of start or stop of a channel. -/
theorem sField_index : ∀ k < 17, k = 0 ∨ ∃ c : Fin 8, k = 1 + 2 * c.val ∨ k = 2 + 2 * c.val := by decide

/-- A property of every field of a step, by its place, is one of the duration and of start and stop of each channel. -/
theorem DimStep.forall_field {st : DimStep} {P : Nat → Byte → Prop} :
    (∀ k v, st.fields[k]? = some v → P k v) ↔
      P 0 st.dur ∧ ∀ c : Fin 8, P (1 + 2 * c.val) (st.start.get c) ∧ P (2 + 2 * c.val) (st.stop.get c) := by
  constructor
  · intro h
    refine ⟨h 0 _ rfl, fun c => ?_⟩
    obtain ⟨hstart, hstop⟩ := st.fields_getElem? c
    exact ⟨h _ _ hstart, h _ _ hstop⟩
  · rintro ⟨hdur, hchannels⟩ k v hk
    obtain ⟨hlt, -⟩ := List.getElem?_eq_some_iff.1 hk
    rcases sField_index k hlt with rfl | ⟨c, rfl | rfl⟩
    · cases hk
      exact hdur
    · cases hk.symm.trans (st.fields_getElem? c).1
      exact (hchannels c).1
    · cases hk.symm.trans (st.fields_getElem? c).2
      exact (hchannels c).2

/-- The "Accepted" clause of an `S` record (R106). -/
theorem decodeS_some {rest : List Byte} {st : DimStep} :
    decodeS rest = some st ↔
      (tokens rest).length = 17 ∧ ((tokens rest)[0]?).bind parseInt = some st.dur.toNat ∧ 1 ≤ st.dur.toNat
      ∧ ∀ c : Fin 8, ((tokens rest)[1 + 2 * c.val]?).bind parseInt = some (st.start.get c).toNat
        ∧ ((tokens rest)[2 + 2 * c.val]?).bind parseInt = some (st.stop.get c).toNat := by
  have hpos_iff : st.dur ≠ 0#8 ↔ 1 ≤ st.dur.toNat := by bv_omega
  rw [decodeS_eq_some, map_parseByte_eq, DimStep.forall_field, hpos_iff]
  constructor
  · rintro ⟨⟨hlen, hdur, hchannels⟩, hpos⟩
    exact ⟨hlen, hdur, hpos, hchannels⟩
  · rintro ⟨hlen, hdur, hpos, hchannels⟩
    exact ⟨⟨hlen, hdur, hchannels⟩, hpos⟩

/-- Settles O3: well-formedness is `wellFormed_of_decode`; a line goes by its first byte, its length and the "Accepted"
clause of its record. -/
theorem decodedIsWellFormed : Obligations.DecodedIsWellFormed := by
  refine ⟨fun _ _ _ => wellFormed_of_decode, rfl, fun k rest => ?_, fun cfg via payload hterm => ?_,
    fun _ _ => decodeC_some, fun _ _ _ => decodeQ_some, fun _ _ => decodeS_some⟩
  · refine ⟨?_, ?_, ?_, ?_, ?_, fun hk => decodeLine_unknown hk rest⟩
    all_goals
      rintro rfl
      rfl
  · refine ⟨decode_line_overlong hterm, fun hlen => ⟨fun e => decode_line_error hterm hlen, fun rec hrec => ?_⟩⟩
    rw [decode_line_ok hterm hlen hrec]
    cases rec <;> rfl

end Sys2Proof

namespace Sys2Proof.Machine

/-! ### The line source -/

section
variable {cfg : Config} {r : Regs}

theorem dimSource_chase (hm : r.mode = .chase) : r.dimSource cfg = .none := by
  simp [Regs.dimSource, hm]

theorem dimSource_rom (hm : r.mode = .dimmer) (hlim : r.sel.toNat < cfg.dimBuiltinLimit) :
    r.dimSource cfg = .rom := by
  simp [Regs.dimSource, hm, hlim]

theorem dimSource_loader (hm : r.mode = .dimmer) (hlim : cfg.dimBuiltinLimit ≤ r.sel.toNat)
    (hd : r.localData = true) : r.dimSource cfg = .loader := by
  simp [Regs.dimSource, hm, Nat.not_lt.2 hlim, hd]

theorem dimSource_wire (hm : r.mode = .dimmer) (hlim : cfg.dimBuiltinLimit ≤ r.sel.toNat)
    (hd : r.localData = false) (hr : r.role = .slave) : r.dimSource cfg = .wire := by
  simp [Regs.dimSource, hm, Nat.not_lt.2 hlim, hd, hr]

theorem dimSource_absent (hm : r.mode = .dimmer) (hlim : cfg.dimBuiltinLimit ≤ r.sel.toNat)
    (hd : r.localData = false) (hr : r.role = .master) : r.dimSource cfg = .absent := by
  simp [Regs.dimSource, hm, Nat.not_lt.2 hlim, hd, hr]

/-- Where a route brings the lines, the selection awaits them (R271). -/
theorem selectSequence_awaits {via : Via} (h : r.dimSource cfg = viaSource via) : selectSequence cfg r = r := by
  cases via <;> simp [selectSequence, dimSource_mode h, h, viaSource]

/-- Without a source the selection raises `ConfigurationAbsent` (R271, R291). -/
theorem selectSequence_absent (hm : r.mode = .dimmer) (h : r.dimSource cfg = .absent) :
    selectSequence cfg r = raise .configurationAbsent r := by
  simp [selectSequence, hm, h]

end

/-- Settles O56: `dim_source` of the latched registers, and what the selection does with it. -/
theorem bootAwaitsDimmer : Obligations.BootAwaitsDimmer := by
  refine ⟨fun cfg r => ⟨dimSource_chase, dimSource_rom, fun hm hlim =>
    ⟨dimSource_loader hm hlim, dimSource_wire hm hlim, dimSource_absent hm hlim⟩⟩, rfl, rfl, ?_⟩
  intro s r0 hp hsel hlim hr0
  have hexec : exec .bootSample s = .next { s with regs := selectSequence s.cfg r0 } := by
    rw [exec_bootSample_boot hp, latchBoot_dimmer hsel, hr0]
  have hmode : r0.mode = .dimmer := by rw [hr0]
  have hlim0 : s.cfg.dimBuiltinLimit ≤ r0.sel.toNat := by rw [hr0]; exact hlim
  have hlocal : r0.localData = s.ports.localIn := by rw [hr0]
  have hrole : r0.role = s.ports.roleIn := by rw [hr0]
  rw [← hlocal, ← hrole, hexec]
  have hloader := dimSource_loader hmode hlim0
  have hwire := dimSource_wire hmode hlim0
  refine ⟨fun h => ?_, hloader, hwire, fun ⟨hd, hr⟩ => ?_⟩
  · have hawaits : selectSequence s.cfg r0 = r0 := by
      cases hd : r0.localData
      · exact selectSequence_awaits (via := .wire) (hwire hd (h.resolve_left (by simp [hd])))
      · exact selectSequence_awaits (via := .loader) (hloader hd)
    rw [hawaits]
  · rw [selectSequence_absent hmode (dimSource_absent hmode hlim0 hd hr), raise_fatal rfl]

/-! ### Steps without an instruction -/

theorem step_idle {s : State} (h : s.arrive.pending = []) : step s = .next s.arrive := by
  have hpick : pick s.arrive.pending = none := by rw [h]; rfl
  simp only [step, hpick]

theorem perform_of_decode_error {s : State} {q : Request} {e : DecodeError} (h : decode s.cfg q = .error e) :
    perform q s = disposeOf e s := by
  simp only [perform, h]

/-- Settles O9: with nothing pending the step answers what the environment presented, and `disposeOf` discards a line
that is no record. -/
theorem stepWithoutInstruction : Obligations.StepWithoutInstruction := by
  refine fun s => ⟨fun hpending harrivals => ?_, fun q rest e hpick hdec he => ?_⟩
  · have harrive := State.arrive_nil harrivals
    rw [step_idle (harrive.symm ▸ hpending), harrive]
  · have hdec' : decode s.arrive.cfg q = .error e := s.arrive_cfg.symm ▸ hdec
    have hperform := perform_of_decode_error (s := { s.arrive with pending := rest }) hdec'
    refine (step_of_pick hpick).trans (hperform.trans ?_)
    rcases he with rfl | rfl <;> rfl

/-! ### Discarded records -/

section
variable {s : State} {via : Via}

theorem exec_toInstr_unchanged {rec : Record} (h : applyRecord s.cfg via rec s.regs = .ok s.regs) :
    exec (rec.toInstr via) s = .next s := by
  rw [exec_toInstr, h]
  rfl

theorem exec_malformed : exec (.recC via none) s = .next s ∧ exec (.recQ via none) s = .next s
    ∧ exec (.recS via none) s = .next s :=
  ⟨exec_toInstr_unchanged (rec := .c none) rfl, exec_toInstr_unchanged (rec := .q none) rfl,
    exec_toInstr_unchanged (rec := .s none) rfl⟩

/-- A unit that does not hear events discards `R`, `Z` and `C` (R114). -/
theorem exec_events_unheard (h : hearsEvents via s.regs = false) (v : Option Word) :
    exec (.recR via) s = .next s ∧ exec (.recZ via) s = .next s ∧ exec (.recC via v) s = .next s := by
  refine ⟨exec_toInstr_unchanged (rec := .r) ?_, exec_toInstr_unchanged (rec := .z) ?_,
    exec_toInstr_unchanged (rec := .c v) ?_⟩
  · simp [applyRecord, recordR, h]
  · simp [applyRecord, recordZ, h]
  · cases v <;> simp [applyRecord, recordC, h]

/-- A unit that does not hear sequences by this route discards `Q` and `S` (R114, R241). -/
theorem exec_sequence_unheard (h : hearsSequence s.cfg via s.regs = false) (hd : Option (Word × Word))
    (st : Option DimStep) : exec (.recQ via hd) s = .next s ∧ exec (.recS via st) s = .next s := by
  refine ⟨exec_toInstr_unchanged (rec := .q hd) ?_, exec_toInstr_unchanged (rec := .s st) ?_⟩
  · cases hd <;> simp [applyRecord, recordQ, h]
  · cases st <;> simp [applyRecord, recordS, h]

end

/-- Settles O49: each way of being discarded is a failure of the filter (`hearsEvents_iff`, `hearsSequence_iff`). -/
theorem recordsDiscarded : Obligations.RecordsDiscarded := by
  refine fun s via v hd st => ⟨fun h => exec_events_unheard ?_ v, fun h => exec_sequence_unheard ?_ hd st,
    exec_malformed⟩
  · rw [Bool.eq_false_iff, ne_eq, hearsEvents_iff]
    rintro ⟨hp, hr, rfl⟩
    simp [hp, hr] at h
  · rw [Bool.eq_false_iff, ne_eq, hearsSequence_iff]
    rintro ⟨hp, hm, hsource⟩
    simp [hp, hm, hsource] at h

end Sys2Proof.Machine
end

section
/-! Proofs of the scope's statements about `ZC_EDGE`: the tick and the step boundary of a master, the tick of a slave,
the restart from a corrupt step index, and the interpolation. -/

namespace Sys2Proof.Machine

/-! ### The interpolation -/

/-- At `t = D` the division is exact, so the ramp ends at `stop` (R152). -/
theorem interp_end (start stop : Byte) {D : Nat} (hD : D ≠ 0) : interp start stop D D = stop.toNat := by
  have hexact : truncDiv (((stop.toNat : Int) - start.toNat) * D) D = stop.toNat - start.toNat :=
    Int.mul_tdiv_cancel _ (by exact_mod_cast hD)
  rw [interp, if_neg hD, hexact]
  omega

theorem interp_begin (start stop : Byte) (D : Nat) : interp start stop 0 D = start.toNat := by
  unfold interp
  split
  · rfl
  · simp [truncDiv]

/-- Settles O31: the two ends are `interp_begin` and `interp_end`, and `interp_between` bounds what lies between. -/
theorem interpolationExact : Obligations.InterpolationExact := by
  refine fun start stop D => ⟨if_pos rfl, fun hD => ?_⟩
  have hD0 : D ≠ 0 := by omega
  exact ⟨interp_begin start stop D, interp_end start stop hD0,
    fun t ht => ⟨if_neg hD0, interp_between start stop hD ht⟩⟩

/-! ### The sequencer, one equation per case -/

section
variable {cfg : Config} {r : Regs} {thr : Nat}

/-- The threshold of R143, from what it is in each mode. -/
theorem threshold_of_modes (hc : r.mode = .chase → thr = r.speedParam.toNat)
    (hd : r.mode = .dimmer → ∃ st, memReadDim r r.currentStep.toNat = .ok st ∧ thr = dimScale cfg st.dur r.speedParam) :
    threshold cfg r = .ok thr := by
  cases hm : r.mode with
  | chase => rw [threshold_chase hm, hc hm]
  | dimmer =>
    obtain ⟨st, hst, hthr⟩ := hd hm
    rw [threshold_dimmer hm hst, hthr]

/-- A boundary that leads to step `w` in one equation: the speed is taken, and the event is appended or, with the
queue full, only the overrun noted (R148, R149, R210). -/
theorem boundary_kindOf (cfg : Config) (v w : Word) (r : Regs) :
    boundary cfg v (kindOf w) r = { r with
      speedParam := v,
      speedDirty := decide (w.toNat = 0) && (r.speedDirty || v != r.speedParam),
      evq := if r.evq.length < cfg.evqDepth then
          r.evq ++ [boundaryEvent w.toNat (r.speedDirty || v != r.speedParam) v] else r.evq,
      syncOverrun := if r.evq.length < cfg.evqDepth then r.syncOverrun else true } := by
  rw [kindOf_eq]
  rcases Nat.lt_or_ge r.evq.length cfg.evqDepth with hroom | hfull
  · rw [boundary_room hroom, if_pos hroom, if_pos hroom]
    by_cases hw : w.toNat = 0 <;> simp [hw, boundaryEvent]
  · have hno : ¬ r.evq.length < cfg.evqDepth := by omega
    rw [boundary_full hfull, if_neg hno, if_neg hno]
    by_cases hw : w.toNat = 0 <;> simp [hw]

theorem sequencer_master_corrupt (v : Word) (hr : r.role = .master) (h : r.seqLen ≤ r.currentStep.toNat) :
    sequencer cfg v r = .ok (boundary cfg v (kindOf 0#16) (r.goTo 0#16)) := by
  simp [sequencer, hr, seqMaster, h, kindOf]

theorem sequencer_master_within (v : Word) (hr : r.role = .master) (h : r.currentStep.toNat < r.seqLen)
    (hthr : threshold cfg r = .ok thr) (hlt : r.tickCount.toNat + 1 < thr) :
    sequencer cfg v r = .ok { r with tickCount := BitVec.ofNat 16 (r.tickCount.toNat + 1) } := by
  have hguard : ¬ r.seqLen ≤ r.currentStep.toNat := by omega
  have hbelow : ¬ thr ≤ r.tickCount.toNat + 1 := by omega
  simp [sequencer, hr, seqMaster, hguard, hthr, hbelow]

theorem sequencer_master_atThreshold (v : Word) (hr : r.role = .master) (h : r.currentStep.toNat < r.seqLen)
    (hthr : threshold cfg r = .ok thr) (hle : thr ≤ r.tickCount.toNat + 1) :
    sequencer cfg v r = .ok (boundary cfg v (kindOf (nextStep r)) (r.goTo (nextStep r))) := by
  have hguard : ¬ r.seqLen ≤ r.currentStep.toNat := by omega
  simp [sequencer, hr, seqMaster, hguard, hthr, hle]

theorem sequencer_slave_corrupt (v : Word) (hr : r.role = .slave) (h : r.seqLen ≤ r.currentStep.toNat) :
    sequencer cfg v r = .ok (r.goTo 0#16) := by
  simp [sequencer, hr, seqSlave, h]

theorem sequencer_slave_within (v : Word) (hr : r.role = .slave) (h : r.currentStep.toNat < r.seqLen) :
    sequencer cfg v r = .ok { r with tickCount := BitVec.ofNat 16 (min (r.tickCount.toNat + 1) 65535) } := by
  have hguard : ¬ r.seqLen ≤ r.currentStep.toNat := by omega
  simp [sequencer, hr, seqSlave, hguard]

end

/-! ### Accepted edges -/

section
variable {s : State}

/-- An accepted edge completes where the step the sequencer leads to can be read: after the sequencer, only the
outputs are driven and the hold-off begins (R140, R142). -/
theorem exec_zcEdge_completes {r1 : Regs} (hp : s.regs.phase = .run) (hz : s.regs.zcArmed = true)
    (hseq : sequencer s.cfg s.ports.speedIn s.regs.acceptEdge = .ok r1) (hread : r1.readable r1.currentStep.toNat) :
    ∃ o d n, exec .zcEdge s = .next { s with regs := { r1 with
      sliceCount := 0#16, sliceAttached := true, out := o, delay := d, snap := n } } := by
  obtain ⟨r2, hdrive⟩ := driveEdge_total (cfg := s.cfg) hread
  obtain ⟨honly, -, -⟩ := driveEdge_ok hdrive
  have hregs : zcEdgeRegs s.cfg s.ports.speedIn s.regs = .ok r2.beginHoldOff :=
    (zcEdgeRegs_accepted (acceptsEdge_iff.2 ⟨hp, hz⟩)).2 ⟨r1, r2, hseq, hdrive, rfl⟩
  refine ⟨r2.out, r2.delay, r2.snap, ?_⟩
  rw [exec, execZcEdge, hregs, honly]
  rfl

/-- A master's boundary that leads to step `w`, whether by the threshold or from a corrupt index. -/
theorem exec_zcEdge_boundary {w : Word} (hp : s.regs.phase = .run) (hz : s.regs.zcArmed = true)
    (hread : s.regs.readable w.toNat)
    (hseq : sequencer s.cfg s.ports.speedIn s.regs.acceptEdge
      = .ok (boundary s.cfg s.ports.speedIn (kindOf w) (s.regs.acceptEdge.goTo w))) :
    ∃ o d n, exec .zcEdge s = .next { s with regs := { s.regs with
      currentStep := w, tickCount := 0#16, speedParam := s.ports.speedIn,
      speedDirty := decide (w.toNat = 0) && (s.regs.speedDirty || s.ports.speedIn != s.regs.speedParam),
      evq := if s.regs.evq.length < s.cfg.evqDepth then
          s.regs.evq ++ [boundaryEvent w.toNat (s.regs.speedDirty || s.ports.speedIn != s.regs.speedParam)
            s.ports.speedIn] else s.regs.evq,
      syncOverrun := if s.regs.evq.length < s.cfg.evqDepth then s.regs.syncOverrun else true,
      zcArmed := false, sliceAttached := true, sliceCount := 0#16, out := o, delay := d, snap := n } } := by
  rw [boundary_kindOf] at hseq
  exact exec_zcEdge_completes hp hz hseq hread

end

/-- Settles O27: the sequencer counts the tick, and the step it leads to is the present one. -/
theorem slaveEdge : Obligations.SlaveEdge := by
  intro s hp hz hr hstep hread
  have hseq := sequencer_slave_within (cfg := s.cfg) (r := s.regs.acceptEdge) s.ports.speedIn hr hstep
  obtain ⟨o, d, n, hexec⟩ := exec_zcEdge_completes hp hz hseq hread
  exact ⟨_, hexec, Nat.mod_eq_of_lt (by omega), rfl⟩

/-- Settles O25: below the threshold the sequencer counts the tick; a threshold is at most 65535, so the count does
not wrap. -/
theorem masterEdgeWithinStep : Obligations.MasterEdgeWithinStep := by
  intro s thr hp hz hr hstep hread hchase hdimmer hlt
  have hthr := threshold_of_modes hchase hdimmer
  have hthr16 : thr ≤ 65535 := threshold_le hthr
  have hfits : s.regs.tickCount.toNat + 1 < 2 ^ 16 := by omega
  have hseq := sequencer_master_within (r := s.regs.acceptEdge) s.ports.speedIn hr hstep hthr hlt
  obtain ⟨o, d, n, hexec⟩ := exec_zcEdge_completes hp hz hseq hread
  exact ⟨_, hexec, Nat.mod_eq_of_lt hfits, rfl⟩

/-- Settles O26: at the threshold the master crosses a boundary to `nextStep`; the queue clauses are its two cases. -/
theorem masterEdgeAtBoundary : Obligations.MasterEdgeAtBoundary := by
  rintro s thr n changed hp hz hr hstep hn hread hchase hdimmer hle rfl
  have hthr := threshold_of_modes hchase hdimmer
  have hnext : (nextStep s.regs).toNat = n := (nextStep_toNat (by omega)).trans hn.symm
  subst hnext
  have hseq := sequencer_master_atThreshold (r := s.regs.acceptEdge) s.ports.speedIn hr hstep hthr hle
  obtain ⟨o, d, snap, hexec⟩ := exec_zcEdge_boundary hp hz hread hseq
  exact ⟨_, hexec, rfl, rfl, fun hroom => ⟨if_pos hroom, if_pos hroom⟩,
    fun hfull => ⟨if_neg (by omega), if_neg (by omega)⟩⟩

/-- Settles O28: from a corrupt index a master crosses a boundary to step 0, which is a `Restart`, and a slave only goes
there. -/
theorem corruptStepRestarts : Obligations.CorruptStepRestarts := by
  intro s hp hz hcorrupt hread
  cases hr : s.regs.role with
  | master =>
    have hseq := sequencer_master_corrupt (cfg := s.cfg) (r := s.regs.acceptEdge) s.ports.speedIn hr hcorrupt
    obtain ⟨o, d, n, hexec⟩ := exec_zcEdge_boundary (w := 0#16) hp hz hread hseq
    exact ⟨_, hexec, nofun, fun _ => rfl⟩
  | slave =>
    have hseq := sequencer_slave_corrupt (cfg := s.cfg) (r := s.regs.acceptEdge) s.ports.speedIn hr hcorrupt
    obtain ⟨o, d, n, hexec⟩ := exec_zcEdge_completes hp hz hseq hread
    exact ⟨_, hexec, fun _ => rfl, nofun⟩

end Sys2Proof.Machine
end

section
/-! Proofs of the scope's statements about the dimming engine: what one slice tick does, what a half-cycle of slice
ticks does, and what the other instructions leave of the engine. -/

namespace Sys2Proof.Machine

/-! ### One slice tick, one equation per case -/

section
variable {cfg : Config} {r : Regs} {n : Nat}

theorem inKeepout_eq_false (h : ∀ lo hi, cfg.keepout = some (lo, hi) → n < lo ∨ hi < n) :
    inKeepout cfg.keepout n = false := by
  cases hk : cfg.keepout with
  | none => rfl
  | some w =>
    obtain ⟨lo, hi⟩ := w
    have hout := h lo hi hk
    simp only [inKeepout, Bool.and_eq_false_iff, decide_eq_false_iff_not]
    omega

theorem inKeepout_none (hk : cfg.keepout = none) : inKeepout cfg.keepout n = false := by rw [hk]; rfl

theorem sliceWork_chase (hm : r.mode = .chase) : sliceWork cfg n r = r := by simp [sliceWork, hm]

theorem sliceWork_outside (hm : r.mode = .dimmer) (hk : inKeepout cfg.keepout n = false) :
    sliceWork cfg n r = countdown r := by
  simp [sliceWork, hm, hk]

/-- Inside the window only its last tick does anything: it restores the snapshot (R186). -/
theorem sliceWork_inside {lo hi : Nat} (hm : r.mode = .dimmer) (hk : cfg.keepout = some (lo, hi)) (hlo : lo ≤ n)
    (hhi : n ≤ hi) : sliceWork cfg n r = if n = hi then restoreSnapshot r else r := by
  simp [sliceWork, hm, hk, inKeepout, endsKeepout, hlo, hhi]

/-- The end of the half-cycle in one equation for both modes (R183, R185). -/
theorem endHalfCycle_eq (r : Regs) :
    endHalfCycle r = { r with
      sliceCount := 0#16, sliceAttached := false, zcArmed := true,
      out := if r.mode = .dimmer then 0x00#8 else r.out } := by
  cases hm : r.mode <;> simp [endHalfCycle, hm, Regs.rearm]

theorem sliceTickRegs_detached (h : r.phase ≠ .run ∨ r.sliceAttached = false) : sliceTickRegs cfg r = r := by
  rcases h with h | h <;> simp [sliceTickRegs, h]

theorem sliceTickRegs_exhausted (hp : r.phase = .run) (ha : r.sliceAttached = true)
    (hb : cfg.sliceBudget < r.sliceCount.toNat + 1) : sliceTickRegs cfg r = endHalfCycle r := by
  simp [sliceTickRegs, hp, ha, hb]

/-- A slice tick is ignored, ends the half-cycle, or is within the budget (R181, R182). -/
theorem sliceTickRegs_cases (cfg : Config) (r : Regs) :
    sliceTickRegs cfg r = r
    ∨ (r.sliceAttached = true ∧ cfg.sliceBudget < r.sliceCount.toNat + 1 ∧ sliceTickRegs cfg r = endHalfCycle r)
    ∨ sliceTickRegs cfg r = sliceWork cfg (r.sliceCount.toNat + 1)
        { r with sliceCount := BitVec.ofNat 16 (r.sliceCount.toNat + 1) } := by
  by_cases hp : r.phase = .run
  · by_cases ha : r.sliceAttached = true
    · rcases Nat.lt_or_ge cfg.sliceBudget (r.sliceCount.toNat + 1) with hb | hb
      · exact .inr (.inl ⟨ha, hb, sliceTickRegs_exhausted hp ha hb⟩)
      · exact .inr (.inr (sliceTickRegs_within hp ha hb))
    · exact .inl (sliceTickRegs_detached (.inr (by simpa using ha)))
  · exact .inl (sliceTickRegs_detached (.inl hp))

end

section
variable {s : State}

theorem exec_sliceTick (s : State) : exec .sliceTick s = .next { s with regs := sliceTickRegs s.cfg s.regs } := rfl

/-- Within the budget the tick is counted and the work of the slice, `hwork`, done. -/
theorem exec_sliceTick_within {r' : Regs} (hp : s.regs.phase = .run) (ha : s.regs.sliceAttached = true)
    (hb : s.regs.sliceCount.toNat + 1 ≤ s.cfg.sliceBudget)
    (hwork : sliceWork s.cfg (s.regs.sliceCount.toNat + 1)
      { s.regs with sliceCount := BitVec.ofNat 16 (s.regs.sliceCount.toNat + 1) } = r') :
    exec .sliceTick s = .next { s with regs := r' } := by
  rw [exec_sliceTick, sliceTickRegs_within hp ha hb, hwork]

theorem exec_sliceTick_exhausted (hp : s.regs.phase = .run) (ha : s.regs.sliceAttached = true)
    (hb : s.cfg.sliceBudget < s.regs.sliceCount.toNat + 1) :
    exec .sliceTick s = .next { s with regs := { s.regs with
      sliceCount := 0#16, sliceAttached := false, zcArmed := true,
      out := if s.regs.mode = .dimmer then 0x00#8 else s.regs.out } } := by
  rw [exec_sliceTick, sliceTickRegs_exhausted hp ha hb, endHalfCycle_eq]

/-- A slice counter within the budget does not wrap (R6, R182). -/
theorem toNat_ofNat_of_le_budget {n b : Nat} (hn : n ≤ b) (hb : b ≤ 65534) : (BitVec.ofNat 16 n).toNat = n := by
  rw [BitVec.toNat_ofNat]
  omega

end

/-- Settles O24: both handlers are guarded by the phase and their flag. -/
theorem handlersIgnoredWhenDisabled : Obligations.HandlersIgnoredWhenDisabled := by
  refine fun s => ⟨fun h => ?_, fun h => ?_⟩
  · have hedge : s.regs.acceptsEdge = false := by
      rcases h with h | h <;> simp [Regs.acceptsEdge, h]
    have hregs : zcEdgeRegs s.cfg s.ports.speedIn s.regs = .ok s.regs := by simp [zcEdgeRegs, hedge]
    rw [exec, execZcEdge, hregs, State.finish_ok]
  · rw [exec_sliceTick, sliceTickRegs_detached h]

/-- Settles O33: outside the window the work of the slice is the countdown. -/
theorem sliceTickCountsDown : Obligations.SliceTickCountsDown := by
  intro s hp ha hm hb hbudget hwindow
  refine ⟨_, exec_sliceTick_within hp ha hb (sliceWork_outside hm (inKeepout_eq_false hwindow)), ?_⟩
  obtain ⟨-, hlane⟩ :=
    countdown_spec { s.regs with sliceCount := BitVec.ofNat 16 (s.regs.sliceCount.toNat + 1) }
  exact ⟨toNat_ofNat_of_le_budget hb hbudget, rfl, hlane⟩

/-- Settles O34: inside the window the work of the slice is nothing, or at its last tick the restore. -/
theorem keepoutWindow : Obligations.KeepoutWindow := by
  intro s lo hi hp ha hm hb hbudget hk hlo hhi
  refine ⟨_, exec_sliceTick_within hp ha hb (sliceWork_inside hm hk hlo hhi), ?_⟩
  have hcount := toNat_ofNat_of_le_budget hb hbudget
  by_cases hlast : s.regs.sliceCount.toNat + 1 = hi
  · rw [if_pos hlast]
    exact ⟨hcount, rfl, fun hlt => absurd hlast (by omega), fun _ => ⟨rfl, chanBit_nonzeroBits s.regs.snap⟩⟩
  · rw [if_neg hlast]
    exact ⟨hcount, rfl, fun _ => ⟨rfl, rfl⟩, fun h => absurd h hlast⟩

/-- Settles O35: in Chase mode a slice has no work. -/
theorem chaseSliceTickCountsOnly : Obligations.ChaseSliceTickCountsOnly := by
  intro s hp ha hm hb hbudget
  exact ⟨_, exec_sliceTick_within hp ha hb (sliceWork_chase hm), toNat_ofNat_of_le_budget hb hbudget, rfl⟩

/-! ### What the other instructions leave of the engine -/

/-- The delay counts are the same, detection is not re-armed, and in mode `m`, where it is Dimmer, no channel is
asserted. -/
def LeavesEngine (m : Mode) (r r' : Regs) : Prop :=
  r'.delay = r.delay ∧ (r'.zcArmed = true → r.zcArmed = true)
  ∧ (m = .dimmer → ∀ c, chanBit r'.out c = true → chanBit r.out c = true)

section
variable {m : Mode} {cfg : Config} {p : Ports} {r r' : Regs}

theorem leavesEngine_of_eq (hdelay : r'.delay = r.delay) (hzc : r'.zcArmed = r.zcArmed)
    (hout : m = .dimmer → r'.out = r.out) : LeavesEngine m r r' :=
  ⟨hdelay, fun h => hzc ▸ h, fun hm _ h => hout hm ▸ h⟩

theorem LeavesEngine.refl (r : Regs) : LeavesEngine m r r := leavesEngine_of_eq rfl rfl fun _ => rfl

/-- An error turns outputs and detection off, or leaves them (R296, R297). -/
theorem raise_leavesEngine (k : ErrKind) (r : Regs) : LeavesEngine m r (raise k r) := by
  have hdelay : (raise k r).delay = r.delay := by rw [(raise_only k r).1]
  rcases (raise_only k r).2 with ⟨-, hout, hzc, -⟩ | ⟨-, hout, hzc, -⟩
  · exact leavesEngine_of_eq hdelay hzc fun _ => hout
  · exact ⟨hdelay, fun h => absurd (hzc.symm.trans h) nofun, fun _ c h => by simp [hout] at h⟩

theorem bootSample_leavesEngine : LeavesEngine m r (bootSampleRegs cfg p r) := by
  unfold bootSampleRegs
  split
  · rcases selectSequence_cases cfg (latchBoot p r) with
      hs | ⟨k, -, -, hs⟩ | ⟨-, ps, -, -, hs⟩ | ⟨-, sts, -, -, -, hs⟩ <;> rw [hs]
    · exact .refl (latchBoot p r)
    · exact raise_leavesEngine k (latchBoot p r)
    · exact .refl (latchBoot p r)
    · exact .refl (latchBoot p r)
  · exact .refl r

theorem loadEnd_leavesEngine : LeavesEngine m r (loadEndRegs cfg r) := by
  unfold loadEndRegs
  split_ifs
  · exact .refl r
  · exact raise_leavesEngine .unknownSequenceId r.closeBlock
  · exact .refl r

theorem srcAbsent_leavesEngine : LeavesEngine m r (srcAbsentRegs cfg r) := by
  unfold srcAbsentRegs
  split
  · exact raise_leavesEngine .configurationAbsent r
  · exact .refl r

theorem qLine_leavesEngine (cfg : Config) (id n : Word) (r : Regs) : LeavesEngine m r (qLine cfg id n r) := by
  rcases qLine_cases cfg id n r with hq | ⟨-, -, hq⟩ | ⟨-, -, hq⟩ | ⟨-, -, -, hq⟩ <;> rw [hq]
  · exact .refl r
  · exact raise_leavesEngine _ r.closeBlock
  · exact raise_leavesEngine _ r.closeBlock
  · exact .refl r

/-- A record shows a step in Chase mode only, and asserts nothing in Dimmer mode (R248). -/
theorem RecordEffect.leavesEngine (h : RecordEffect cfg r r') : LeavesEngine r.mode r r' := by
  cases h with
  | same h => subst h; exact .refl _
  | restart _ _ h =>
    obtain ⟨heq, -, hout⟩ := applyRestart_ok h
    exact leavesEngine_of_eq (congrArg Regs.delay heq :) (congrArg Regs.zcArmed heq :) hout
  | step _ _ h =>
    obtain ⟨heq, -, -, hout⟩ := applyStep_ok h
    exact leavesEngine_of_eq (congrArg Regs.delay heq :) (congrArg Regs.zcArmed heq :) hout
  | speed _ _ v h => exact h ▸ .refl r
  | header _ _ id n h => exact h ▸ qLine_leavesEngine cfg id n r
  | stepLine _ _ st h =>
    rcases sLine_ok h with ⟨-, rfl⟩ | ⟨-, -, ⟨-, rfl⟩ | ⟨-, rfl⟩⟩ <;> exact .refl _

theorem rxByte_leavesEngine {b : Byte} (h : rxByteRegs cfg b r = .ok r') : LeavesEngine r.mode r r' := by
  rcases rxByte_effect h with rfl | ⟨-, -, -, rfl⟩ | ⟨-, rfl⟩ | ⟨-, hrec⟩
  · exact .refl _
  · exact .refl r
  · exact .refl r
  · exact hrec.leavesEngine

theorem txService_leavesEngine : LeavesEngine m r (if r.emits then { r with evq := r.evq.tail } else r) := by
  split <;> exact .refl r

/-- The engine belongs to the two handlers, `START` and `RESET` (R77). -/
theorem regsAfter_leavesEngine {i : Instr} (hreset : i ≠ .reset) (hstart : i ≠ .start) (hedge : i ≠ .zcEdge)
    (hslice : i ≠ .sliceTick) (h : regsAfter i cfg p r = .ok r') : LeavesEngine r.mode r r' := by
  cases i with
  | recR via => exact (applyRecord_effect (cfg := cfg) (rec := .r) h).leavesEngine
  | recZ via => exact (applyRecord_effect (cfg := cfg) (rec := .z) h).leavesEngine
  | recC via v => exact (applyRecord_effect (cfg := cfg) (rec := .c v) h).leavesEngine
  | recQ via hd => exact (applyRecord_effect (cfg := cfg) (rec := .q hd) h).leavesEngine
  | recS via st => exact (applyRecord_effect (cfg := cfg) (rec := .s st) h).leavesEngine
  | reset => exact absurd rfl hreset
  | bootSample => exact Except.ok.inj h ▸ bootSample_leavesEngine
  | loadLine line => exact (loadLine_effect h).leavesEngine
  | loadEnd => exact Except.ok.inj h ▸ loadEnd_leavesEngine
  | srcAbsent => exact Except.ok.inj h ▸ srcAbsent_leavesEngine
  | start => exact absurd rfl hstart
  | zcEdge => exact absurd rfl hedge
  | sliceTick => exact absurd rfl hslice
  | rxByte b => exact rxByte_leavesEngine h
  | txService => exact Except.ok.inj h ▸ txService_leavesEngine
  | read | reserved11 | reserved12 | reserved13 | reserved14 | reserved15 => exact Except.ok.inj h ▸ .refl r

end

/-! ### Re-arming -/

section
variable {cfg : Config} {p : Ports} {r r' : Regs}

/-- Of the slice ticks only the one past the budget re-arms detection (R183). -/
theorem sliceTickRegs_rearms (hz : r.zcArmed = false) (h : (sliceTickRegs cfg r).zcArmed = true) :
    r.sliceAttached = true ∧ cfg.sliceBudget < r.sliceCount.toNat + 1 := by
  rcases sliceTickRegs_cases cfg r with hs | ⟨ha, hb, -⟩ | hs
  · simp [hs, hz] at h
  · exact ⟨ha, hb⟩
  · rw [hs, sliceWork_only] at h
    exact absurd (hz.symm.trans h) nofun

/-- An edge disables detection or is discarded (R141). -/
theorem zcEdgeRegs_zcArmed {v : Word} (hz : r.zcArmed = false) (h : zcEdgeRegs cfg v r = .ok r') :
    r'.zcArmed = false := by
  rcases guarded_ok h with rfl | ⟨ha, -⟩
  · exact hz
  · obtain ⟨_, -, heq, -⟩ := edge_only ha h
    exact (congrArg Regs.zcArmed heq :)

/-- `START` is refused in Run (R276). -/
theorem startRegs_run {v : Word} (hp : r.phase = .run) (h : startRegs v r = .ok r') : r' = r := by
  rcases guarded_ok h with hsame | ⟨hs, -⟩
  · exact hsame
  · obtain ⟨hload, -⟩ := startable_iff.1 hs
    simp [hp] at hload

theorem rearmed_cases {i : Instr} (hp : r.phase = .run) (hz : r.zcArmed = false) (hz' : r'.zcArmed = true)
    (h : regsAfter i cfg p r = .ok r') :
    i = .sliceTick ∧ r.sliceAttached = true ∧ cfg.sliceBudget < r.sliceCount.toNat + 1 := by
  have hkeeps : r'.zcArmed ≠ r.zcArmed := by simp [hz, hz']
  by_cases hslice : i = .sliceTick
  · subst hslice
    cases h
    exact ⟨rfl, sliceTickRegs_rearms hz hz'⟩
  by_cases hreset : i = .reset
  · subst hreset
    cases h
    cases hz'
  by_cases hstart : i = .start
  · subst hstart
    exact absurd (congrArg Regs.zcArmed (startRegs_run hp h)) hkeeps
  by_cases hedge : i = .zcEdge
  · subst hedge
    exact absurd ((zcEdgeRegs_zcArmed hz h).trans hz.symm) hkeeps
  obtain ⟨-, hzc, -⟩ := regsAfter_leavesEngine hreset hstart hedge hslice h
  exact absurd (hz'.trans (hzc hz').symm) hkeeps

end

/-- Settles O36: the end action is `exec_sliceTick_exhausted`, and `rearmed_cases` leaves no other way. -/
theorem budgetExhausted : Obligations.BudgetExhausted :=
  fun _ hp => ⟨exec_sliceTick_exhausted hp, fun _ _ h hz hz' => rearmed_cases hp hz hz' (exec_next_iff.1 h).1⟩

/-! ### A half-cycle of slice ticks -/

theorem runInstrs_replicate_succ {i : Instr} {k : Nat} {s t : State} (h : runInstrs (List.replicate k i) s = .next t) :
    runInstrs (List.replicate (k + 1) i) s = exec i t := by
  rw [List.replicate_succ', runInstrs_append, h]
  exact runInstrs_one i t

section
variable {s : State}

/-- Up to the budget, slice ticks from a slice count of 0 move the slice counter by one each, and beside it the delay
counts and outputs only. -/
theorem runSliceTicks_within (hbudget : s.cfg.sliceBudget ≤ 65534) (hp : s.regs.phase = .run)
    (ha : s.regs.sliceAttached = true) (h0 : s.regs.sliceCount = 0#16) {k : Nat} (hk : k ≤ s.cfg.sliceBudget) :
    ∃ d o, runInstrs (List.replicate k .sliceTick) s = .next { s with regs := { s.regs with
      sliceCount := BitVec.ofNat 16 k, delay := d, out := o } } := by
  induction k with
  | zero => exact ⟨s.regs.delay, s.regs.out, by rw [← h0]; rfl⟩
  | succ k ih =>
    obtain ⟨d, o, hrun⟩ := ih (by omega)
    have hcount : (BitVec.ofNat 16 k).toNat = k := toNat_ofNat_of_le_budget (by omega) hbudget
    have htick := exec_sliceTick_within
      (s := { s with regs := { s.regs with sliceCount := BitVec.ofNat 16 k, delay := d, out := o } })
      hp ha (by rw [hcount]; exact hk) (sliceWork_only _ _ _)
    rw [hcount] at htick
    exact ⟨_, _, (runInstrs_replicate_succ hrun).trans htick⟩

/-- One slice tick more than the budget ends the half-cycle. -/
theorem runSliceTicks_end (hbudget : s.cfg.sliceBudget ≤ 65534) (hp : s.regs.phase = .run)
    (ha : s.regs.sliceAttached = true) (h0 : s.regs.sliceCount = 0#16) :
    ∃ d o, runInstrs (List.replicate (s.cfg.sliceBudget + 1) .sliceTick) s = .next { s with regs := { s.regs with
      sliceCount := 0#16, sliceAttached := false, zcArmed := true, delay := d,
      out := if s.regs.mode = .dimmer then 0x00#8 else o } } := by
  obtain ⟨d, o, hrun⟩ := runSliceTicks_within hbudget hp ha h0 le_rfl
  have hcount := toNat_ofNat_of_le_budget le_rfl hbudget
  refine ⟨d, o, (runInstrs_replicate_succ hrun).trans (exec_sliceTick_exhausted hp ha ?_)⟩
  rw [hcount]
  exact Nat.lt_succ_self _

theorem bne_zero_eq_decide_pos (d : Byte) : (d != 0#8) = decide (0 < d.toNat) := by
  rw [Bool.eq_iff_iff, bne_iff_ne, decide_eq_true_eq, Nat.pos_iff_ne_zero, ne_eq, ne_eq, BitVec.toNat_eq]
  rfl

/-- Without a keep-out window, `k` slice ticks after an arming every counter has moved by `k`, and the channels on are
those whose delay is longer (R184). -/
theorem runSliceTicks_lane (hbudget : s.cfg.sliceBudget ≤ 65534) (hkeep : s.cfg.keepout = none)
    (hp : s.regs.phase = .run) (hm : s.regs.mode = .dimmer) (ha : s.regs.sliceAttached = true)
    (h0 : s.regs.sliceCount = 0#16) (harmed : s.regs.out = nonzeroBits s.regs.delay) {k : Nat}
    (hk : k ≤ s.cfg.sliceBudget) :
    ∃ t, runInstrs (List.replicate k .sliceTick) s = .next t
      ∧ ∀ c, chanBit t.regs.out c = decide (k < (s.regs.delay.get c).toNat)
        ∧ (t.regs.delay.get c).toNat = (s.regs.delay.get c).toNat - k := by
  induction k with
  | zero =>
    refine ⟨s, rfl, fun c => ⟨?_, rfl⟩⟩
    rw [harmed, chanBit_nonzeroBits]
    exact bne_zero_eq_decide_pos _
  | succ k ih =>
    obtain ⟨t, hrun, hlane⟩ := ih (by omega)
    obtain ⟨d, o, hrun'⟩ := runSliceTicks_within hbudget hp ha h0 (k := k) (by omega)
    have ht := Host.Outcome.next.inj (hrun.symm.trans hrun')
    have hcount : (BitVec.ofNat 16 k).toNat = k := toNat_ofNat_of_le_budget (by omega) hbudget
    obtain ⟨t', hexec, -, -, htick⟩ := sliceTickCountsDown
      { s with regs := { s.regs with sliceCount := BitVec.ofNat 16 k, delay := d, out := o } }
      hp ha hm (by rw [hcount]; exact hk) hbudget (fun _ _ hw => absurd (hkeep.symm.trans hw) nofun)
    rw [← ht] at hexec htick
    refine ⟨t', (runInstrs_replicate_succ hrun).trans hexec, fun c => ?_⟩
    obtain ⟨hon, hdelay⟩ := hlane c
    obtain ⟨hdelay', hon'⟩ := htick c
    refine ⟨?_, by omega⟩
    rw [hon', hon, hdelay, ← Bool.decide_and, decide_eq_decide]
    omega

end

/-- Settles O37: a half-cycle is `runSliceTicks_within` and then `runSliceTicks_end`; while detection is disabled an
edge is discarded. -/
theorem halfCycleReArms : Obligations.HalfCycleReArms := by
  intro s hwf hp ha hz h0
  obtain ⟨-, hbudget, -⟩ := Config.wf_bounds hwf
  constructor
  · intro k hk
    obtain ⟨d, o, hrun⟩ := runSliceTicks_within hbudget hp ha h0 hk
    obtain ⟨hdiscard, -⟩ := handlersIgnoredWhenDisabled
      { s with regs := { s.regs with sliceCount := BitVec.ofNat 16 k, delay := d, out := o } }
    exact ⟨_, hrun, hz, ha, toNat_ofNat_of_le_budget hk hbudget, hdiscard (.inr hz)⟩
  · obtain ⟨d, o, hrun⟩ := runSliceTicks_end hbudget hp ha h0
    exact ⟨_, hrun, rfl, rfl, rfl⟩

/-- Settles O38: the lanes after `k` ticks are `runSliceTicks_lane`, and the end action turns every channel off. -/
theorem channelFiresForItsDelay : Obligations.ChannelFiresForItsDelay := by
  intro s hwf hkeep hp hm ha h0 harmed
  obtain ⟨-, hbudget, -⟩ := Config.wf_bounds hwf
  refine ⟨fun k hk => runSliceTicks_lane hbudget hkeep hp hm ha h0 harmed hk, ?_⟩
  obtain ⟨d, o, hrun⟩ := runSliceTicks_end hbudget hp ha h0
  rw [if_pos hm] at hrun
  exact ⟨_, hrun, chanBit_zero⟩

/-! ### Delay counts between armings -/

/-- A delay count that stays or is decremented by 1 from a value that is not 0 (R184). -/
def CountsDown (d d' : Byte) : Prop := d' = d ∨ d ≠ 0#8 ∧ d'.toNat + 1 = d.toNat

theorem CountsDown.le {d d' : Byte} (h : CountsDown d d') : d'.toNat ≤ d.toNat := by
  rcases h with rfl | ⟨-, hdec⟩ <;> omega

theorem countsDown_of_toNat {d d' : Byte} (h : d'.toNat = d.toNat - 1) : CountsDown d d' := by
  by_cases hd : d = 0#8
  · subst hd
    exact .inl (BitVec.eq_of_toNat_eq h)
  · have hpos : d.toNat ≠ 0 := fun h0 => hd (BitVec.eq_of_toNat_eq h0)
    exact .inr ⟨hd, by omega⟩

section
variable {cfg : Config} {p : Ports} {r r' : Regs}

theorem sliceWork_countsDown (hk : cfg.keepout = none) (n : Nat) (r : Regs) (c : Fin 8) :
    CountsDown (r.delay.get c) ((sliceWork cfg n r).delay.get c)
    ∧ (r.mode = .dimmer → chanBit (sliceWork cfg n r).out c = true → chanBit r.out c = true) := by
  cases hm : r.mode with
  | chase =>
    rw [sliceWork_chase hm]
    exact ⟨.inl rfl, nofun⟩
  | dimmer =>
    rw [sliceWork_outside hm (inKeepout_none hk)]
    obtain ⟨-, hlane⟩ := countdown_spec r
    obtain ⟨hdelay, hout⟩ := hlane c
    refine ⟨countsDown_of_toNat hdelay, fun _ h => ?_⟩
    rw [hout, Bool.and_eq_true] at h
    exact h.1

/-- Without a keep-out window a slice tick counts down and asserts nothing. -/
theorem sliceTickRegs_countsDown (hk : cfg.keepout = none) (c : Fin 8) :
    CountsDown (r.delay.get c) ((sliceTickRegs cfg r).delay.get c)
    ∧ (r.mode = .dimmer → chanBit (sliceTickRegs cfg r).out c = true → chanBit r.out c = true) := by
  rcases sliceTickRegs_cases cfg r with hs | ⟨-, -, hs⟩ | hs <;> rw [hs]
  · exact ⟨.inl rfl, fun _ h => h⟩
  · rw [endHalfCycle_eq]
    exact ⟨.inl rfl, fun hm h => by simp [hm] at h⟩
  · exact sliceWork_countsDown hk _ _ c

/-- `START` clears the counts and in Dimmer mode the outputs, or is refused (R276). -/
theorem startRegs_clears {v : Word} (h : startRegs v r = .ok r') (c : Fin 8) :
    (r'.delay.get c).toNat ≤ (r.delay.get c).toNat
    ∧ (r.mode = .dimmer → chanBit r'.out c = true → chanBit r.out c = true) := by
  rcases guarded_ok h with rfl | ⟨hs, -⟩
  · exact ⟨le_rfl, fun _ hc => hc⟩
  · obtain ⟨heq, -, hout⟩ := startRegs_ok hs h
    have hdelay : r'.delay = .all 0#8 := (congrArg Regs.delay heq :)
    exact ⟨by simp [hdelay], fun hm hc => by simp [hout hm] at hc⟩

end

/-- Settles O39: a slice tick counts down, `START` and `RESET` clear, and the rest leaves the engine. -/
theorem delaysNeverRise : Obligations.DelaysNeverRise := by
  intro i s t hk hedge h c
  obtain ⟨hregs, -⟩ := exec_next_iff.1 h
  by_cases hslice : i = .sliceTick
  · subst hslice
    obtain ⟨hdelay, hout⟩ := sliceTickRegs_countsDown (r := s.regs) hk c
    rw [Except.ok.inj hregs] at hdelay hout
    exact ⟨fun _ _ => hdelay, hdelay.le, hout⟩
  by_cases hreset : i = .reset
  · subst hreset
    rw [← Except.ok.inj hregs]
    exact ⟨fun _ hne => absurd rfl hne, by simp [Regs.atReset], by simp [Regs.atReset]⟩
  by_cases hstart : i = .start
  · subst hstart
    obtain ⟨hle, hout⟩ := startRegs_clears hregs c
    exact ⟨fun hne => absurd rfl hne, hle, hout⟩
  obtain ⟨hdelay, -, hout⟩ := regsAfter_leavesEngine hreset hstart hedge hslice hregs
  rw [hdelay]
  exact ⟨fun _ _ => .inl rfl, le_rfl, fun hm => hout hm c⟩

end Sys2Proof.Machine
end

section
/-! Proofs of the scope's statements about the sync endpoint: the frames a master emits and a slave follows, the lines
of the loader, and a sequence reloaded from its own text. -/

namespace Sys2Proof.Machine

/-! ### Sequences of instructions -/

theorem runInstrs_cons_next {i : Instr} {is : List Instr} {s t : State} (h : exec i s = .next t) :
    runInstrs (i :: is) s = runInstrs is t := by
  simp only [runInstrs, h]

theorem runInstrs_append_next {a b : List Instr} {s t : State} (h : runInstrs a s = .next t) :
    runInstrs (a ++ b) s = runInstrs b t := by
  simp only [runInstrs_append, h]

/-! ### Where the endpoint's operations have an effect -/

section
variable {s : State}

theorem Regs.emits_iff {r : Regs} : r.emits = true ↔ r.phase = .run ∧ r.role = .master := by
  simp [Regs.emits]

theorem Regs.listens_iff {r : Regs} :
    r.listens = true ↔ r.role = .slave ∧ (r.phase = .load ∨ r.phase = .run) := by
  simp [Regs.listens]

/-- `TX_SERVICE` with an event to send (R211). -/
theorem exec_txService_head {ev : SyncEvent} {rest : List SyncEvent} (he : s.regs.emits = true)
    (hq : s.regs.evq = ev :: rest) :
    exec .txService s
      = .next { s with regs := { s.regs with evq := rest }, tx := s.tx ++ frame s.cfg ev } := by
  simp [exec, execTxService, he, hq, State.emit]

/-- `TX_SERVICE` where nothing is emitted (R211). -/
theorem exec_txService_idle (h : s.regs.emits = true → s.regs.evq = []) : exec .txService s = .next s := by
  cases he : s.regs.emits
  · simp [exec, execTxService, he]
  · simp [exec, execTxService, he, h he]

/-- `LOAD_LINE` where the loader is heard (R215). -/
theorem exec_loadLine_heard (h : hearsLoader s.cfg s.regs = true) (line : List Byte) :
    exec (.loadLine line) s
      = (s.emit (relayed s.cfg s.regs.role line)).finish (consumeLine s.cfg line s.regs) := by
  simp [exec, execLoadLine, h]

theorem exec_loadLine_unheard (h : hearsLoader s.cfg s.regs = false) (line : List Byte) :
    exec (.loadLine line) s = .next s := by
  simp [exec, execLoadLine, h]

theorem exec_rxByte_unheard (h : s.regs.listens = false) (b : Byte) : exec (.rxByte b) s = .next s := by
  simp [exec_rxByte, rxByteRegs, h]

end

/-- Settles O40: the frame of each event is spelled with the letters of R212. -/
theorem txServiceEmitsFrame : Obligations.TxServiceEmitsFrame := by
  intro s ev rest hp hr hq
  rw [exec_txService_head (Regs.emits_iff.2 ⟨hp, hr⟩) hq]
  rcases ev with _ | _ | v <;> rfl

/-- Settles O46: each of these states fails the condition under which the operation has an effect. -/
theorem endpointOperationsIgnored : Obligations.EndpointOperationsIgnored := by
  refine fun s line b => ⟨fun h => exec_txService_idle fun he => ?_, fun h => exec_loadLine_unheard ?_ line,
    fun h => exec_rxByte_unheard ?_ b⟩
  · obtain ⟨hp, hr⟩ := Regs.emits_iff.1 he
    simpa [hp, hr] using h
  · rw [Bool.eq_false_iff, ne_eq, hearsLoader_iff]
    rintro ⟨hp, hsource⟩
    simp [hp, hsource] at h
  · rw [Bool.eq_false_iff, ne_eq, Regs.listens_iff]
    rintro ⟨hr, hp⟩
    rcases hp with hp | hp <;> simp [hr, hp] at h

/-! ### Lines -/

section
variable {cfg : Config} {via : Via} {line : List Byte} {rec : Record} {r : Regs}

theorem processLine_record (h : decodeLine line = .ok rec) :
    processLine cfg via line r = applyRecord cfg via rec r := by
  simp only [processLine, h]

theorem processLine_unknown {e : DecodeError} (h : decodeLine line = .error e) :
    processLine cfg via line r = .ok r := by
  simp only [processLine, h]

theorem consumeLine_fits (h : line.length ≤ cfg.lineMax) :
    consumeLine cfg line r = processLine cfg .loader line r := by
  simp [consumeLine, h]

/-- An over-long line is not processed (R215). -/
theorem consumeLine_overlong (h : cfg.lineMax < line.length) : consumeLine cfg line r = .ok r := by
  simp [consumeLine, Nat.not_le.2 h]

theorem consumeLine_unknown {e : DecodeError} (h : decodeLine line = .error e) :
    consumeLine cfg line r = .ok r := by
  rcases Nat.lt_or_ge cfg.lineMax line.length with hlen | hlen
  · exact consumeLine_overlong hlen
  · rw [consumeLine_fits hlen, processLine_unknown h]

theorem relayed_eq (role : Role) :
    relayed cfg role line = if role = .master then line ++ [cfg.term] else [] := by
  cases role <;> rfl

end

/-- Settles O42: `consumeLine_total` says that the line is consumed, and the lemmas on `consumeLine` say how. -/
theorem loadLineRelaysAndConsumes : Obligations.LoadLineRelaysAndConsumes := by
  intro s line hinv hp hsource
  obtain ⟨r', hr'⟩ := consumeLine_total hinv.regs line
  have hexec := exec_loadLine_heard (hearsLoader_iff.2 ⟨hp, hsource⟩) line
  rw [hr', relayed_eq] at hexec
  refine ⟨_, hexec, rfl, rfl, fun hlen => ?_, fun e he => ?_, fun rec hlen hrec => ?_⟩
  · exact Except.ok.inj (hr'.symm.trans (consumeLine_overlong hlen))
  · exact Except.ok.inj (hr'.symm.trans (consumeLine_unknown he))
  · rw [consumeLine_fits hlen, processLine_record hrec] at hr'
    rw [exec_toInstr, hr']
    rfl

/-! ### Received bytes -/

section
variable {cfg : Config} {b : Byte} {r : Regs}

theorem rxByteRegs_append (hl : r.listens = true) (hb : b ≠ cfg.term) (hlen : r.rxBuf.length < cfg.lineMax) :
    rxByteRegs cfg b r = .ok { r with rxBuf := r.rxBuf ++ [b] } := by
  simp [rxByteRegs, hl, hb, hlen]

theorem rxByteRegs_term (hl : r.listens = true) (ho : r.rxOvf = false) :
    rxByteRegs cfg cfg.term r = processLine cfg .wire r.rxBuf r.clearRx := by
  simp [rxByteRegs, hl, ho]

/-- The `TERM` of a buffered line leaves the buffer as empty as it was before the line. -/
theorem rxByteRegs_term_record {line : List Byte} {rec : Record} (hl : r.listens = true) (hbuf : r.rxBuf = [])
    (ho : r.rxOvf = false) (hrec : decodeLine line = .ok rec) :
    rxByteRegs cfg cfg.term { r with rxBuf := line } = applyRecord cfg .wire rec r := by
  have hclear : Regs.clearRx { r with rxBuf := line } = r := by simp only [Regs.clearRx, ← hbuf, ← ho]
  have hterm := rxByteRegs_term (cfg := cfg) (r := { r with rxBuf := line }) hl ho
  rwa [processLine_record hrec, hclear] at hterm

end

/-- Bytes without a `TERM` that fit the line buffer are appended to it (R231). -/
theorem runRxBytes_append {bytes : List Byte} {s : State} (hl : s.regs.listens = true) (hterm : s.cfg.term ∉ bytes)
    (hlen : s.regs.rxBuf.length + bytes.length ≤ s.cfg.lineMax) :
    runInstrs (bytes.map .rxByte) s
      = .next { s with regs := { s.regs with rxBuf := s.regs.rxBuf ++ bytes } } := by
  induction bytes generalizing s with
  | nil => simp [runInstrs]
  | cons b bytes ih =>
    rw [List.mem_cons, not_or] at hterm
    obtain ⟨hb, hbytes⟩ := hterm
    rw [List.length_cons] at hlen
    have hbyte : exec (.rxByte b) s
        = .next { s with regs := { s.regs with rxBuf := s.regs.rxBuf ++ [b] } } := by
      rw [exec_rxByte, rxByteRegs_append hl (Ne.symm hb) (by omega)]
      rfl
    have hrest : (s.regs.rxBuf ++ [b]).length + bytes.length ≤ s.cfg.lineMax := by
      rw [List.length_append, List.length_singleton]
      omega
    have hrun := ih (s := { s with regs := { s.regs with rxBuf := s.regs.rxBuf ++ [b] } }) hl hbytes hrest
    rw [List.append_assoc] at hrun
    exact (runInstrs_cons_next hbyte).trans hrun

/-- A canonical line heard byte by byte, with its `TERM`, has the effect of its record come by the wire. -/
theorem runRxBytes_record {rec : Record} {s : State} (hdur : ∀ st, rec = .s (some st) → st.dur ≠ 0#8)
    (hwf : s.cfg.wf = true) (hplain : s.cfg.termPlain = true) (hl : s.regs.listens = true)
    (hbuf : s.regs.rxBuf = []) (ho : s.regs.rxOvf = false) :
    runInstrs ((rec.payload ++ [s.cfg.term]).map .rxByte) s = exec (rec.toInstr .wire) s := by
  obtain ⟨-, -, -, -, hmax, -⟩ := Config.wf_bounds hwf
  have hlen : s.regs.rxBuf.length + rec.payload.length ≤ s.cfg.lineMax := by
    have := payload_length_le rec
    rw [hbuf, List.length_nil]
    omega
  have hbytes := runRxBytes_append hl (term_notin_payload hplain rec) hlen
  rw [hbuf, List.nil_append] at hbytes
  rw [List.map_append, runInstrs_append_next hbytes, List.map_singleton, runInstrs_one, exec_rxByte,
    rxByteRegs_term_record hl hbuf ho (decodeLine_payload hdur), exec_toInstr]
  cases applyRecord s.cfg .wire rec s.regs <;> rfl

/-! ### Frames -/

section
variable {s : State}

theorem exec_recR_heard (h : hearsEvents .wire s.regs = true) :
    exec (.recR .wire) s = s.finish (applyRestart s.regs) := by
  simp [exec, execR, recordR, h]

theorem exec_recZ_heard (h : hearsEvents .wire s.regs = true) :
    exec (.recZ .wire) s = s.finish (applyStep s.regs) := by
  simp [exec, execZ, recordZ, h]

theorem exec_recC_heard (h : hearsEvents .wire s.regs = true) (v : Word) :
    exec (.recC .wire (some v)) s = .next { s with regs := applySetSpeed v s.regs } := by
  simp [exec, execC, recordC, h]

end

/-- What a slave in Run needs to follow a frame: it hears events and no line is begun. -/
structure AwaitsFrame (r : Regs) : Prop where
  hears : hearsEvents .wire r = true
  empty : r.rxBuf = []
  noOverflow : r.rxOvf = false

theorem AwaitsFrame.listens {r : Regs} (h : AwaitsFrame r) : r.listens = true := by
  obtain ⟨hp, hr, -⟩ := hearsEvents_iff.1 h.hears
  exact Regs.listens_iff.2 ⟨hr, .inr hp⟩

theorem AwaitsFrame.applyStep {r r' : Regs} (h : AwaitsFrame r) (hstep : applyStep r = .ok r') : AwaitsFrame r' := by
  obtain ⟨honly, -⟩ := applyStep_ok hstep
  rw [honly]
  exact ⟨h.hears, h.empty, h.noOverflow⟩

/-- The frame of a `Step` with a speed is a `Z` line and a `C` line (R212). -/
theorem frame_step_some (cfg : Config) (v : Word) :
    frame cfg (.step (some v))
      = (Record.z.payload ++ [cfg.term]) ++ ((Record.c (some v)).payload ++ [cfg.term]) := rfl

/-- Settles O41: each line of a frame has the effect of its record (`runRxBytes_record`), and after the `Z` of a `Step`
that carries a speed the slave still awaits a line. -/
theorem slaveFollowsFrame : Obligations.SlaveFollowsFrame := by
  intro s ev r' hwf hplain hp hr hbuf ho hfollow
  have hawaits : AwaitsFrame s.regs := ⟨hearsEvents_iff.2 ⟨hp, hr, rfl⟩, hbuf, ho⟩
  have hline : ∀ (rec : Record) (r : Regs), (∀ st, rec = .s (some st) → st.dur ≠ 0#8) → AwaitsFrame r →
      runInstrs ((rec.payload ++ [s.cfg.term]).map .rxByte) { s with regs := r }
        = exec (rec.toInstr .wire) { s with regs := r } :=
    fun rec r hdur h => runRxBytes_record (s := { s with regs := r }) hdur hwf hplain h.listens h.empty h.noOverflow
  cases ev with
  | restart =>
    have hrestart : applyRestart s.regs = .ok r' := hfollow
    refine (hline .r s.regs nofun hawaits).trans ?_
    rw [Record.toInstr, exec_recR_heard hawaits.hears, hrestart]
    rfl
  | step speed =>
    have hz : ∀ r1, applyStep s.regs = .ok r1 →
        runInstrs ((Record.z.payload ++ [s.cfg.term]).map .rxByte) s = .next { s with regs := r1 } := by
      intro r1 hr1
      refine (hline .z s.regs nofun hawaits).trans ?_
      rw [Record.toInstr, exec_recZ_heard hawaits.hears, hr1]
      rfl
    cases speed with
    | none => exact hz r' hfollow
    | some v =>
      simp only [followEvent] at hfollow
      split at hfollow
      case h_2 => cases hfollow
      case h_1 r1 hr1 =>
        cases hfollow
        rw [frame_step_some, List.map_append, runInstrs_append_next (hz r1 hr1),
          hline (.c (some v)) r1 nofun (hawaits.applyStep hr1), Record.toInstr,
          exec_recC_heard (hawaits.applyStep hr1).hears]

/-! ### A sequence read through the loader -/

/-- The staging table after one more entry, as a commit reads it. -/
theorem readStage_write_succ (stage : Stage) (n : Nat) (st : DimStep) :
    readStage (stage.write n st) (n + 1) = readStage stage n ++ [st] := by
  have hbelow : readStage (stage.write n st) n = readStage stage n := by
    refine List.map_congr_left fun i hi => ?_
    rw [Stage.read_write, if_neg (List.mem_range.1 hi).ne']
  rw [readStage, List.range_succ, List.map_append, List.map_singleton, Stage.read_write, if_pos rfl]
  exact congrArg (· ++ [st]) hbelow

/-- In Load from the loader a block is open, `staged` has been written into it and `todo` steps are still to come
(R48, R252, R255). -/
structure LoaderBlock (cfg : Config) (r : Regs) (staged : List DimStep) (todo : Nat) : Prop where
  hears : hearsLoader cfg r = true
  isOpen : r.ldMatch = true
  fill : r.ldFill.toNat = staged.length
  expect : r.ldExpect.toNat = staged.length + todo
  fits : r.ldExpect.toNat ≤ cfg.dimCap
  stage : readStage r.stage staged.length = staged

/-- The slot holds `seq`, which is valid, and no block is open in Load (R256). -/
structure Reloaded (r : Regs) (seq : List DimStep) : Prop where
  table : r.dimTab = seq
  length : r.dimLen.toNat = seq.length
  valid : r.dimValid = true
  inLoad : r.phase = .load
  closed : r.ldMatch = false

section
variable {cfg : Config} {r : Regs} {st : DimStep} {staged : List DimStep} {todo : Nat}

theorem hearsSequence_of_hearsLoader (h : hearsLoader cfg r = true) : hearsSequence cfg .loader r = true := by
  obtain ⟨hp, hsource⟩ := hearsLoader_iff.1 h
  exact hearsSequence_iff.2 ⟨hp, dimSource_mode (via := .loader) hsource, hsource⟩

/-- The header of a sequence that fits opens its block (R252). -/
theorem qLine_opens {id n : Word} (hid : id.toNat = r.sel.toNat) (hn : n ≠ 0#16) (hcap : n.toNat ≤ cfg.dimCap) :
    qLine cfg id n r = { r.closeBlock with ldMatch := true, ldExpect := n } := by
  simp [qLine, hid, hn, Nat.not_lt.2 hcap]

theorem loaderBlock_of_header {n : Word} (h : hearsLoader cfg r = true) (hcap : n.toNat ≤ cfg.dimCap) :
    LoaderBlock cfg { r.closeBlock with ldMatch := true, ldExpect := n } [] n.toNat :=
  ⟨h, rfl, rfl, (Nat.zero_add _).symm, hcap, rfl⟩

/-- A step that does not complete its block leaves it open with one entry more. -/
theorem LoaderBlock.sLine_stages (h : LoaderBlock cfg r staged (todo + 2)) (st : DimStep) :
    ∃ r', sLine cfg st r = .ok r' ∧ r'.role = r.role ∧ LoaderBlock cfg r' (staged ++ [st]) (todo + 1) := by
  obtain ⟨hhears, hopen, hfill, hexpect, hfits, hstage⟩ := h
  refine ⟨_, sLine_stage hopen (by omega) (by omega), rfl, hhears, hopen, ?_, ?_, hfits, ?_⟩
  · have := r.ldExpect.isLt
    rw [List.length_append, List.length_singleton, ← hfill]
    exact Nat.mod_eq_of_lt (by omega)
  · rw [List.length_append, List.length_singleton]
    exact hexpect.trans (by omega)
  · rw [List.length_append, List.length_singleton, hfill, readStage_write_succ, hstage]

/-- The last step of a block commits what was staged and the step itself. -/
theorem LoaderBlock.sLine_commits (h : LoaderBlock cfg r staged 1) (st : DimStep) :
    ∃ r', sLine cfg st r = .ok r' ∧ Reloaded r' (staged ++ [st]) := by
  obtain ⟨hhears, hopen, hfill, hexpect, hfits, hstage⟩ := h
  obtain ⟨hp, -⟩ := hearsLoader_iff.1 hhears
  refine ⟨_, sLine_commit hopen (by omega) (by omega), ?_, ?_, rfl, hp, rfl⟩
  · rw [hexpect, hfill, readStage_write_succ, hstage]
  · rw [List.length_append, List.length_singleton]
    exact hexpect

theorem flatMap_relayed (role : Role) (lines : List (List Byte)) :
    lines.flatMap (relayed cfg role)
      = if role = .master then lines.flatMap (fun line => line ++ [cfg.term]) else [] := by
  cases role
  · rfl
  · exact List.flatMap_eq_nil_iff.2 fun _ _ => rfl

end

section
variable {s : State}

/-- `LOAD_LINE` of a canonical line has the effect of its record, beside the relay. -/
theorem exec_loadLine_payload {rec : Record} (hdur : ∀ st, rec = .s (some st) → st.dur ≠ 0#8)
    (hwf : s.cfg.wf = true) (h : hearsLoader s.cfg s.regs = true) :
    exec (.loadLine rec.payload) s
      = (s.emit (relayed s.cfg s.regs.role rec.payload)).finish (applyRecord s.cfg .loader rec s.regs) := by
  obtain ⟨-, -, -, -, hmax, -⟩ := Config.wf_bounds hwf
  rw [exec_loadLine_heard h, consumeLine_fits ((payload_length_le rec).trans hmax),
    processLine_record (decodeLine_payload hdur)]

theorem exec_loadLine_header (hwf : s.cfg.wf = true) (h : hearsLoader s.cfg s.regs = true) (id n : Word) :
    exec (.loadLine (Record.q (some (id, n))).payload) s
      = .next { s.emit (relayed s.cfg s.regs.role (Record.q (some (id, n))).payload) with
          regs := qLine s.cfg id n s.regs } := by
  rw [exec_loadLine_payload (rec := .q (some (id, n))) nofun hwf h]
  simp [applyRecord, recordQ, hearsSequence_of_hearsLoader h]

theorem exec_loadLine_step {st : DimStep} {r' : Regs} (hdur : st.dur ≠ 0#8) (hwf : s.cfg.wf = true)
    (h : hearsLoader s.cfg s.regs = true) (hr' : sLine s.cfg st s.regs = .ok r') :
    exec (.loadLine (Record.s (some st)).payload) s
      = .next { s.emit (relayed s.cfg s.regs.role (Record.s (some st)).payload) with regs := r' } := by
  rw [exec_loadLine_payload (fun _ e => by cases e; exact hdur) hwf h]
  simp [applyRecord, recordS, hearsSequence_of_hearsLoader h, hr']

/-- The `S` lines that an open block still waits for, read through the loader. -/
theorem runStepLines_commit {st : DimStep} {steps staged : List DimStep} (hwf : s.cfg.wf = true)
    (hdur : ∀ x ∈ st :: steps, x.dur ≠ 0#8) (hblock : LoaderBlock s.cfg s.regs staged (steps.length + 1)) :
    ∃ t, runInstrs (((st :: steps).map fun x => (Record.s (some x)).payload).map .loadLine) s = .next t
      ∧ Reloaded t.regs (staged ++ st :: steps)
      ∧ t.tx = s.tx
          ++ ((st :: steps).map fun x => (Record.s (some x)).payload).flatMap (relayed s.cfg s.regs.role) := by
  induction steps generalizing st s staged with
  | nil =>
    obtain ⟨r', hr', hreloaded⟩ := hblock.sLine_commits st
    have hexec := exec_loadLine_step (hdur st List.mem_cons_self) hwf hblock.hears hr'
    exact ⟨_, (runInstrs_one _ _).trans hexec, hreloaded, by simp⟩
  | cons st' steps ih =>
    obtain ⟨hst, hsteps⟩ := List.forall_mem_cons.1 hdur
    obtain ⟨r', hr', hrole, hblock'⟩ := hblock.sLine_stages st
    have hexec := exec_loadLine_step hst hwf hblock.hears hr'
    obtain ⟨t, hrun, hreloaded, htx⟩ := ih
      (s := { s.emit (relayed s.cfg s.regs.role (Record.s (some st)).payload) with regs := r' })
      hwf hsteps hblock'
    refine ⟨t, (runInstrs_cons_next hexec).trans hrun, ?_, ?_⟩
    · rwa [List.append_assoc] at hreloaded
    · rw [htx]
      simp [hrole]

end

/-- Settles O43: the header opens the block (`qLine_opens`), and the steps fill and commit it
(`runStepLines_commit`). -/
theorem serializedSequenceReloads : Obligations.SerializedSequenceReloads := by
  intro s seq hwf hp hsource hne hcap h16 hdur
  have hhears : hearsLoader s.cfg s.regs = true := hearsLoader_iff.2 ⟨hp, hsource⟩
  obtain ⟨st, steps, rfl⟩ := List.exists_cons_of_ne_nil hne
  have hid : (BitVec.ofNat 16 s.regs.sel.toNat).toNat = s.regs.sel.toNat :=
    Nat.mod_eq_of_lt (by have := s.regs.sel.isLt; omega)
  have hcount : (BitVec.ofNat 16 (st :: steps).length).toNat = (st :: steps).length :=
    Nat.mod_eq_of_lt (by omega)
  have hnonzero : BitVec.ofNat 16 (st :: steps).length ≠ 0#16 := fun h => by
    rw [h] at hcount
    exact absurd hcount (by simp)
  have hheader := exec_loadLine_header hwf hhears (BitVec.ofNat 16 s.regs.sel.toNat)
    (BitVec.ofNat 16 (st :: steps).length)
  rw [qLine_opens hid hnonzero (hcount.le.trans hcap)] at hheader
  have hblock := loaderBlock_of_header hhears (hcount.le.trans hcap)
  rw [hcount] at hblock
  obtain ⟨t, hrun, hreloaded, htx⟩ := runStepLines_commit
    (s := { s.emit (relayed s.cfg s.regs.role _) with
      regs := { s.regs.closeBlock with ldMatch := true, ldExpect := _ } })
    hwf hdur hblock
  refine ⟨t, (runInstrs_cons_next hheader).trans hrun, hreloaded.table, hreloaded.length, hreloaded.valid,
    hreloaded.inLoad, hreloaded.closed, ?_⟩
  rw [ser, ← flatMap_relayed, serLines, List.flatMap_cons, ← List.append_assoc]
  exact htx

end Sys2Proof.Machine
end

section
/-! Proofs of the scope's statements about the slave's side of the sync line and the sequence records: the line buffer,
the events a slave applies, the block that `Q` opens and `S` fills and commits, and what all of these leave of the
engine. -/

namespace Sys2Proof.Machine

/-! ### The line buffer -/

section
variable {cfg : Config} {b : Byte} {r : Regs}

/-- A byte that finds the buffer full is dropped and noted (R231). -/
theorem rxByteRegs_drop (hl : r.listens = true) (hb : b ≠ cfg.term) (hlen : ¬ r.rxBuf.length < cfg.lineMax) :
    rxByteRegs cfg b r = .ok r.noteOverlong := by
  simp [rxByteRegs, hl, hb, hlen]

/-- The `TERM` of an over-long line clears the buffer and processes nothing (R231). -/
theorem rxByteRegs_term_overlong (hl : r.listens = true) (ho : r.rxOvf = true) :
    rxByteRegs cfg cfg.term r = .ok r.clearRx := by
  simp [rxByteRegs, hl, ho]

end

/-- An outcome replaces all registers, whatever they were. -/
theorem finish_regs (s : State) (r : Regs) (x : Except Fault Regs) :
    State.finish { s with regs := r } x = s.finish x := by
  cases x <;> rfl

/-- Settles O44: the two cases of a byte other than `TERM`, with room in the buffer and without. -/
theorem rxByteBuffers : Obligations.RxByteBuffers := by
  intro s b hr hp hb
  have hl : s.regs.listens = true := Regs.listens_iff.2 ⟨hr, hp⟩
  rw [exec_rxByte]
  split
  · rename_i hlen
    rw [rxByteRegs_append hl hb hlen]
    rfl
  · rename_i hlen
    rw [rxByteRegs_drop hl hb hlen]
    rfl

/-- Settles O45: the buffer is cleared first, so what the line then does is done to the cleared registers. -/
theorem rxTerminatorProcesses : Obligations.RxTerminatorProcesses := by
  rintro s s0 e rec hr hp rfl
  have hl : s.regs.listens = true := Regs.listens_iff.2 ⟨hr, hp⟩
  refine ⟨fun ho => ?_, fun ho he => ?_, fun ho hrec => ?_⟩
  · rw [exec_rxByte, rxByteRegs_term_overlong hl ho]
    rfl
  · rw [exec_rxByte, rxByteRegs_term hl ho, processLine_unknown he]
    rfl
  · rw [exec_rxByte, rxByteRegs_term hl ho, processLine_record hrec, exec_toInstr]
    exact (finish_regs s s.regs.clearRx _).symm

/-! ### Events on a slave -/

/-- A slave's move to a step that can be read: in Chase mode its pattern is shown, in Dimmer mode `out` stays (R245,
R246). -/
theorem showStep_goTo {r : Regs} {w : Word} (hread : r.readable w.toNat) :
    ∃ o, showStep (r.goTo w) = .ok { r with currentStep := w, tickCount := 0#16, out := o }
      ∧ (r.mode = .dimmer → o = r.out)
      ∧ (r.mode = .chase → ∃ p, r.chaseTab[w.toNat]? = some p ∧ o = ~~~p) := by
  have hread' : (r.goTo w).readable w.toNat := readable_congr rfl rfl rfl rfl rfl hread
  obtain ⟨r', hr'⟩ := showStep_total (r := r.goTo w) fun hm => mux_total hm hread'
  obtain ⟨honly, hchase, hdimmer⟩ := showStep_ok hr'
  refine ⟨r'.out, hr'.trans (congrArg _ honly), fun hm => (congrArg Regs.out (hdimmer hm) :), fun hm => ?_⟩
  obtain ⟨p, hp, ho⟩ := mux_ok.1 (hchase hm)
  obtain ⟨-, hp⟩ := memReadChase_ok.1 hp
  exact ⟨p, hp, ho⟩

/-- Settles O47: each of the two records moves the step pointer (`showStep_goTo`), the first to 0 and the second to the
target that `stepTarget_toNat` gives. -/
theorem eventRecordsMoveStep : Obligations.EventRecordsMoveStep := by
  intro s i n hp hr hi hread
  have hears : hearsEvents .wire s.regs = true := hearsEvents_iff.2 ⟨hp, hr, rfl⟩
  obtain ⟨w, hw, hexec⟩ : ∃ w : Word, w.toNat = n ∧ exec i s = s.finish (showStep (s.regs.goTo w)) := by
    rcases hi with ⟨rfl, rfl⟩ | ⟨rfl, rfl⟩
    · exact ⟨0#16, rfl, exec_recR_heard hears⟩
    · exact ⟨_, stepTarget_toNat s.regs, exec_recZ_heard hears⟩
  subst hw
  obtain ⟨o, hshow, hdimmer, hchase⟩ := showStep_goTo hread
  rw [hshow] at hexec
  refine ⟨_, hexec, rfl, rfl, hdimmer, fun hm => ?_⟩
  obtain ⟨p, hp, rfl⟩ := hchase hm
  exact ⟨p, hp, chanBit_not p⟩

/-- Settles O48: a slave in Run hears events from the wire (`exec_recC_heard`). -/
theorem speedRecord : Obligations.SpeedRecord :=
  fun _ v hp hr => ⟨exec_recC_heard (hearsEvents_iff.2 ⟨hp, hr, rfl⟩) v, exec_malformed.1⟩

/-! ### The sequence records -/

section
variable {s : State} {via : Via}

theorem exec_recQ_heard (h : hearsSequence s.cfg via s.regs = true) (id n : Word) :
    exec (.recQ via (some (id, n))) s = .next { s with regs := qLine s.cfg id n s.regs } := by
  simp [exec, execQ, recordQ, h, State.finish]

theorem exec_recS_heard (h : hearsSequence s.cfg via s.regs = true) (st : DimStep) :
    exec (.recS via (some st)) s = s.finish (sLine s.cfg st s.regs) := by
  simp [exec, execS, recordS, h]

end

section
variable {cfg : Config} {r : Regs} {id n : Word} {st : DimStep}

theorem qLine_otherId (hid : id.toNat ≠ r.sel.toNat) : qLine cfg id n r = r.closeBlock := by
  simp [qLine, hid]

theorem qLine_zero (hid : id.toNat = r.sel.toNat) :
    qLine cfg id 0#16 r = raise .zeroLengthSequence r.closeBlock := by
  simp [qLine, hid]

theorem qLine_overCap (hid : id.toNat = r.sel.toNat) (hn : n ≠ 0#16) (hcap : cfg.dimCap < n.toNat) :
    qLine cfg id n r = raise .allocationFailure r.closeBlock := by
  simp [qLine, hid, hn, hcap]

/-- A count over `DIM_CAP` is fatal only where the slot holds no sequence (R290). -/
theorem raise_allocationFailure (r : Regs) :
    raise .allocationFailure r = if r.dimValid then { r with err := .allocationFailure }
      else { r with err := .allocationFailure, phase := .fatal, out := 0x00#8, zcArmed := false,
                    sliceAttached := false } := by
  split
  · rename_i hv
    exact raise_notFatal (by simp [ErrKind.isFatal, hv])
  · rename_i hv
    exact raise_fatal (by simp [ErrKind.isFatal, hv])

/-- After a write the other entries read as before (R74). -/
theorem Stage.read_write_apply (stage : Stage) (i : Nat) (st : DimStep) (j : Nat) :
    (stage.write i st).read j = if j = i then st else stage.read j := by
  rw [Stage.read_write]
  exact if_congr eq_comm rfl rfl

/-- A step with no open block is ignored (R255). -/
theorem sLine_closed (h : r.ldMatch = false) : sLine cfg st r = .ok r := by
  simp [sLine, h]

end

/-- Settles O50: the cases of `Q_LINE`, with what each of its errors does. -/
theorem headerRecord : Obligations.HeaderRecord := by
  rintro s via id n r0 hp hm hsource rfl
  rw [exec_recQ_heard (hearsSequence_iff.2 ⟨hp, hm, hsource⟩)]
  congr 2
  by_cases hid : id.toNat = s.regs.sel.toNat
  case neg => rw [if_pos hid, qLine_otherId hid]; rfl
  rw [if_neg (not_not.2 hid)]
  by_cases hzero : n = 0#16
  · subst hzero
    rw [qLine_zero hid, raise_fatal rfl]
    rfl
  have hpos : n.toNat ≠ 0 := fun h => hzero (BitVec.eq_of_toNat_eq h)
  rw [if_neg hpos]
  by_cases hcap : s.cfg.dimCap < n.toNat
  · rw [if_pos hcap, qLine_overCap hid hzero hcap, raise_allocationFailure]
    rfl
  · rw [if_neg hcap, qLine_opens hid hzero (Nat.le_of_not_lt hcap)]
    rfl

/-- Settles O51: with no open block by `sLine_closed`, in an open one by `sLine_stage` and read after write in the
staging table. -/
theorem stepRecordStages : Obligations.StepRecordStages := by
  intro s via st hp hm hsource
  rw [exec_recS_heard (hearsSequence_iff.2 ⟨hp, hm, hsource⟩)]
  refine ⟨fun hclosed => ?_, fun hopen hcap hmore => ?_⟩
  · rw [sLine_closed hclosed]
    rfl
  · rw [sLine_stage hopen (by omega) (by omega)]
    have hfits : s.regs.ldFill.toNat + 1 < 2 ^ 16 := hmore.trans s.regs.ldExpect.isLt
    exact ⟨_, rfl, Nat.mod_eq_of_lt hfits, rfl, Stage.read_write_apply _ _ st⟩

/-- Settles O52: the commit reads the staging table right after this step was written to it (`sLine_commit`,
`readStage_get`). -/
theorem stepRecordCommits : Obligations.StepRecordCommits := by
  intro s via st hp hm hsource hopen hlast hcap
  rw [exec_recS_heard (hearsSequence_iff.2 ⟨hp, hm, hsource⟩), sLine_commit hopen (by omega) hlast]
  have hread := Stage.read_write_apply s.regs.stage s.regs.ldFill.toNat st
  refine ⟨_, rfl, rfl, readStage_length _ _, ?_, fun i hi => ?_, hread⟩
  · rw [readStage_get (by omega), hread, if_pos rfl]
  · rw [readStage_get (by omega), hread, if_neg hi.ne]

/-! ### The engine -/

/-- The delay counters, their snapshot and the slice counter are the same (R38, R39, R41). -/
def SameCounts (r r' : Regs) : Prop :=
  r'.delay = r.delay ∧ r'.snap = r.snap ∧ r'.sliceCount = r.sliceCount

/-- The counters are the same, and in Run so are the flags of the two handlers and, in Dimmer mode, the outputs
(R248). -/
def SameEngine (r r' : Regs) : Prop :=
  SameCounts r r'
  ∧ (r.phase = .run → r'.zcArmed = r.zcArmed ∧ r'.sliceAttached = r.sliceAttached
      ∧ (r.mode = .dimmer → r'.out = r.out))

section
variable {cfg : Config} {p : Ports} {r r' : Regs}

theorem SameEngine.refl (r : Regs) : SameEngine r r := ⟨⟨rfl, rfl, rfl⟩, fun _ => ⟨rfl, rfl, fun _ => rfl⟩⟩

/-- Outside Run only the counters are the engine's. -/
theorem SameCounts.sameEngine (h : SameCounts r r') (hp : r.phase ≠ .run) : SameEngine r r' :=
  ⟨h, fun hrun => absurd hrun hp⟩

theorem sameCounts_raise (k : ErrKind) (r : Regs) : SameCounts r (raise k r) := by
  rw [(raise_only k r).1]
  exact ⟨rfl, rfl, rfl⟩

theorem sameCounts_selectSequence (cfg : Config) (r : Regs) : SameCounts r (selectSequence cfg r) := by
  rcases selectSequence_cases cfg r with hs | ⟨k, -, -, hs⟩ | ⟨-, ps, -, -, hs⟩ | ⟨-, sts, -, -, -, hs⟩ <;> rw [hs]
  · exact ⟨rfl, rfl, rfl⟩
  · exact sameCounts_raise k r
  · exact ⟨rfl, rfl, rfl⟩
  · exact ⟨rfl, rfl, rfl⟩

theorem bootSample_sameEngine : SameEngine r (bootSampleRegs cfg p r) := by
  unfold bootSampleRegs
  split
  · rename_i hboot
    exact SameCounts.sameEngine (sameCounts_selectSequence cfg (latchBoot p r)) (by simp [hboot])
  · exact .refl r

theorem hearsLoader_not_run (h : hearsLoader cfg r = true) : r.phase ≠ .run := by
  simp [(hearsLoader_iff.1 h).1]

theorem loadEnd_sameEngine : SameEngine r (loadEndRegs cfg r) := by
  unfold loadEndRegs
  split_ifs with hh
  · exact .refl r
  · exact SameCounts.sameEngine (sameCounts_raise _ r.closeBlock) (hearsLoader_not_run hh)
  · exact .refl r

theorem srcAbsent_sameEngine : SameEngine r (srcAbsentRegs cfg r) := by
  unfold srcAbsentRegs
  split
  · rename_i hh
    exact (sameCounts_raise _ r).sameEngine (hearsLoader_not_run hh)
  · exact .refl r

/-- A record leaves the counters; in Run it moves the step pointer or the speed, and shows a step in Chase mode only. -/
theorem RecordEffect.sameEngine (h : RecordEffect cfg r r') : SameEngine r r' := by
  obtain ⟨-, -, -, -, hdelay, hsnap, hcount, -⟩ := h.keeps
  refine ⟨⟨hdelay, hsnap, hcount⟩, fun hrun => ?_⟩
  have honly := h.run hrun
  refine ⟨(congrArg Regs.zcArmed honly :), (congrArg Regs.sliceAttached honly :), fun hm => ?_⟩
  cases h with
  | same h => exact congrArg Regs.out h
  | restart _ _ h =>
    obtain ⟨-, -, hout⟩ := applyRestart_ok h
    exact hout hm
  | step _ _ h =>
    obtain ⟨-, -, -, hout⟩ := applyStep_ok h
    exact hout hm
  | speed _ _ v h => exact (congrArg Regs.out h :)
  | header hp | stepLine hp => simp [hrun] at hp

theorem rxByte_sameEngine {b : Byte} (h : rxByteRegs cfg b r = .ok r') : SameEngine r r' := by
  rcases rxByte_effect h with rfl | ⟨-, -, -, rfl⟩ | ⟨-, rfl⟩ | ⟨-, hrec⟩
  · exact .refl _
  · exact .refl r
  · exact .refl r
  · exact hrec.sameEngine

theorem txService_sameEngine : SameEngine r (if r.emits then { r with evq := r.evq.tail } else r) := by
  split <;> exact .refl r

/-- The engine is written by the two handlers, `START` and `RESET` alone. -/
theorem regsAfter_sameEngine {i : Instr} (hreset : i ≠ .reset) (hstart : i ≠ .start) (hedge : i ≠ .zcEdge)
    (hslice : i ≠ .sliceTick) (h : regsAfter i cfg p r = .ok r') : SameEngine r r' := by
  cases i with
  | recR via => exact (applyRecord_effect (cfg := cfg) (rec := .r) h).sameEngine
  | recZ via => exact (applyRecord_effect (cfg := cfg) (rec := .z) h).sameEngine
  | recC via v => exact (applyRecord_effect (cfg := cfg) (rec := .c v) h).sameEngine
  | recQ via hd => exact (applyRecord_effect (cfg := cfg) (rec := .q hd) h).sameEngine
  | recS via st => exact (applyRecord_effect (cfg := cfg) (rec := .s st) h).sameEngine
  | reset => exact absurd rfl hreset
  | bootSample => exact Except.ok.inj h ▸ bootSample_sameEngine
  | loadLine line => exact (loadLine_effect h).sameEngine
  | loadEnd => exact Except.ok.inj h ▸ loadEnd_sameEngine
  | srcAbsent => exact Except.ok.inj h ▸ srcAbsent_sameEngine
  | start => exact absurd rfl hstart
  | zcEdge => exact absurd rfl hedge
  | sliceTick => exact absurd rfl hslice
  | rxByte b => exact rxByte_sameEngine h
  | txService => exact Except.ok.inj h ▸ txService_sameEngine
  | read | reserved11 | reserved12 | reserved13 | reserved14 | reserved15 => exact Except.ok.inj h ▸ .refl r

end

/-- Settles O21: `regsAfter_sameEngine`, for the registers of the next state. -/
theorem endpointNeverTouchesDelays : Obligations.EndpointNeverTouchesDelays := by
  intro i s t hreset hstart hedge hslice h
  obtain ⟨hregs, -⟩ := exec_next_iff.1 h
  obtain ⟨⟨hdelay, hsnap, hcount⟩, hrun⟩ := regsAfter_sameEngine hreset hstart hedge hslice hregs
  exact ⟨hdelay, hsnap, hcount, hrun⟩

end Sys2Proof.Machine
end

section
/-! Proofs of the scope's statements about the host's operations: the selection of a chase sequence at `BOOT_SAMPLE`, the
loader's reports, `START`, and the operations that change no register or reset them all. -/

namespace Sys2Proof.Machine

/-! ### Selecting a chase sequence -/

section
variable {cfg : Config} {r : Regs}

theorem selectChase_undefined (h : lookupId cfg.chaseRom r.sel = none) :
    selectChase cfg r = raise .unknownSequenceId r := by
  simp [selectChase, h]

theorem selectChase_empty (h : lookupId cfg.chaseRom r.sel = some []) :
    selectChase cfg r = raise .zeroLengthSequence r := by
  simp [selectChase, h]

theorem selectChase_defined {ps : List Byte} (h : lookupId cfg.chaseRom r.sel = some ps) (hne : ps ≠ []) :
    selectChase cfg r = { r with chaseTab := ps, chaseLen := BitVec.ofNat 16 ps.length, chaseValid := true } := by
  simp [selectChase, h, hne]

/-- In Chase mode the sequence is selected from `CHASE_ROM` (R271). -/
theorem selectSequence_chase (hm : r.mode = .chase) : selectSequence cfg r = selectChase cfg r := by
  simp [selectSequence, hm]

end

theorem latchBoot_chase {p : Ports} (h : p.selIn.toNat < 240) (r : Regs) :
    latchBoot p r = { r with sel := p.selIn, role := p.roleIn, localData := p.localIn,
                             mode := .chase, phase := .load } := by
  simp [latchBoot, h]

/-- Settles O54: `BOOT_SAMPLE` answers `SELECT_CHASE` of the latched registers, and each case of the lookup has one
outcome. The constraint on `CHASE_ROM` makes `chase_len` the list's length. -/
theorem bootSelectsChase : Obligations.BootSelectsChase := by
  intro s r0 hwf hp hsel hr0
  have hsel0 : r0.sel = s.ports.selIn := by rw [hr0]
  have hmode0 : r0.mode = .chase := by rw [hr0]
  have hlatch : latchBoot s.ports s.regs = r0 := (latchBoot_chase hsel s.regs).trans hr0.symm
  rw [← hsel0, exec_bootSample_boot hp, hlatch, selectSequence_chase hmode0]
  refine ⟨fun hnone => ?_, fun hempty => ?_, fun p ps hsome => ?_⟩
  · rw [selectChase_undefined hnone, raise_notFatal rfl]
  · rw [selectChase_empty hempty, raise_fatal rfl]
  · obtain ⟨-, -, -, -, -, -, -, hrom, -⟩ := Config.wf_bounds hwf
    rw [selectChase_defined hsome (List.cons_ne_nil p ps)]
    exact ⟨_, rfl, ofNat_length (hrom _ (lookupId_mem hsome)), rfl⟩

/-- Settles O59: the latching stands under the condition that the phase is Boot. -/
theorem bootSampledOnce : Obligations.BootSampledOnce := by
  intro s hp
  simp [exec, execBootSample, bootSampleRegs, hp]

/-! ### The loader's reports -/

section
variable {s : State}

theorem exec_loadEnd_unheard (h : hearsLoader s.cfg s.regs = false) : exec .loadEnd s = .next s := by
  simp [exec, execLoadEnd, loadEndRegs, h]

theorem exec_srcAbsent_unheard (h : hearsLoader s.cfg s.regs = false) : exec .srcAbsent s = .next s := by
  simp [exec, execSrcAbsent, srcAbsentRegs, h]

/-- `LOAD_END` where the loader is heard (R274): the block is closed, and an empty slot is an error. -/
theorem exec_loadEnd_heard (h : hearsLoader s.cfg s.regs = true) :
    exec .loadEnd s = .next { s with regs :=
      if s.regs.dimValid then s.regs.closeBlock else raise .unknownSequenceId s.regs.closeBlock } := by
  simp [exec, execLoadEnd, loadEndRegs, h]

/-- `SRC_ABSENT` where the loader is heard (R275). -/
theorem exec_srcAbsent_heard (h : hearsLoader s.cfg s.regs = true) :
    exec .srcAbsent s = .next { s with regs := raise .configurationAbsent s.regs } := by
  simp [exec, execSrcAbsent, srcAbsentRegs, h]

end

/-- Settles O57: where the loader is heard, `LOAD_END` with and without a sequence in the slot and the fatal error of
`SRC_ABSENT`; elsewhere neither has an effect. -/
theorem loaderReports : Obligations.LoaderReports := by
  refine fun s => ⟨fun hload => ?_, fun hnot => ?_⟩
  · have hh : hearsLoader s.cfg s.regs = true := hearsLoader_iff.2 hload
    rw [exec_loadEnd_heard hh, exec_srcAbsent_heard hh, raise_notFatal rfl, raise_fatal rfl]
    refine ⟨?_, rfl⟩
    cases s.regs.dimValid <;> rfl
  · have hh : hearsLoader s.cfg s.regs = false := by
      rw [Bool.eq_false_iff, ne_eq, hearsLoader_iff, not_and_or]
      exact hnot
    exact ⟨exec_loadEnd_unheard hh, exec_srcAbsent_unheard hh⟩

/-! ### Start -/

theorem exec_start (s : State) : exec .start s = s.finish (startRegs s.ports.speedIn s.regs) := rfl

section
variable {v : Word} {r : Regs}

theorem startRegs_refused (h : r.startable = false) : startRegs v r = .ok r := by
  simp [startRegs, h]

/-- An accepted `START` answers when element 0 can be read: it creates RunState and shows the complement of the first
pattern in Chase mode, nothing in Dimmer mode (R276). -/
theorem startRegs_accepted (hs : r.startable = true) (hread : r.readable 0) :
    ∃ o, startRegs v r = .ok { freshRun v r with out := o, phase := .run }
      ∧ (r.mode = .dimmer → o = 0x00#8)
      ∧ (r.mode = .chase → ∃ p, r.chaseTab[0]? = some p ∧ o = ~~~p) := by
  cases hm : r.mode
  case chase =>
    obtain ⟨o, ho⟩ := mux_total hm hread
    obtain ⟨p, hp, hout⟩ := mux_ok.1 ho
    obtain ⟨-, hp⟩ := memReadChase_ok.1 hp
    exact ⟨o, by simp only [startRegs, hs, hm, ho, if_true], nofun, fun _ => ⟨p, hp, hout⟩⟩
  case dimmer =>
    exact ⟨0x00#8, by simp only [startRegs, hs, hm, if_true], fun _ => rfl, nofun⟩

end

/-- Settles O58: `startable` says which states accept; `startRegs_accepted` gives the frame and `out` there. -/
theorem startEntersRun : Obligations.StartEntersRun := by
  refine fun s => ⟨fun hp hread hchase hdimmer => ?_, fun hnot => ?_⟩
  · have hs : s.regs.startable = true := startable_iff.2 ⟨hp, hchase, hdimmer⟩
    obtain ⟨o, hstart, hdim, hmux⟩ := startRegs_accepted (v := s.ports.speedIn) hs hread
    rw [exec_start, hstart]
    refine ⟨_, rfl, rfl, hdim, fun hm => ?_⟩
    obtain ⟨p, hfirst, rfl⟩ := hmux hm
    exact ⟨p, hfirst, chanBit_not p⟩
  · have hs : s.regs.startable = false := by
      rw [Bool.eq_false_iff, ne_eq, startable_iff]
      rintro ⟨hp, hchase, hdimmer⟩
      rcases hnot with hphase | ⟨hm, hv⟩ | ⟨hm, hv⟩
      · exact hphase hp
      · exact absurd (hchase hm) (by simp [hv])
      · exact absurd (hdimmer hm) (by simp [hv])
    rw [exec_start, startRegs_refused hs]
    rfl

/-! ### Reset, read and the reserved codes -/

/-- `RESET` replaces the registers and nothing else (R270). -/
theorem exec_reset (s : State) : exec .reset s = .next { s with regs := .atReset } := rfl

/-- Settles O53: the registers after `RESET` are those of `Regs.atReset`, the lanes of its counters all 0. -/
theorem resetRestoresRegisters : Obligations.ResetRestoresRegisters := by
  refine fun s => ⟨_, exec_reset s, rfl, ?_⟩
  simp [Regs.atReset]

/-- A request with one of the five reserved codes is taken with any operand, and its instruction changes nothing
(R120). -/
theorem decode_reserved (cfg : Config) {code : BitVec 4} (operand : List Byte) (h : 11 ≤ code.toNat) :
    ∃ i, decode cfg (.op code operand) = .ok i ∧ ∀ s, exec i s = .next s := by
  obtain ⟨n, hn⟩ := code
  change 11 ≤ n at h
  interval_cases n <;> exact ⟨_, rfl, fun _ => rfl⟩

/-- Settles O60: `READ` writes the copy alone, and every reserved code decodes to an instruction without an effect. -/
theorem readAndReservedChangeNothing : Obligations.ReadAndReservedChangeNothing := by
  refine fun s => ⟨rfl, rfl, rfl, rfl, rfl, rfl, fun code operand h => ?_⟩
  obtain ⟨i, hdecode, hexec⟩ := decode_reserved s.cfg operand h
  exact ⟨i, hdecode, hexec s⟩

end Sys2Proof.Machine
end

section
/-! Proofs of the scope's statements about exceptions: outside Load and Run nothing but `BOOT_SAMPLE` and `RESET` has an
effect, so Fatal is left by `RESET` alone (R296); and nothing raises an error in Run (R290). -/

namespace Sys2Proof.Machine

/-! ### Outside Load and Run -/

section
variable {s : State}

/-- Every operation but `BOOT_SAMPLE` and `RESET` has its effect in Load or in Run; elsewhere there is only the copy
that `READ` hands to the host. -/
theorem exec_outside_load_run {i : Instr} (hload : s.regs.phase ≠ .load) (hrun : s.regs.phase ≠ .run)
    (hreset : i ≠ .reset) (hboot : i = .bootSample → s.regs.phase ≠ .boot) :
    exec i s = .next { s with readData := readAfter i s } := by
  have hevents (via v) := (recordsDiscarded s via v none none).1 (.inl hrun)
  have hsequence (via hd st) := (recordsDiscarded s via none hd st).2.1 (.inl hload)
  obtain ⟨hsent, -, -⟩ := endpointOperationsIgnored s [] 0#8
  obtain ⟨hedge, hslice⟩ := handlersIgnoredWhenDisabled s
  obtain ⟨hloadEnd, hsrcAbsent⟩ := (loaderReports s).2 (.inl hload)
  cases i with
  | recR via => exact (hevents via none).1
  | recZ via => exact (hevents via none).2.1
  | recC via v => exact (hevents via v).2.2
  | recQ via hd => exact (hsequence via hd none).1
  | recS via st => exact (hsequence via none st).2
  | reset => exact absurd rfl hreset
  | bootSample => exact bootSampledOnce s (hboot rfl)
  | loadLine line => exact (endpointOperationsIgnored s line 0#8).2.1 (.inl hload)
  | loadEnd => exact hloadEnd
  | srcAbsent => exact hsrcAbsent
  | start => exact (startEntersRun s).2 (.inl hload)
  | zcEdge => exact hedge (.inl hrun)
  | sliceTick => exact hslice (.inl hrun)
  | rxByte b =>
    have hdeaf : s.regs.listens = false := by simp [Regs.listens, hload, hrun]
    exact exec_rxByte_unheard hdeaf b
  | txService => exact hsent (.inl hrun)
  | read | reserved11 | reserved12 | reserved13 | reserved14 | reserved15 => rfl

end

/-- Settles O15: Fatal is neither Load, Run nor Boot, so at most the copy of `READ` is new. -/
theorem fatalHoldsEverything : Obligations.FatalHoldsEverything := by
  intro i s hp hreset
  exact ⟨_, exec_outside_load_run (by simp [hp]) (by simp [hp]) hreset (by simp [hp]), rfl, rfl, rfl⟩

/-! ### Errors in Run -/

section
variable {cfg : Config} {p : Ports} {r r' : Regs}

/-- The stored error and the phase are the same (R35, R36). -/
def SameStatus (r r' : Regs) : Prop :=
  r'.err = r.err ∧ r'.phase = r.phase

theorem RecordEffect.sameStatus (h : RecordEffect cfg r r') (hp : r.phase = .run) : SameStatus r r' := by
  rw [h.run hp]
  exact ⟨rfl, rfl⟩

/-- What an instruction other than `RESET` does in Run raises nothing; what would raise is of Boot or Load. -/
theorem InstrEffect.sameStatus {i : Instr} (he : InstrEffect i cfg p r r') (hreset : i ≠ .reset)
    (hp : r.phase = .run) : SameStatus r r' := by
  have hload : r.phase ≠ .load := by simp [hp]
  cases he with
  | same h | sent h | stored _ _ _ h | overlong h | cleared h => subst h; exact ⟨rfl, rfl⟩
  | reset hi => exact absurd hi hreset
  | boot _ hboot => simp [hp] at hboot
  | loadEnd hl | srcAbsent hl => exact absurd hl hload
  | start _ hs => exact absurd (startable_iff.1 hs).1 hload
  | edge _ ha h =>
    obtain ⟨_, -, heq, -⟩ := edge_only ha h
    rw [heq]; exact ⟨rfl, rfl⟩
  | slice _ h => rw [h, sliceTickRegs_only]; exact ⟨rfl, rfl⟩
  | record _ _ _ _ h0 h =>
    exact (record_effect h0 h).elim (fun hrec => hrec.sameStatus hp) (fun hrec => hrec.sameStatus (r := r.clearRx) hp)

end

/-- Settles O22: the codes are those of the table of R290, and no effect in Run but that of `RESET` writes `err` or the
phase. -/
theorem runRaisesNothing : Obligations.RunRaisesNothing := by
  refine ⟨rfl, fun i s t hp hreset h => ?_⟩
  obtain ⟨herr, hphase⟩ := (exec_effect h).sameStatus hreset hp
  exact ⟨herr, hphase.trans hp⟩

end Sys2Proof.Machine
end

section
/-! Proof of the scope's statement about the phase Boot: until the configuration is sampled, requests of every other
kind are ignored (R332, R35). -/

namespace Sys2Proof.Machine

/-- Settles O16: Boot is neither Load nor Run, so without `BOOT_SAMPLE` and `RESET` at most the copy of `READ` is new. -/
theorem bootHoldsEverything : Obligations.BootHoldsEverything := by
  intro i s hp hreset hboot
  have hexec : exec i s = .next { s with readData := readAfter i s } :=
    exec_outside_load_run (by simp [hp]) (by simp [hp]) hreset (fun hi => absurd hi hboot)
  exact ⟨_, hexec, rfl, rfl, rfl⟩

end Sys2Proof.Machine
end

section
/-! Proof of the scope's statement about words written out from the opcode table: read as requests, they are what the
encoder writes for their instructions (R102 to R106, R120). -/

namespace Sys2Proof

/-- At the default parameters every well-formed instruction is read back from what the encoder writes for it. -/
theorem decode_default_encode {i : Instr} (hi : i.wellFormed .default = true) :
    decode .default (encode i) = .ok i :=
  decodeEncodeAgree .default i (by decide) (by decide) hi

/-- A word of the opcode table that is the spelling of a well-formed instruction decodes to that instruction. -/
theorem decodeTableWord_of_encode {nbits w : Nat} {i : Instr} (hword : tableRequest nbits w = encode i)
    (hi : i.wellFormed .default = true) : decodeTableWord nbits w = some i := by
  rw [decodeTableWord, hword, decode_default_encode hi]

/-- Settles O1: the words and the two lines are the spellings of their instructions, so they are read back
(`decodeEncodeAgree`); the request with a reserved code is none, for it has an operand, and is taken by its code. -/
theorem tableWordsDecode : Obligations.TableWordsDecode := by
  refine ⟨?recR, ?recZ, ?reset, ?zcEdge, ?rxByte, ?recC, ?recQ, ?reserved⟩
  case recR | recZ | reset | zcEdge | rxByte => exact decodeTableWord_of_encode rfl rfl
  case recC => exact decode_default_encode (i := .recC .wire (some 25#16)) rfl
  case recQ => exact decode_default_encode (i := .recQ .loader (some (240#16, 2#16))) rfl
  case reserved => rfl

end Sys2Proof
end
